-- ==== Sys2Proof/Word.lean ====
section
/-! DEFINITION. The word types of the block: 32-bit disk, display and host-memory words, 16-bit
I/O board registers and selectors, and image bytes (spec 00_scope.md section 5, 20_memory.md R60). -/

namespace Sys2Proof

/-- A 32-bit word: `DISK_REG_WIDTH`, `TV_CSR_WIDTH`, `MEM_WORD_WIDTH` (00_scope.md section 5). -/
abbrev Word := BitVec 32

/-- A 16-bit word: `IOB_REG_WIDTH`, and the transaction selector (30_encoding.md R90). -/
abbrev Half := BitVec 16

/-- One byte of an image file (20_memory.md R64). -/
abbrev Byte := BitVec 8

/-- A byte offset of the I/O board register page: the selector's `OFF` field (30_encoding.md R98). -/
abbrev Offset := BitVec 9

end Sys2Proof
end

