-- ==== Sys2Proof/Config.lean ====
section
/-! DEFINITION. The parameters of 00_scope.md section 5 (R5: fixed for a run, changed by no
transaction). A parameter with a value there is a `def`; an OPEN one is an `opaque` constant with no
body, so that no proof can use a value of it. The free values of log entry 7 stand at the end. -/

namespace Sys2Proof

/-- `ROLLOVER`: roll when the counter exceeds the limit (`GT`) or reaches it (`GE`); 41_disk_commands.md R160. -/
inductive Rollover where
  | gt
  | ge
  deriving DecidableEq, Repr

/-- `HOST_NATIVE_ORDER` (20_memory.md R65). -/
inductive ByteOrder where
  | littleEndian
  | bigEndian
  deriving DecidableEq, Repr

/-- `IMAGE_SWAP`: exchange the 16-bit halves of a word, or the bytes of each half (90_conflicts.md C1). -/
inductive ImageSwap where
  | halves
  | bytesInHalves
  deriving DecidableEq, Repr

/-- The function keys of 43_input_events.md R243. -/
inductive FKeyName where
  | network
  | system
  | abort
  | clear
  | help
  | endKey
  | call
  | breakKey
  | backspace
  | returnKey
  deriving DecidableEq, Repr, Inhabited

/-- A type a machine state can hold: its values can be compared and written out, and there is one. The
defaults only show that there is such a type, as an `opaque` of it needs. -/
structure CodeType where
  carrier   : Type := Unit
  decEq     : DecidableEq carrier := by infer_instance
  repr      : Repr carrier := by infer_instance
  inhabited : Inhabited carrier := by infer_instance
  deriving Inhabited

/-- A value of such a type. -/
structure CodeOf (t : CodeType) [DecidableEq t.carrier] [Repr t.carrier] [Inhabited t.carrier] where
  value : t.carrier
  deriving DecidableEq, Repr, Inhabited

/-- The type of front-end key codes, OPEN: no body, so a claim holds for every such type (log 10). -/
opaque Config.keyCodes : CodeType

/-- `KEYCODE` (00_scope.md section 5): a front-end key code. -/
abbrev KeyCode :=
  @CodeOf Config.keyCodes Config.keyCodes.decEq Config.keyCodes.repr Config.keyCodes.inhabited

/-- `BUTTON_MAP`: which bit of a mouse event's `buttons` sets which latch (43_input_events.md R253). -/
structure ButtonMap where
  head   : Nat
  middle : Nat
  tail   : Nat
  deriving DecidableEq, Repr

/-- The OPEN front-end parameters of 00_scope.md section 5, for a type `κ` of key codes: what the codes,
modifier masks and pointer deltas mean. `scanBase` and `scanPatches` are the historical table and its override
list of 43_input_events.md R240. Bit masks are natural numbers (log 10). -/
structure FrontEnd (κ : Type) where
  isModifier  : κ → Bool
  fkey        : κ → Option FKeyName
  fkeyCode    : FKeyName → Half
  scanBase    : κ → Bool → BitVec 8
  scanPatches : List (κ × Bool × BitVec 8)
  extraShift  : Nat
  extraCtrl   : Nat
  extraMeta   : Nat
  mouseRaw    : Int → Int → BitVec 2 × BitVec 2
  deriving Inhabited

namespace Config

/-- `DISK_REG_WIDTH`; the type of the disk registers is `Word`. -/
def diskRegWidth : Nat := 32
/-- `IOB_REG_WIDTH`; the type of the I/O board registers is `Half`. -/
def iobRegWidth : Nat := 16
/-- `TV_CSR_WIDTH`; the type of the display CSR is `Word`. -/
def tvCsrWidth : Nat := 32
/-- `MEM_WORD_WIDTH`; the type of a host-memory word is `Word`. -/
def memWordWidth : Nat := 32
/-- `BLOCK_BYTES`. -/
def blockBytes : Nat := 1024
/-- `BLOCK_WORDS`. -/
def blockWords : Nat := 256
/-- `CHAIN_BOUND` (41_disk_commands.md R162). -/
def chainBound : Nat := 65535
/-- `CMD_OPCODE_MASK` = 0o1777, bits 9:0 (30_encoding.md R101). -/
def cmdOpcodeMask : Word := 0o1777
/-- `OP_READ`, compared with the masked command word (30_encoding.md R101). -/
def opRead : BitVec 10 := 0
/-- `OP_READ_COMPARE` = 0o10. -/
def opReadCompare : BitVec 10 := 0o10
/-- `OP_WRITE` = 0o11. -/
def opWrite : BitVec 10 := 0o11
/-- `OP_RECALIBRATE` = 0o1005. -/
def opRecalibrate : BitVec 10 := 0o1005
/-- `OP_FAULT_CLEAR` = 0o405. -/
def opFaultClear : BitVec 10 := 0o405
/-- `CCW_ADDR_MASK` (30_encoding.md R104). -/
def ccwAddrMask : Word := 0x003FFF00
/-- `ROLLOVER` = `GT`. -/
def rollover : Rollover := .gt
/-- `IMAGE_SWAP` = `HALVES`. -/
def imageSwap : ImageSwap := .halves
/-- `HOST_NATIVE_ORDER` = little-endian. -/
def hostNativeOrder : ByteOrder := .littleEndian
/-- `LABEL_MAGIC` = 0o11420440514 (30_encoding.md R116). -/
def labelMagic : Word := 0x4C42414C
/-- `DEST_FAULT_ABORTS` = true. -/
def destFaultAborts : Bool := true
/-- `LINE_KBD` = 0o260. -/
def lineKbd : Nat := 0o260
/-- `LINE_MOUSE` = 0o264. -/
def lineMouse : Nat := 0o264
/-- `GATE_IOB_INTS` = false. -/
def gateIobInts : Bool := false
/-- `NET_LO` = 0o140. -/
def netLo : Offset := 0o140
/-- `NET_HI` = 0o152. -/
def netHi : Offset := 0o152
/-- `KS_CTRL_BITS`. -/
def ksCtrlBits : Half := 0x0C00
/-- `KS_META_BITS`. -/
def ksMetaBits : Half := 0x3000
/-- `PACK_MODS_ON_FKEYS` = true. -/
def packModsOnFkeys : Bool := true
/-- `MOUSE_SCALE` = 5/3: numerator and denominator (43_input_events.md R251). -/
def mouseScale : Nat × Nat := (5, 3)
/-- `BUTTON_MAP`: head, middle, tail from bits 0, 1, 2 (43_input_events.md R253). -/
def buttonMap : ButtonMap := { head := 0, middle := 1, tail := 2 }
/-- `MOUSE_Y_CLEARS_READY` = true. -/
def mouseYClearsReady : Bool := true
/-- `TV_INT_BIT`. -/
def tvIntBit : Nat := 4
/-- `TICK_RATE`, nominal ticks per second; no rule depends on it (44_timing.md R276). -/
def tickRate : Nat := 60

/-- The I/O board offsets of 30_encoding.md R98. -/
def offKbdLo : Offset := 0o100
def offKbdHi : Offset := 0o102
def offMouseY : Offset := 0o104
def offMouseX : Offset := 0o106
def offBeep : Offset := 0o110
def offKbdCsr : Offset := 0o112
def offUsecLo : Offset := 0o120
def offUsecHi : Offset := 0o122
def offClk60 : Offset := 0o124

/-- The OPEN front-end parameters. -/
opaque frontEnd : FrontEnd KeyCode
/-- `SYNTH_LABEL`, OPEN: 256 host-order words (41_disk_commands.md R167). -/
opaque synthLabel : Fin 256 → Word
/-- `LINE_DISK`, an OPEN symbol (60_exceptions.md R310). -/
opaque lineDisk : Nat
/-- `LINE_TV`, an OPEN symbol (60_exceptions.md R310). -/
opaque lineTv : Nat

/-- The launch memory's value of a word nothing has written (20_memory.md R62); log 5. -/
opaque launchWord : Nat → Word
/-- Free: whether MEM answers a MemRead with a fault (20_memory.md R62); log 7. -/
opaque freeMemReadFault : Nat → Bool
/-- Free: whether MEM answers a MemWrite with a fault (20_memory.md R63); log 7. -/
opaque freeMemWriteFault : Nat → Bool
/-- Free: whether MEDIA answers with an I/O error (20_memory.md R66); log 7. -/
opaque freeMediaFail : Nat → Bool
/-- Free: what NET answers to a NetRead (42_iob_registers.md R213); log 7. -/
opaque freeNetAnswer : Nat → Half
/-- Free: how far the wall clock has moved since the last Now() (44_timing.md R270); log 7, log 8. -/
opaque freeClockAdvance : Nat → Nat

end Config

end Sys2Proof
end

