-- ==== Sys2Proof/Syntax.lean ====
section
/-! DEFINITION. The transactions of the block as syntax: one constructor of `Instr` for each mnemonic
of spec/opcode_table.json, with the operands of 30_encoding.md R94; the raw transactions a decoder
reads; and the assembler lines of R120. -/

namespace Sys2Proof

/-- ATTACH's operand: the image file's bytes, or `Unreadable` (30_encoding.md R94). -/
inductive ImageFile where
  | unreadable
  | bytes (content : List Byte)
  deriving DecidableEq, Repr

/-- The bits of a command word outside its dispatch key: `ATTN_INT_EN` (10), `DONE_INT_EN` (11) and
the stored bits 31:12 (30_encoding.md R100). -/
structure CommandFlags where
  attnIntEn : Bool
  doneIntEn : Bool
  upper     : BitVec 20
  deriving DecidableEq, Repr

/-- The instructions. The `dskCmd…` constructors are the command words that `start` dispatches on
(30_encoding.md R101); all the others are transactions named by a selector (R90). -/
inductive Instr where
  | dskRdStatus
  | dskRdMa
  | dskRdDa
  | dskRdEcc
  | dskRdStatus2
  | dskRdClp
  | dskRdDa2
  | dskRdZero
  | dskWrNop (index : BitVec 2) (v : Word)
  | dskWrCmd (v : Word)
  | dskWrClp (v : Word)
  | dskWrDa (v : Word)
  | dskWrStart (v : Word)
  | iobRdKbdLo
  | iobWrKbdLo (v : Half)
  | iobRdKbdHi
  | iobWrKbdHi (v : Half)
  | iobRdMouseY
  | iobWrMouseY (v : Half)
  | iobRdMouseX
  | iobWrMouseX (v : Half)
  | iobRdBeep
  | iobWrBeep (v : Half)
  | iobRdKbdCsr
  | iobWrKbdCsr (v : Half)
  | iobRdUsecLo
  | iobWrUsecLo (v : Half)
  | iobRdUsecHi
  | iobWrUsecHi (v : Half)
  | iobRdClk60
  | iobWrClk60 (v : Half)
  | iobRdNet (off : Offset)
  | iobWrNet (off : Offset) (v : Half)
  | iobRdUnmapped (off : Offset)
  | iobWrUnmapped (off : Offset) (v : Half)
  | tvRdCsr
  | tvWrCsr (v : Word)
  | evReset
  | evAttach (file : ImageFile)
  | evKey (code : KeyCode) (extra : Nat)
  | evMouse (x y : Nat) (dx dy : Int) (buttons : Nat)
  | evTick
  | evDeliver
  | dskCmdRead (flags : CommandFlags)
  | dskCmdReadCompare (flags : CommandFlags)
  | dskCmdWrite (flags : CommandFlags)
  | dskCmdRecalibrate (flags : CommandFlags)
  | dskCmdFaultClear (flags : CommandFlags)
  | dskCmdUnknown (key : BitVec 10) (flags : CommandFlags)
  deriving DecidableEq, Repr

/-- The operands that stand beside a selector (30_encoding.md R94). -/
inductive Operands where
  | absent
  | word32 (v : Word)
  | word16 (v : Half)
  | image (file : ImageFile)
  | key (code : KeyCode) (extra : Nat)
  | mouse (x y : Nat) (dx dy : Int) (buttons : Nat)
  deriving DecidableEq, Repr

/-- "A transaction is the pair of a selector and its operands" (30_encoding.md R90). -/
structure Transaction where
  selector : Half
  operands : Operands
  deriving DecidableEq, Repr

/-- What a decoder reads: a transaction, or the command register's word when `start` dispatches. -/
inductive Encoded where
  | transaction (t : Transaction)
  | command (w : Word)
  deriving DecidableEq, Repr

/-- The agents of 00_scope.md R2. -/
inductive Agent where
  | host
  | frontend
  | timer
  | mainLoop
  deriving DecidableEq, Repr

/-- Which agent performs an instruction (00_scope.md R2, 30_encoding.md R91). -/
def agentOf : Instr → Agent
  | .evKey _ _ => .frontend
  | .evMouse _ _ _ _ _ => .frontend
  | .evTick => .timer
  | .evDeliver => .mainLoop
  | .dskRdStatus | .dskRdMa | .dskRdDa | .dskRdEcc | .dskRdStatus2 | .dskRdClp | .dskRdDa2
  | .dskRdZero | .dskWrNop _ _ | .dskWrCmd _ | .dskWrClp _ | .dskWrDa _ | .dskWrStart _
  | .iobRdKbdLo | .iobWrKbdLo _ | .iobRdKbdHi | .iobWrKbdHi _ | .iobRdMouseY | .iobWrMouseY _
  | .iobRdMouseX | .iobWrMouseX _ | .iobRdBeep | .iobWrBeep _ | .iobRdKbdCsr | .iobWrKbdCsr _
  | .iobRdUsecLo | .iobWrUsecLo _ | .iobRdUsecHi | .iobWrUsecHi _ | .iobRdClk60 | .iobWrClk60 _
  | .iobRdNet _ | .iobWrNet _ _ | .iobRdUnmapped _ | .iobWrUnmapped _ _ | .tvRdCsr | .tvWrCsr _
  | .evReset | .evAttach _ | .dskCmdRead _ | .dskCmdReadCompare _ | .dskCmdWrite _
  | .dskCmdRecalibrate _ | .dskCmdFaultClear _ | .dskCmdUnknown _ _ => .host

/-- The names of `rd disk.<name>` (30_encoding.md R120). -/
inductive DiskReadName where
  | status
  | ma
  | da
  | ecc
  | status2
  | clp
  | da2
  | zero
  deriving DecidableEq, Repr

/-- The names of `wr disk.<name>, v` (30_encoding.md R120). -/
inductive DiskWriteName where
  | cmd
  | clp
  | da
  | start
  deriving DecidableEq, Repr

/-- The names of `rd iob.<name>` and `wr iob.<name>, v` (30_encoding.md R120). -/
inductive IobName where
  | kbdLo
  | kbdHi
  | mouseY
  | mouseX
  | beep
  | kbdCsr
  | usecLo
  | usecHi
  | clk60
  deriving DecidableEq, Repr

/-- A line of the assembler of 30_encoding.md R120. -/
inductive AsmLine where
  | rdDisk (name : DiskReadName)
  | wrDisk (name : DiskWriteName) (v : Word)
  | wrDiskAt (index : BitVec 2) (v : Word)
  | rdIob (name : IobName)
  | wrIob (name : IobName) (v : Half)
  | rdIobAt (off : Offset)
  | wrIobAt (off : Offset) (v : Half)
  | rdTvCsr
  | wrTvCsr (v : Word)
  | evReset
  | evAttach (file : ImageFile)
  | evKey (code : KeyCode) (extra : Nat)
  | evMouse (x y : Nat) (dx dy : Int) (buttons : Nat)
  | evTick
  | evDeliver
  deriving DecidableEq, Repr

end Sys2Proof
end

