-- ==== Sys2Proof/WellFormed.lean ====
section
/-! DEFINITION. Which instructions are transactions of the block: an operand that selects a row must
lie in that row (30_encoding.md R98, R101). -/

namespace Sys2Proof

/-- The named single offsets of 30_encoding.md R98. -/
def namedOffsets : List Offset :=
  [Config.offKbdLo, Config.offKbdHi, Config.offMouseY, Config.offMouseX, Config.offBeep,
   Config.offKbdCsr, Config.offUsecLo, Config.offUsecHi, Config.offClk60]

/-- `NET_LO ≤ off ≤ NET_HI`, odd offsets included (42_iob_registers.md R213). -/
def isNetOffset (off : Offset) : Bool :=
  decide (Config.netLo.toNat ≤ off.toNat) && decide (off.toNat ≤ Config.netHi.toNat)

/-- "any other" offset of 30_encoding.md R98, odd offsets included (R209). -/
def isUnmappedOffset (off : Offset) : Bool :=
  !namedOffsets.contains off && !isNetOffset off

/-- The dispatch keys of 30_encoding.md R101 that have a name. -/
def namedKeys : List (BitVec 10) :=
  [Config.opRead, Config.opReadCompare, Config.opWrite, Config.opRecalibrate, Config.opFaultClear]

/-- The instruction is one the encoding tables admit. -/
def WellFormed : Instr → Bool
  | .iobRdNet off => isNetOffset off
  | .iobWrNet off _ => isNetOffset off
  | .iobRdUnmapped off => isUnmappedOffset off
  | .iobWrUnmapped off _ => isUnmappedOffset off
  | .dskCmdUnknown key _ => !namedKeys.contains key
  | .dskRdStatus | .dskRdMa | .dskRdDa | .dskRdEcc | .dskRdStatus2 | .dskRdClp | .dskRdDa2
  | .dskRdZero | .dskWrNop _ _ | .dskWrCmd _ | .dskWrClp _ | .dskWrDa _ | .dskWrStart _
  | .iobRdKbdLo | .iobWrKbdLo _ | .iobRdKbdHi | .iobWrKbdHi _ | .iobRdMouseY | .iobWrMouseY _
  | .iobRdMouseX | .iobWrMouseX _ | .iobRdBeep | .iobWrBeep _ | .iobRdKbdCsr | .iobWrKbdCsr _
  | .iobRdUsecLo | .iobWrUsecLo _ | .iobRdUsecHi | .iobWrUsecHi _ | .iobRdClk60 | .iobWrClk60 _
  | .tvRdCsr | .tvWrCsr _ | .evReset | .evAttach _ | .evKey _ _ | .evMouse _ _ _ _ _ | .evTick
  | .evDeliver | .dskCmdRead _ | .dskCmdReadCompare _ | .dskCmdWrite _ | .dskCmdRecalibrate _
  | .dskCmdFaultClear _ => true

end Sys2Proof
end

