-- ==== Sys2Proof/Decode.lean ====
section
/-! DEFINITION. The decoder of 30_encoding.md R90 to R101, total on every selector with every operands
and on every command word, refusing by name (R92); the encoder written from the same tables; the
words of spec/opcode_table.json (`decodeTableWord`); the assembler lines of R120 and R121. -/

namespace Sys2Proof

/-- Why a decoder refuses an input (30_encoding.md R92); `operandsMismatch` is the model's own: the
operands are not those R94 gives the transaction (log 2). -/
inductive DecodeError where
  | reservedBits
  | diskOffset
  | tvOffset
  | eventDirection
  | eventId
  | operandsMismatch
  deriving DecidableEq, Repr

/-- `SPACE`, bits 15:14 (30_encoding.md R90). -/
def selSpace (sel : Half) : BitVec 2 := sel.extractLsb' 14 2
/-- `DIR`, bit 13: 1 is a write. -/
def selDir (sel : Half) : Bool := sel.getLsbD 13
/-- `RSV`, bits 12:9. -/
def selRsv (sel : Half) : BitVec 4 := sel.extractLsb' 9 4
/-- `OFF`, bits 8:0. -/
def selOff (sel : Half) : Offset := sel.extractLsb' 0 9

/-- A selector from its fields (30_encoding.md R90), `RSV` = 0. -/
def selectorOf (space : BitVec 2) (dir : Bool) (off : Offset) : Half :=
  space ++ BitVec.ofBool dir ++ (0 : BitVec 4) ++ off

/-- A transaction without operands. -/
def takeAbsent (i : Instr) : Operands → Except DecodeError Instr
  | .absent => .ok i
  | _ => .error .operandsMismatch

/-- A transaction with a 32-bit value. -/
def takeWord32 (f : Word → Instr) : Operands → Except DecodeError Instr
  | .word32 v => .ok (f v)
  | _ => .error .operandsMismatch

/-- A transaction with a 16-bit value. -/
def takeWord16 (f : Half → Instr) : Operands → Except DecodeError Instr
  | .word16 v => .ok (f v)
  | _ => .error .operandsMismatch

/-- ATTACH's operand. -/
def takeImage : Operands → Except DecodeError Instr
  | .image file => .ok (.evAttach file)
  | _ => .error .operandsMismatch

/-- KEY's operands. -/
def takeKey : Operands → Except DecodeError Instr
  | .key code extra => .ok (.evKey code extra)
  | _ => .error .operandsMismatch

/-- MOUSE's operands. -/
def takeMouse : Operands → Except DecodeError Instr
  | .mouse x y dx dy buttons => .ok (.evMouse x y dx dy buttons)
  | _ => .error .operandsMismatch

/-- The read of a disk register index (30_encoding.md R95). -/
def diskReadOf (index : BitVec 3) : Instr :=
  if index = 0 then .dskRdStatus
  else if index = 1 then .dskRdMa
  else if index = 2 then .dskRdDa
  else if index = 3 then .dskRdEcc
  else if index = 4 then .dskRdStatus2
  else if index = 5 then .dskRdClp
  else if index = 6 then .dskRdDa2
  else .dskRdZero

/-- The write of a disk register index (30_encoding.md R96). -/
def diskWriteOf (index : BitVec 3) (v : Word) : Instr :=
  if index = 4 then .dskWrCmd v
  else if index = 5 then .dskWrClp v
  else if index = 6 then .dskWrDa v
  else if index = 7 then .dskWrStart v
  else .dskWrNop (index.extractLsb' 0 2) v

/-- The read of an I/O board offset, by exact match on all 9 bits (30_encoding.md R98, R99). -/
def iobReadOf (off : Offset) : Instr :=
  if off = Config.offKbdLo then .iobRdKbdLo
  else if off = Config.offKbdHi then .iobRdKbdHi
  else if off = Config.offMouseY then .iobRdMouseY
  else if off = Config.offMouseX then .iobRdMouseX
  else if off = Config.offBeep then .iobRdBeep
  else if off = Config.offKbdCsr then .iobRdKbdCsr
  else if off = Config.offUsecLo then .iobRdUsecLo
  else if off = Config.offUsecHi then .iobRdUsecHi
  else if off = Config.offClk60 then .iobRdClk60
  else if isNetOffset off then .iobRdNet off
  else .iobRdUnmapped off

/-- The write of an I/O board offset (30_encoding.md R98, R99). -/
def iobWriteOf (off : Offset) (v : Half) : Instr :=
  if off = Config.offKbdLo then .iobWrKbdLo v
  else if off = Config.offKbdHi then .iobWrKbdHi v
  else if off = Config.offMouseY then .iobWrMouseY v
  else if off = Config.offMouseX then .iobWrMouseX v
  else if off = Config.offBeep then .iobWrBeep v
  else if off = Config.offKbdCsr then .iobWrKbdCsr v
  else if off = Config.offUsecLo then .iobWrUsecLo v
  else if off = Config.offUsecHi then .iobWrUsecHi v
  else if off = Config.offClk60 then .iobWrClk60 v
  else if isNetOffset off then .iobWrNet off v
  else .iobWrUnmapped off v

/-- The event of an id (30_encoding.md R91). -/
def decodeEvent (id : Offset) (ops : Operands) : Except DecodeError Instr :=
  if id = 0 then takeAbsent .evReset ops
  else if id = 1 then takeImage ops
  else if id = 2 then takeKey ops
  else if id = 3 then takeMouse ops
  else if id = 4 then takeAbsent .evTick ops
  else if id = 5 then takeAbsent .evDeliver ops
  else .error .eventId

/-- The transaction of a selector and its operands (30_encoding.md R90 to R99). -/
def decodeTransaction (t : Transaction) : Except DecodeError Instr :=
  let space := selSpace t.selector
  let off := selOff t.selector
  if selRsv t.selector ≠ 0 then .error .reservedBits
  else if space = 0 then
    if off.extractLsb' 3 6 ≠ 0 then .error .diskOffset
    else if selDir t.selector then takeWord32 (diskWriteOf (off.extractLsb' 0 3)) t.operands
    else takeAbsent (diskReadOf (off.extractLsb' 0 3)) t.operands
  else if space = 1 then
    if selDir t.selector then takeWord16 (iobWriteOf off) t.operands
    else takeAbsent (iobReadOf off) t.operands
  else if space = 2 then
    if off ≠ 0 then .error .tvOffset
    else if selDir t.selector then takeWord32 .tvWrCsr t.operands
    else takeAbsent .tvRdCsr t.operands
  else if selDir t.selector then .error .eventDirection
  else decodeEvent off t.operands

/-- The dispatch key `command & CMD_OPCODE_MASK` = `command[9:0]` (30_encoding.md R101). -/
def commandKey (w : Word) : BitVec 10 := (w &&& Config.cmdOpcodeMask).setWidth 10

/-- The bits of a command word outside the key (30_encoding.md R100). -/
def commandFlags (w : Word) : CommandFlags :=
  { attnIntEn := w.getLsbD 10, doneIntEn := w.getLsbD 11, upper := w.extractLsb' 12 20 }

/-- A command word from its key and its other bits (30_encoding.md R100). -/
def commandWord (key : BitVec 10) (f : CommandFlags) : Word :=
  f.upper ++ BitVec.ofBool f.doneIntEn ++ BitVec.ofBool f.attnIntEn ++ key

/-- The command of a command word (30_encoding.md R101). -/
def decodeCommand (w : Word) : Instr :=
  if commandKey w = Config.opRead then .dskCmdRead (commandFlags w)
  else if commandKey w = Config.opReadCompare then .dskCmdReadCompare (commandFlags w)
  else if commandKey w = Config.opWrite then .dskCmdWrite (commandFlags w)
  else if commandKey w = Config.opRecalibrate then .dskCmdRecalibrate (commandFlags w)
  else if commandKey w = Config.opFaultClear then .dskCmdFaultClear (commandFlags w)
  else .dskCmdUnknown (commandKey w) (commandFlags w)

/-- The decoder. -/
def decode : Encoded → Except DecodeError Instr
  | .transaction t => decodeTransaction t
  | .command w => .ok (decodeCommand w)

/-- A disk transaction's encoding. -/
def encDisk (dir : Bool) (index : BitVec 3) (ops : Operands) : Encoded :=
  .transaction { selector := selectorOf 0 dir ((0 : BitVec 6) ++ index), operands := ops }

/-- An I/O board read's encoding. -/
def encIobRd (off : Offset) : Encoded :=
  .transaction { selector := selectorOf 1 false off, operands := .absent }

/-- An I/O board write's encoding. -/
def encIobWr (off : Offset) (v : Half) : Encoded :=
  .transaction { selector := selectorOf 1 true off, operands := .word16 v }

/-- An event's encoding. -/
def encEvent (id : Offset) (ops : Operands) : Encoded :=
  .transaction { selector := selectorOf 3 false id, operands := ops }

/-- The words of an instruction, from 30_encoding.md R91, R95 to R98 and R100. -/
def encode : Instr → Encoded
  | .dskRdStatus => encDisk false 0 .absent
  | .dskRdMa => encDisk false 1 .absent
  | .dskRdDa => encDisk false 2 .absent
  | .dskRdEcc => encDisk false 3 .absent
  | .dskRdStatus2 => encDisk false 4 .absent
  | .dskRdClp => encDisk false 5 .absent
  | .dskRdDa2 => encDisk false 6 .absent
  | .dskRdZero => encDisk false 7 .absent
  | .dskWrNop index v => encDisk true ((0 : BitVec 1) ++ index) (.word32 v)
  | .dskWrCmd v => encDisk true 4 (.word32 v)
  | .dskWrClp v => encDisk true 5 (.word32 v)
  | .dskWrDa v => encDisk true 6 (.word32 v)
  | .dskWrStart v => encDisk true 7 (.word32 v)
  | .iobRdKbdLo => encIobRd Config.offKbdLo
  | .iobWrKbdLo v => encIobWr Config.offKbdLo v
  | .iobRdKbdHi => encIobRd Config.offKbdHi
  | .iobWrKbdHi v => encIobWr Config.offKbdHi v
  | .iobRdMouseY => encIobRd Config.offMouseY
  | .iobWrMouseY v => encIobWr Config.offMouseY v
  | .iobRdMouseX => encIobRd Config.offMouseX
  | .iobWrMouseX v => encIobWr Config.offMouseX v
  | .iobRdBeep => encIobRd Config.offBeep
  | .iobWrBeep v => encIobWr Config.offBeep v
  | .iobRdKbdCsr => encIobRd Config.offKbdCsr
  | .iobWrKbdCsr v => encIobWr Config.offKbdCsr v
  | .iobRdUsecLo => encIobRd Config.offUsecLo
  | .iobWrUsecLo v => encIobWr Config.offUsecLo v
  | .iobRdUsecHi => encIobRd Config.offUsecHi
  | .iobWrUsecHi v => encIobWr Config.offUsecHi v
  | .iobRdClk60 => encIobRd Config.offClk60
  | .iobWrClk60 v => encIobWr Config.offClk60 v
  | .iobRdNet off => encIobRd off
  | .iobWrNet off v => encIobWr off v
  | .iobRdUnmapped off => encIobRd off
  | .iobWrUnmapped off v => encIobWr off v
  | .tvRdCsr => .transaction { selector := selectorOf 2 false 0, operands := .absent }
  | .tvWrCsr v => .transaction { selector := selectorOf 2 true 0, operands := .word32 v }
  | .evReset => encEvent 0 .absent
  | .evAttach file => encEvent 1 (.image file)
  | .evKey code extra => encEvent 2 (.key code extra)
  | .evMouse x y dx dy buttons => encEvent 3 (.mouse x y dx dy buttons)
  | .evTick => encEvent 4 .absent
  | .evDeliver => encEvent 5 .absent
  | .dskCmdRead f => .command (commandWord Config.opRead f)
  | .dskCmdReadCompare f => .command (commandWord Config.opReadCompare f)
  | .dskCmdWrite f => .command (commandWord Config.opWrite f)
  | .dskCmdRecalibrate f => .command (commandWord Config.opRecalibrate f)
  | .dskCmdFaultClear f => .command (commandWord Config.opFaultClear f)
  | .dskCmdUnknown key f => .command (commandWord key f)

/-- The operands of zeros that fit a selector (30_encoding.md R94): what stands above the bits the
opcode table gives a row. KEY's code, of the OPEN type `KEYCODE`, is that type's default (log 10). -/
def zeroOperands (sel : Half) : Operands :=
  if selSpace sel = 3 then
    if selOff sel = 1 then .image (.bytes [])
    else if selOff sel = 2 then .key default 0
    else if selOff sel = 3 then .mouse 0 0 0 0 0
    else .absent
  else if selDir sel then (if selSpace sel = 1 then .word16 0 else .word32 0)
  else .absent

/-- The transaction of a selector with operands of zeros. -/
def zeroTransaction (sel : Half) : Transaction :=
  { selector := sel, operands := zeroOperands sel }

/-- The selector names a transaction of the block (30_encoding.md R92). -/
def legalSelector (sel : Half) : Bool :=
  match decodeTransaction (zeroTransaction sel) with
  | .ok _ => true
  | .error _ => false

/-- Which of the two formats of spec/opcode_table.json a table word is in (log 3): more than 16 bits
is a command word; otherwise a legal selector is a selector, and a word that is no legal selector but
matches a CMDWORD row with a key of its own, within the 12 bits the table gives those rows, is a
command word; anything else stands as the selector it is, which the decoder refuses. -/
def tableWord (nbits w : Nat) : Encoded :=
  if 16 < nbits then .command (BitVec.ofNat 32 w)
  else if legalSelector (BitVec.ofNat 16 w) then .transaction (zeroTransaction (BitVec.ofNat 16 w))
  else if decide (w < 4096) && namedKeys.contains (BitVec.ofNat 10 w) then .command (BitVec.ofNat 32 w)
  else .transaction (zeroTransaction (BitVec.ofNat 16 w))

/-- The instruction the decoder reads from a word of spec/opcode_table.json. -/
def decodeTableWord (nbits w : Nat) : Option Instr :=
  match decode (tableWord nbits w) with
  | .ok i => some i
  | .error _ => none

/-- The index of `rd disk.<name>` (30_encoding.md R95). -/
def DiskReadName.index : DiskReadName → BitVec 3
  | .status => 0
  | .ma => 1
  | .da => 2
  | .ecc => 3
  | .status2 => 4
  | .clp => 5
  | .da2 => 6
  | .zero => 7

/-- The index of `wr disk.<name>, v` (30_encoding.md R96). -/
def DiskWriteName.index : DiskWriteName → BitVec 3
  | .cmd => 4
  | .clp => 5
  | .da => 6
  | .start => 7

/-- The offset of `rd iob.<name>` (30_encoding.md R98). -/
def IobName.offset : IobName → Offset
  | .kbdLo => Config.offKbdLo
  | .kbdHi => Config.offKbdHi
  | .mouseY => Config.offMouseY
  | .mouseX => Config.offMouseX
  | .beep => Config.offBeep
  | .kbdCsr => Config.offKbdCsr
  | .usecLo => Config.offUsecLo
  | .usecHi => Config.offUsecHi
  | .clk60 => Config.offClk60

/-- "Each line assembles to its selector of rules R95 to R98 and R91 plus its operands" (30_encoding.md R120). -/
def assemble : AsmLine → Transaction
  | .rdDisk n => { selector := selectorOf 0 false ((0 : BitVec 6) ++ n.index), operands := .absent }
  | .wrDisk n v => { selector := selectorOf 0 true ((0 : BitVec 6) ++ n.index), operands := .word32 v }
  | .wrDiskAt i v => { selector := selectorOf 0 true ((0 : BitVec 7) ++ i), operands := .word32 v }
  | .rdIob n => { selector := selectorOf 1 false n.offset, operands := .absent }
  | .wrIob n v => { selector := selectorOf 1 true n.offset, operands := .word16 v }
  | .rdIobAt off => { selector := selectorOf 1 false off, operands := .absent }
  | .wrIobAt off v => { selector := selectorOf 1 true off, operands := .word16 v }
  | .rdTvCsr => { selector := selectorOf 2 false 0, operands := .absent }
  | .wrTvCsr v => { selector := selectorOf 2 true 0, operands := .word32 v }
  | .evReset => { selector := selectorOf 3 false 0, operands := .absent }
  | .evAttach f => { selector := selectorOf 3 false 1, operands := .image f }
  | .evKey c e => { selector := selectorOf 3 false 2, operands := .key c e }
  | .evMouse x y dx dy b => { selector := selectorOf 3 false 3, operands := .mouse x y dx dy b }
  | .evTick => { selector := selectorOf 3 false 4, operands := .absent }
  | .evDeliver => { selector := selectorOf 3 false 5, operands := .absent }

/-- The pseudo-instruction `disk.read <da>, <clp>, <ie>` (30_encoding.md R121). -/
def pseudoDiskRead (da clp : Word) (ie : Bool) : List AsmLine :=
  [.wrDisk .da da, .wrDisk .clp clp, .wrDisk .cmd (if ie then 0o4000 else 0), .wrDisk .start 0]

/-- The pseudo-instruction `usec.read` (30_encoding.md R121). -/
def pseudoUsecRead : List AsmLine := [.rdIob .usecLo, .rdIob .usecHi]

/-- The pseudo-instruction `mouse.read` (30_encoding.md R121). -/
def pseudoMouseRead : List AsmLine := [.rdIob .mouseY, .rdIob .mouseX]

end Sys2Proof
end

