-- ==== Sys2Proof/Machine/State.lean ====
section
/-! DEFINITION. The state: the block state of 10_state.md R21 to R39 (`disk`, `iob`, `timing`), the
event history of R43, the value the last transaction returned, the words MEM holds, and the
environment's coming inputs and answers; its value after reset (70_reset_and_hazards.md R340). -/

namespace Sys2Proof.Machine

/-- `media` (10_state.md R30). -/
inductive Media where
  | detached
  | attached (img : List Byte)
  deriving DecidableEq, Repr

/-- The disk controller's state (10_state.md R22 to R30). -/
structure DiskRegs where
  status         : Word
  command        : Word
  clp            : Word
  da             : Word
  ma             : Word
  curUnit        : BitVec 3
  curCyl         : Word
  curHead        : Word
  curBlock       : Word
  cyls           : Word
  heads          : Word
  blocksPerTrack : Word
  media          : Media
  deriving DecidableEq, Repr

/-- The I/O board's state (10_state.md R31 to R35). -/
structure IobRegs where
  keyScan   : Half
  kbdCsr    : Half
  mouseX    : BitVec 12
  mouseY    : BitVec 12
  mouseRawX : BitVec 2
  mouseRawY : BitVec 2
  btnHead   : Bool
  btnMiddle : Bool
  btnTail   : Bool
  deriving DecidableEq, Repr

/-- The timing subsystem's and the display CSR's state (10_state.md R36 to R39). -/
structure TimingRegs where
  usecLatch   : Word
  usecT0      : Option Nat
  tvCsr       : Word
  tickPending : Bool
  deriving DecidableEq, Repr

/-- The words MEM holds: word address and word, addresses rising; a word nothing has written since
launch is not listed (20_memory.md R61, R62; log 5). -/
abbrev Memory := List (Nat × Word)

/-- The service calls of 10_state.md R43, each with its arguments and the answer it got.
A `none` answer of `memRead` is MEM's fault, of `mediaRead` MEDIA's `Fail`. -/
inductive Event where
  | memRead (addr : Word) (answer : Option Word)
  | memWrite (addr v : Word) (fault : Bool)
  | post (line : Nat)
  | mediaRead (block : Nat) (answer : Option (List Word))
  | netRead (off : Offset) (answer : Half)
  | netWrite (off : Offset) (v : Half)
  | alert
  deriving DecidableEq, Repr

/-- What a transaction returns (30_encoding.md R94). -/
inductive Reply where
  | nothing
  | word32 (v : Word)
  | word16 (v : Half)
  | attach (success : Bool)
  deriving DecidableEq, Repr

/-- What reaches the block from outside (log 1): a transaction, or (log 6) a word the host CPU has
stored into its own memory since the last transaction. -/
inductive Input where
  | transaction (t : Transaction)
  | hostStore (addr v : Word)
  deriving DecidableEq, Repr

/-- The environment: the coming inputs, oldest first, and what the services will answer (log 7).
Where a list of answers is empty, the answer is an opaque value of Config applied to `draws`. -/
structure Env where
  inputs         : List Input
  memReadFaults  : List Bool
  memWriteFaults : List Bool
  mediaFails     : List Bool
  netAnswers     : List Half
  clockAdvances  : List Nat
  wallClock      : Nat
  draws          : Nat
  deriving DecidableEq, Repr

/-- The state. `history` is newest first. -/
structure State where
  disk    : DiskRegs
  iob     : IobRegs
  timing  : TimingRegs
  mem     : Memory
  history : List Event
  reply   : Reply
  env     : Env
  deriving DecidableEq, Repr

/-- The block raises no exception and has no trap (60_exceptions.md R300, R314): no instruction
raises a fault, so the type has no constructor. Safe: it claims no stop. -/
inductive Fault where
  deriving DecidableEq, Repr

/-- Why the machine has no next state. -/
inductive Refusal where
  /-- Raised by `exec` for an instruction without a meaning; no arm does. Safe. -/
  | notModelled (mnemonic : String)
  /-- Raised by `step` for an input that is no transaction of the block: "a decoder refuses it by
  name" (30_encoding.md R92). Safe: the machine stops where the block has no step. -/
  | illegalTransaction (why : DecodeError)
  deriving DecidableEq, Repr

/-- The disk controller after reset (70_reset_and_hazards.md R340). -/
def DiskRegs.reset : DiskRegs :=
  { status := 1, command := 0, clp := 0, da := 0, ma := 0, curUnit := 0, curCyl := 0, curHead := 0,
    curBlock := 0, cyls := 0, heads := 0, blocksPerTrack := 0, media := .detached }

/-- The I/O board after reset (70_reset_and_hazards.md R340). -/
def IobRegs.reset : IobRegs :=
  { keyScan := 0, kbdCsr := 0, mouseX := 0, mouseY := 0, mouseRawX := 0, mouseRawY := 0,
    btnHead := false, btnMiddle := false, btnTail := false }

/-- The timing subsystem after reset (70_reset_and_hazards.md R340). -/
def TimingRegs.reset : TimingRegs :=
  { usecLatch := 0, usecT0 := none, tvCsr := 0, tickPending := false }

/-- No input has arrived and no answer is fixed (DESIGN CHOICE, log 1, log 7, log 8). -/
def Env.reset : Env :=
  { inputs := [], memReadFaults := [], memWriteFaults := [], mediaFails := [], netAnswers := [],
    clockAdvances := [], wallClock := 0, draws := 0 }

/-- The machine right after reset (70_reset_and_hazards.md R340). -/
def State.reset : State :=
  { disk := DiskRegs.reset, iob := IobRegs.reset, timing := TimingRegs.reset, mem := [],
    history := [], reply := .nothing, env := Env.reset }

end Sys2Proof.Machine
end

