-- ==== Sys2Proof/Machine/Flags.lean ====
section
/-! DEFINITION. Every flag the block sets or clears (10_state.md R40): the ready and enable bits of
`kbd_csr`, the button latches, `tv_csr.INT` and `tick_pending`. -/

namespace Sys2Proof.Machine

/-- `kbd_csr` bits (30_encoding.md R111). -/
def csrMouseIntEn (csr : Half) : Bool := csr.getLsbD 1
def csrKbdIntEn (csr : Half) : Bool := csr.getLsbD 2
/-- The mask of `MOUSE_READY`, bit 4. -/
def mouseReadyMask : Half := 0x0010
/-- The mask of `KBD_READY`, bit 5. -/
def kbdReadyMask : Half := 0x0020
/-- The mask of the four enables, bits 3:0. -/
def enablesMask : Half := 0x000F

/-- KEY sets `KBD_READY` (43_input_events.md R241). -/
def IobRegs.setKbdReady (i : IobRegs) : IobRegs := { i with kbdCsr := i.kbdCsr ||| kbdReadyMask }

/-- The keyboard reads clear `KBD_READY` (42_iob_registers.md R200, R201). -/
def IobRegs.clearKbdReady (i : IobRegs) : IobRegs := { i with kbdCsr := i.kbdCsr &&& ~~~kbdReadyMask }

/-- MOUSE sets `MOUSE_READY` (43_input_events.md R250). -/
def IobRegs.setMouseReady (i : IobRegs) : IobRegs := { i with kbdCsr := i.kbdCsr ||| mouseReadyMask }

/-- The mouse-Y read clears the latches and, if `clearsReady` (`MOUSE_Y_CLEARS_READY`), `MOUSE_READY`
(42_iob_registers.md R202). -/
def IobRegs.acknowledgeMouse (clearsReady : Bool) (i : IobRegs) : IobRegs :=
  { i with
    btnHead := false
    btnMiddle := false
    btnTail := false
    kbdCsr := if clearsReady then i.kbdCsr &&& ~~~mouseReadyMask else i.kbdCsr }

/-- The CSR write changes the four enables only (42_iob_registers.md R212). -/
def IobRegs.mergeEnables (v : Half) (i : IobRegs) : IobRegs :=
  { i with kbdCsr := (i.kbdCsr &&& ~~~enablesMask) ||| (v &&& enablesMask) }

/-- MOUSE latches the buttons that are down, by `BUTTON_MAP`, and clears none (43_input_events.md R253). -/
def IobRegs.latchButtons (buttons : Nat) (i : IobRegs) : IobRegs :=
  { i with
    btnHead := i.btnHead || buttons.testBit Config.buttonMap.head
    btnMiddle := i.btnMiddle || buttons.testBit Config.buttonMap.middle
    btnTail := i.btnTail || buttons.testBit Config.buttonMap.tail }

/-- A keyboard or mouse event posts: always unless `gate` (`GATE_IOB_INTS`), then if its enable is set
(43_input_events.md R241, R250). -/
def postsWhen (gate enable : Bool) : Bool := !gate || enable

/-- The mask of `tv_csr.INT` (30_encoding.md R115). -/
def tvIntMask : Word := (1 : Word) <<< Config.tvIntBit

/-- DELIVER clears `tick_pending` and sets `tv_csr.INT` (44_timing.md R273). -/
def TimingRegs.deliver (t : TimingRegs) : TimingRegs :=
  { t with tickPending := false, tvCsr := t.tvCsr ||| tvIntMask }

/-- The TV-CSR write stores `v` with `INT` clear (44_timing.md R275). -/
def TimingRegs.writeTvCsr (v : Word) (t : TimingRegs) : TimingRegs := { t with tvCsr := v &&& ~~~tvIntMask }

end Sys2Proof.Machine
end

