-- ==== Sys2Proof/Machine/Operands.lean ====
section
/-! DEFINITION. The layouts of register words and image words as functions of their bits
(30_encoding.md R100 to R116, 20_memory.md R64 and R65, 43_input_events.md R240 to R251). -/

namespace Sys2Proof.Machine

/-- `da` fields (30_encoding.md R102). -/
def daUnit (da : Word) : BitVec 3 := da.extractLsb' 28 3
def daCyl (da : Word) : BitVec 12 := da.extractLsb' 16 12
def daHead (da : Word) : BitVec 8 := da.extractLsb' 8 8
def daBlock (da : Word) : BitVec 8 := da.extractLsb' 0 8

/-- `da_of(u, c, h, b)` (30_encoding.md R103), bit 31 = 0. -/
def daOf (u : BitVec 3) (c : BitVec 12) (h b : BitVec 8) : Word :=
  (0 : BitVec 1) ++ u ++ c ++ h ++ b

/-- `ADDR` of a CCW, in place (30_encoding.md R104, 20_memory.md R68). -/
def ccwBase (ccw : Word) : Word := ccw &&& Config.ccwAddrMask

/-- `CONT` of a CCW (30_encoding.md R104). -/
def ccwCont (ccw : Word) : Bool := ccw.getLsbD 0

/-- `ccw_of(base, more)` (30_encoding.md R105). -/
def ccwOf (base : Word) (more : Bool) : Word := (base &&& Config.ccwAddrMask) ||| (if more then 1 else 0)

/-- `command` fields (30_encoding.md R100); only the key `command[9:0]` and `DONE_INT_EN` act. -/
def cmdOp (command : Word) : BitVec 3 := command.extractLsb' 0 3
def cmdToMemory (command : Word) : Bool := command.getLsbD 3
def cmdServoOffset (command : Word) : BitVec 2 := command.extractLsb' 4 2
def cmdStrobe (command : Word) : BitVec 2 := command.extractLsb' 6 2
def cmdFaultClear (command : Word) : Bool := command.getLsbD 8
def cmdRecalibrate (command : Word) : Bool := command.getLsbD 9
def cmdAttnIntEn (command : Word) : Bool := command.getLsbD 10
def cmdDoneIntEn (command : Word) : Bool := command.getLsbD 11

/-- Byte `o` of an image file; past the end it is not read by any rule (log 21). -/
def imageByte (img : List Byte) (o : Nat) : Byte := img.getD o 0

/-- `stored(o)` in either native order (20_memory.md R65). -/
def storedWord (order : ByteOrder) (img : List Byte) (o : Nat) : Word :=
  match order with
  | .littleEndian => imageByte img (o + 3) ++ imageByte img (o + 2) ++ imageByte img (o + 1) ++ imageByte img o
  | .bigEndian => imageByte img o ++ imageByte img (o + 1) ++ imageByte img (o + 2) ++ imageByte img (o + 3)

/-- `swap(n)` in either reading of 90_conflicts.md C1. -/
def swapWord (how : ImageSwap) (n : Word) : Word :=
  match how with
  | .halves => n.extractLsb' 0 16 ++ n.extractLsb' 16 16
  | .bytesInHalves =>
    n.extractLsb' 16 8 ++ n.extractLsb' 24 8 ++ n.extractLsb' 0 8 ++ n.extractLsb' 8 8

/-- `word(o)`: the host-order word at byte offset `o` of an image (20_memory.md R65). -/
def imageWord (img : List Byte) (o : Nat) : Word :=
  swapWord Config.imageSwap (storedWord Config.hostNativeOrder img o)

/-- The bytes of image block `k` are all inside the file (20_memory.md R66). -/
def blockInImage (img : List Byte) (k : Nat) : Bool :=
  decide (Config.blockBytes * k + Config.blockBytes ≤ img.length)

/-- The 256 host-order words of image block `k` (20_memory.md R64, R66). -/
def imageBlock (img : List Byte) (k : Nat) : List Word :=
  (List.range Config.blockWords).map fun i => imageWord img (Config.blockBytes * k + 4 * i)

/-- The words of `SYNTH_LABEL` (41_disk_commands.md R167). -/
def synthLabelWords : List Word := List.ofFn Config.synthLabel

/-- The file is at least one block long and its decoded word 0 is `LABEL_MAGIC` (41_disk_commands.md R170). -/
def labelValid (img : List Byte) : Bool :=
  decide (Config.blockBytes ≤ img.length) && imageWord img 0 == Config.labelMagic

/-- The finished scan-code table: the base table with the overrides applied in list order, the last
one that names an entry winning (43_input_events.md R240). -/
def scanCode {κ : Type} [DecidableEq κ] (fe : FrontEnd κ) (code : κ) (shifted : Bool) : BitVec 8 :=
  fe.scanPatches.foldl
    (fun v p => if p.1 = code ∧ p.2.1 = shifted then p.2.2 else v) (fe.scanBase code shifted)

/-- A modifier mask has a bit in common with `extra` (43_input_events.md R241). -/
def hasModifier (extra mask : Nat) : Bool := decide (extra &&& mask ≠ 0)

/-- The control and meta bits that KEY packs (43_input_events.md R245). -/
def modifierBits {κ : Type} (fe : FrontEnd κ) (extra : Nat) : Half :=
  (if hasModifier extra fe.extraCtrl then Config.ksCtrlBits else 0) |||
  (if hasModifier extra fe.extraMeta then Config.ksMetaBits else 0)

/-- The word KEY puts into `key_scan` for a key that is no pure modifier (43_input_events.md R241);
`pack` is `PACK_MODS_ON_FKEYS`. -/
def keyScanWord {κ : Type} [DecidableEq κ] (fe : FrontEnd κ) (pack : Bool) (code : κ) (extra : Nat) : Half :=
  match fe.fkey code with
  | some name => fe.fkeyCode name ||| (if pack then modifierBits fe extra else 0)
  | none => (scanCode fe code (hasModifier extra fe.extraShift)).setWidth 16 ||| modifierBits fe extra

/-- `((v * 5) div 3) mod 4096`, the factor being `MOUSE_SCALE` (43_input_events.md R251). -/
def scaleMouse (v : Nat) : BitVec 12 := BitVec.ofNat 12 (v * Config.mouseScale.1 / Config.mouseScale.2)

/-- The mouse-Y read word (30_encoding.md R112). -/
def mouseYWord (i : IobRegs) : Half :=
  (0 : BitVec 1) ++ BitVec.ofBool i.btnTail ++ BitVec.ofBool i.btnMiddle ++ BitVec.ofBool i.btnHead ++ i.mouseY

/-- The mouse-X read word (30_encoding.md R113). -/
def mouseXWord (i : IobRegs) : Half := i.mouseRawY ++ i.mouseRawX ++ i.mouseX

/-- The halves of the microsecond latch (30_encoding.md R114). -/
def usecLowHalf (latch : Word) : Half := latch.extractLsb' 0 16
def usecHighHalf (latch : Word) : Half := latch.extractLsb' 16 16

end Sys2Proof.Machine
end

