-- ==== Sys2Proof/Machine/Ops.lean ====
section
/-! DEFINITION. The shared operations: the words MEM holds, the service calls of 00_scope.md R3 with
their draws and their history events, posting an interrupt (the block's only signal to the host: it
takes no exception, 60_exceptions.md R300 and R314), the microsecond sample, and the steps of the
CCW-chain read sequence (41_disk_commands.md R152 to R163). -/

namespace Sys2Proof.Machine

/-- The outcome of an instruction. -/
abbrev Result := Host.Outcome State Fault Refusal

/-- The listed word of an address, if any. -/
def Memory.lookup : Memory → Nat → Option Word
  | [], _ => none
  | (k, w) :: rest, a => if k = a then some w else Memory.lookup rest a

/-- The word at an address: what was last written there, else the launch memory's (20_memory.md R62). -/
def Memory.read (m : Memory) (a : Nat) : Word := (Memory.lookup m a).getD (Config.launchWord a)

/-- The memory with a word written (20_memory.md R63). -/
def Memory.store : Memory → Nat → Word → Memory
  | [], a, v => [(a, v)]
  | (k, w) :: rest, a, v =>
    if a < k then (a, v) :: (k, w) :: rest
    else if a = k then (a, v) :: rest
    else (k, w) :: Memory.store rest a v

/-- Addresses strictly rising from `lo`, all 32-bit word addresses. -/
def Memory.wfFrom (lo : Nat) : Memory → Bool
  | [] => true
  | (k, _) :: rest => decide (lo ≤ k) && decide (k < 4294967296) && Memory.wfFrom (k + 1) rest

/-- The canonical form of a memory (log 5). -/
def Memory.wf (m : Memory) : Bool := Memory.wfFrom 0 m

/-- The state with other disk registers. -/
def State.withDisk (d : DiskRegs) (s : State) : State := { s with disk := d }
/-- The state with other I/O board registers. -/
def State.withIob (i : IobRegs) (s : State) : State := { s with iob := i }
/-- The state with other timing registers. -/
def State.withTiming (t : TimingRegs) (s : State) : State := { s with timing := t }
/-- The state with another host memory. -/
def State.withMem (m : Memory) (s : State) : State := { s with mem := m }
/-- The state with another environment. -/
def State.withEnv (e : Env) (s : State) : State := { s with env := e }
/-- A service call is recorded in the history (10_state.md R43). -/
def State.record (e : Event) (s : State) : State := { s with history := e :: s.history }
/-- What the transaction returns (30_encoding.md R94). -/
def State.replying (r : Reply) (s : State) : State := { s with reply := r }

/-- `Post(line)` (60_exceptions.md R310). -/
def State.post (line : Nat) (s : State) : State := s.record (.post line)

/-- The fault flag of the next MemRead: a draw (20_memory.md R62). -/
def Env.nextMemReadFault (e : Env) : Bool :=
  match e.memReadFaults with
  | f :: _ => f
  | [] => Config.freeMemReadFault e.draws

/-- The environment once that draw is taken. -/
def Env.dropMemReadFault (e : Env) : Env :=
  match e.memReadFaults with
  | _ :: rest => { e with memReadFaults := rest }
  | [] => { e with draws := e.draws + 1 }

/-- The fault flag of the next MemWrite: a draw (20_memory.md R63). -/
def Env.nextMemWriteFault (e : Env) : Bool :=
  match e.memWriteFaults with
  | f :: _ => f
  | [] => Config.freeMemWriteFault e.draws

/-- The environment once that draw is taken. -/
def Env.dropMemWriteFault (e : Env) : Env :=
  match e.memWriteFaults with
  | _ :: rest => { e with memWriteFaults := rest }
  | [] => { e with draws := e.draws + 1 }

/-- Whether the next MediaRead inside the file meets an I/O error: a draw (20_memory.md R66). -/
def Env.nextMediaFail (e : Env) : Bool :=
  match e.mediaFails with
  | f :: _ => f
  | [] => Config.freeMediaFail e.draws

/-- The environment once that draw is taken. -/
def Env.dropMediaFail (e : Env) : Env :=
  match e.mediaFails with
  | _ :: rest => { e with mediaFails := rest }
  | [] => { e with draws := e.draws + 1 }

/-- NET's next answer: a draw (42_iob_registers.md R213). -/
def Env.nextNetAnswer (e : Env) : Half :=
  match e.netAnswers with
  | v :: _ => v
  | [] => Config.freeNetAnswer e.draws

/-- The environment once that draw is taken. -/
def Env.dropNetAnswer (e : Env) : Env :=
  match e.netAnswers with
  | _ :: rest => { e with netAnswers := rest }
  | [] => { e with draws := e.draws + 1 }

/-- `Now()`: a draw not before the last one (44_timing.md R270). -/
def Env.now (e : Env) : Nat :=
  e.wallClock +
    match e.clockAdvances with
    | d :: _ => d
    | [] => Config.freeClockAdvance e.draws

/-- The environment once `Now()` is drawn. -/
def Env.afterNow (e : Env) : Env :=
  match e.clockAdvances with
  | _ :: rest => { e with clockAdvances := rest, wallClock := e.now }
  | [] => { e with draws := e.draws + 1, wallClock := e.now }

/-- MEM's answer to `MemRead(a)`: `none` is a fault (20_memory.md R62). -/
def State.memAnswer (s : State) (a : Word) : Option Word :=
  if s.env.nextMemReadFault then none else some (Memory.read s.mem a.toNat)

/-- `MemRead(a)` (20_memory.md R62). -/
def State.memRead (a : Word) (s : State) : State :=
  (s.withEnv s.env.dropMemReadFault).record (.memRead a (s.memAnswer a))

/-- `MemWrite(a, v)`: unless MEM answers a fault the word is written (20_memory.md R63; log 13). -/
def State.memWrite (a v : Word) (s : State) : State :=
  ((s.withEnv s.env.dropMemWriteFault).withMem
    (if s.env.nextMemWriteFault then s.mem else Memory.store s.mem a.toNat v)).record
      (.memWrite a v s.env.nextMemWriteFault)

/-- MEDIA's answer to `MediaRead(k)` on the attached image: `none` is `Fail`, forced past the end of
the file and otherwise a draw (20_memory.md R66). -/
def State.mediaAnswer (s : State) (img : List Byte) (k : Nat) : Option (List Word) :=
  if blockInImage img k && !s.env.nextMediaFail then some (imageBlock img k) else none

/-- `MediaRead(k)` on the attached image (20_memory.md R66; log 20). -/
def State.mediaRead (img : List Byte) (k : Nat) (s : State) : State :=
  (s.withEnv (if blockInImage img k then s.env.dropMediaFail else s.env)).record
    (.mediaRead k (s.mediaAnswer img k))

/-- `NetRead(off)` (42_iob_registers.md R213). -/
def State.netRead (off : Offset) (s : State) : State :=
  (s.withEnv s.env.dropNetAnswer).record (.netRead off s.env.nextNetAnswer)

/-- `usec_t0` after a sample at time `t` (44_timing.md R271). -/
def sampleT0 (t0 : Option Nat) (t : Nat) : Nat := t0.getD t

/-- The value of a sample at time `t`: 0 for the first, else `(t - usec_t0) mod 2^32` (44_timing.md R271). -/
def sampleValue (t0 : Option Nat) (t : Nat) : Word :=
  match t0 with
  | none => 0
  | some first => BitVec.ofNat 32 t - BitVec.ofNat 32 first

/-- `usec_latch <- Sample()` (42_iob_registers.md R220, 44_timing.md R271). -/
def State.sample (s : State) : State :=
  (s.withTiming { s.timing with
      usecLatch := sampleValue s.timing.usecT0 s.env.now
      usecT0 := some (sampleT0 s.timing.usecT0 s.env.now) }).withEnv s.env.afterNow

/-- `Decode()` (41_disk_commands.md R152). -/
def DiskRegs.decodeDa (d : DiskRegs) : DiskRegs :=
  { d with
    curUnit := daUnit d.da
    curCyl := (daCyl d.da).setWidth 32
    curHead := (daHead d.da).setWidth 32
    curBlock := (daBlock d.da).setWidth 32 }

/-- `BlockNo(c, h, b)`, on natural numbers (41_disk_commands.md R157). -/
def blockNumber (heads blocksPerTrack c h b : Nat) : Nat :=
  c * blocksPerTrack * heads + h * blocksPerTrack + b

/-- The block number the counters name. -/
def DiskRegs.currentBlock (d : DiskRegs) : Nat :=
  blockNumber d.heads.toNat d.blocksPerTrack.toNat d.curCyl.toNat d.curHead.toNat d.curBlock.toNat

/-- `Exceeds(x, lim)` (41_disk_commands.md R160). -/
def exceeds (r : Rollover) (x lim : Word) : Bool :=
  match r with
  | .gt => decide (lim.toNat < x.toNat)
  | .ge => decide (lim.toNat ≤ x.toNat)

/-- `Advance()` (41_disk_commands.md R160). -/
def DiskRegs.advance (r : Rollover) (d : DiskRegs) : DiskRegs :=
  if exceeds r (d.curBlock + 1) d.blocksPerTrack then
    if exceeds r (d.curHead + 1) d.heads then
      { d with curBlock := 0, curHead := 0, curCyl := d.curCyl + 1 }
    else { d with curBlock := 0, curHead := d.curHead + 1 }
  else { d with curBlock := d.curBlock + 1 }

/-- `(cur_unit, cur_cyl, cur_head, cur_block)` = (0, 0, 0, 0) (41_disk_commands.md R158). -/
def DiskRegs.atOrigin (d : DiskRegs) : Bool :=
  d.curUnit == 0 && d.curCyl == 0 && d.curHead == 0 && d.curBlock == 0

/-- How a part of a transfer ends: the transfer goes on, or it has aborted. -/
inductive Transfer where
  | ongoing (s : State)
  | aborted (s : State)
  deriving DecidableEq, Repr

/-- The words written in ascending order from `a`; a faulting write aborts if `abortOnFault`
(`DEST_FAULT_ABORTS`) and is ignored otherwise (41_disk_commands.md R158, R159). -/
def writeWords (abortOnFault : Bool) : Word → List Word → State → Transfer
  | _, [], s => .ongoing s
  | a, v :: rest, s =>
    if s.env.nextMemWriteFault && abortOnFault then .aborted (s.memWrite a v)
    else writeWords abortOnFault (a + 1) rest (s.memWrite a v)

/-- `CopyBlock(k, base)` (41_disk_commands.md R158). -/
def copyBlock (k : Nat) (base : Word) (s : State) : Transfer :=
  match s.disk.media with
  | .attached img =>
    match s.mediaAnswer img k with
    | none => .aborted (s.mediaRead img k)
    | some words => writeWords Config.destFaultAborts base words (s.mediaRead img k)
  | .detached =>
    if s.disk.atOrigin then writeWords Config.destFaultAborts base synthLabelWords s else .ongoing s

/-- How one CCW ends: the chain goes on, this was the last CCW, or the transfer has aborted. -/
inductive CcwEnd where
  | more (s : State)
  | last (s : State)
  | aborted (s : State)
  deriving DecidableEq, Repr

/-- What follows a CCW's block: `Advance()`, then the continuation (41_disk_commands.md R160, R161). -/
def finishCcw (ccw : Word) (s : State) : CcwEnd :=
  if ccwCont ccw then
    .more (s.withDisk { s.disk.advance Config.rollover with clp := s.disk.clp + 1 })
  else .last (s.withDisk (s.disk.advance Config.rollover))

/-- The state once the CCW at `clp` is fetched and decoded (41_disk_commands.md R155, R156). -/
def State.fetchCcw (ccw : Word) (s : State) : State :=
  (s.memRead s.disk.clp).withDisk { s.disk with ma := ccwBase ccw }

/-- One CCW of the chain: fetch, decode, copy, advance, continue (41_disk_commands.md R151, R155 to R161). -/
def walkCcw (s : State) : CcwEnd :=
  match s.memAnswer s.disk.clp with
  | none => .aborted (s.memRead s.disk.clp)
  | some ccw =>
    match copyBlock s.disk.currentBlock (ccwBase ccw) (s.fetchCcw ccw) with
    | .aborted t => .aborted t
    | .ongoing t => finishCcw ccw t

/-- At most `n` CCWs of the chain; leaving by the bound is no abort (41_disk_commands.md R151, R162). -/
def walkChain : Nat → State → Transfer
  | 0, s => .ongoing s
  | n + 1, s =>
    match walkCcw s with
    | .aborted t => .aborted t
    | .last t => .ongoing t
    | .more t => walkChain n t

/-- Completion: the done interrupt, unless the transfer aborted (41_disk_commands.md R163). -/
def completeRead (doneIntEn : Bool) : Transfer → State
  | .aborted s => s
  | .ongoing s => if doneIntEn then s.post Config.lineDisk else s

/-- `Decode()` on the state. -/
def State.decodeDa (s : State) : State := s.withDisk s.disk.decodeDa

/-- `Read()` (41_disk_commands.md R151). -/
def readTransfer (doneIntEn : Bool) (s : State) : State :=
  completeRead doneIntEn (walkChain Config.chainBound s.decodeDa)

/-- The block state at its reset values; host memory, history and environment are not block state
(70_reset_and_hazards.md R340, 10_state.md R42; log 15). -/
def State.resetBlock (s : State) : State :=
  { s with disk := DiskRegs.reset, iob := IobRegs.reset, timing := TimingRegs.reset }

/-- The state with the first input taken. -/
def State.takeInput (rest : List Input) (s : State) : State := s.withEnv { s.env with inputs := rest }

end Sys2Proof.Machine
end

