-- ==== Sys2Proof/Machine/Configuration.lean ====
section
/-! DEFINITION. HOST's configuration transactions RESET (70_reset_and_hazards.md R340) and ATTACH
(41_disk_commands.md R170). -/

namespace Sys2Proof.Machine

/-- RESET (70_reset_and_hazards.md R340). -/
def execEvReset (s : State) : Result := .next (s.resetBlock.replying .nothing)

/-- The disk controller with a valid image attached and its geometry loaded (41_disk_commands.md R170). -/
def DiskRegs.attach (img : List Byte) (d : DiskRegs) : DiskRegs :=
  { d with
    cyls := imageWord img 8
    heads := imageWord img 12
    blocksPerTrack := imageWord img 16
    media := .attached img }

/-- A failed ATTACH detaches and keeps the geometry (41_disk_commands.md R170). -/
def failAttach (s : State) : Result :=
  .next ((s.withDisk { s.disk with media := .detached }).replying (.attach false))

/-- ATTACH (41_disk_commands.md R170). -/
def execEvAttach (file : ImageFile) (s : State) : Result :=
  match file with
  | .unreadable => failAttach s
  | .bytes img =>
    if labelValid img then .next ((s.withDisk (s.disk.attach img)).replying (.attach true))
    else failAttach s

end Sys2Proof.Machine
end

