-- ==== Sys2Proof/Machine/DiskCommands.lean ====
section
/-! DEFINITION. The commands `start` dispatches on (41_disk_commands.md R151 to R166). A command's
operand is the command word it was decoded from, without the key (log 4). -/

namespace Sys2Proof.Machine

/-- READ (41_disk_commands.md R151). -/
def execDskCmdRead (f : CommandFlags) (s : State) : Result :=
  .next ((readTransfer f.doneIntEn s).replying .nothing)

/-- READ_COMPARE decodes the address only and posts nothing (41_disk_commands.md R153). -/
def execDskCmdReadCompare (_f : CommandFlags) (s : State) : Result :=
  .next (s.decodeDa.replying .nothing)

/-- WRITE decodes the address only; no media write, no post (41_disk_commands.md R154, R171). -/
def execDskCmdWrite (_f : CommandFlags) (s : State) : Result :=
  .next (s.decodeDa.replying .nothing)

/-- RECALIBRATE changes nothing (41_disk_commands.md R164). -/
def execDskCmdRecalibrate (_f : CommandFlags) (s : State) : Result := .next (s.replying .nothing)

/-- FAULT_CLEAR changes nothing (41_disk_commands.md R165). -/
def execDskCmdFaultClear (_f : CommandFlags) (s : State) : Result := .next (s.replying .nothing)

/-- UNKNOWN is rejected without any state change (41_disk_commands.md R166). -/
def execDskCmdUnknown (_key : BitVec 10) (_f : CommandFlags) (s : State) : Result :=
  .next (s.replying .nothing)

/-- `Start()`: the dispatch on `command[9:0]` (41_disk_commands.md R150). -/
def startCommand (s : State) : Result :=
  let key := commandKey s.disk.command
  let f := commandFlags s.disk.command
  if key = Config.opRead then execDskCmdRead f s
  else if key = Config.opReadCompare then execDskCmdReadCompare f s
  else if key = Config.opWrite then execDskCmdWrite f s
  else if key = Config.opRecalibrate then execDskCmdRecalibrate f s
  else if key = Config.opFaultClear then execDskCmdFaultClear f s
  else execDskCmdUnknown key f s

end Sys2Proof.Machine
end

