-- ==== Sys2Proof/Machine/DiskRegisters.lean ====
section
/-! DEFINITION. The disk register transactions (40_disk_registers.md R130 to R143). -/

namespace Sys2Proof.Machine

/-- A register read that changes no state but the reply (20_memory.md R73). -/
def readWord32 (v : Word) (s : State) : Result := .next (s.replying (.word32 v))

/-- `rd disk.status` (40_disk_registers.md R130). -/
def execDskRdStatus (s : State) : Result := readWord32 s.disk.status s

/-- `rd disk.ma` (40_disk_registers.md R131). -/
def execDskRdMa (s : State) : Result := readWord32 s.disk.ma s

/-- `rd disk.da` (40_disk_registers.md R132). -/
def execDskRdDa (s : State) : Result := readWord32 s.disk.da s

/-- `rd disk.ecc` (40_disk_registers.md R133). -/
def execDskRdEcc (s : State) : Result := readWord32 0 s

/-- `rd disk.status2` (40_disk_registers.md R134). -/
def execDskRdStatus2 (s : State) : Result := readWord32 s.disk.status s

/-- `rd disk.clp` (40_disk_registers.md R135). -/
def execDskRdClp (s : State) : Result := readWord32 s.disk.clp s

/-- `rd disk.da2` (40_disk_registers.md R136). -/
def execDskRdDa2 (s : State) : Result := readWord32 s.disk.da s

/-- `rd disk.zero` (40_disk_registers.md R137). -/
def execDskRdZero (s : State) : Result := readWord32 0 s

/-- `wr disk[i], v` for i in 0..3: ignored (40_disk_registers.md R139). -/
def execDskWrNop (_index : BitVec 2) (_v : Word) (s : State) : Result := .next (s.replying .nothing)

/-- `wr disk.cmd, v` (40_disk_registers.md R140). -/
def execDskWrCmd (v : Word) (s : State) : Result :=
  .next ((s.withDisk { s.disk with command := v }).replying .nothing)

/-- `wr disk.clp, v` (40_disk_registers.md R141). -/
def execDskWrClp (v : Word) (s : State) : Result :=
  .next ((s.withDisk { s.disk with clp := v }).replying .nothing)

/-- `wr disk.da, v` (40_disk_registers.md R142). -/
def execDskWrDa (v : Word) (s : State) : Result :=
  .next ((s.withDisk { s.disk with da := v }).replying .nothing)

/-- `wr disk.start, v`: the whole command runs within this transaction; `v` is ignored
(40_disk_registers.md R143). -/
def execDskWrStart (_v : Word) (s : State) : Result := startCommand s

end Sys2Proof.Machine
end

