-- ==== Sys2Proof/Machine/InputEvents.lean ====
section
/-! DEFINITION. Keyboard and mouse events (43_input_events.md R241 to R254). -/

namespace Sys2Proof.Machine

/-- The state with `LINE_KBD` or `LINE_MOUSE` posted if the event posts. -/
def State.postIf (cond : Bool) (line : Nat) (s : State) : State := if cond then s.post line else s

/-- The I/O board after a key that is no pure modifier: `key_scan` and `KBD_READY` (43_input_events.md R241). -/
def IobRegs.takeKey (w : Half) (i : IobRegs) : IobRegs := { i.setKbdReady with keyScan := w }

/-- The I/O board after a mouse event with the raw deltas `raw` (43_input_events.md R250). -/
def IobRegs.takeMouse (x y : Nat) (raw : BitVec 2 × BitVec 2) (buttons : Nat) (i : IobRegs) : IobRegs :=
  { (i.latchButtons buttons).setMouseReady with
    mouseX := scaleMouse x
    mouseY := scaleMouse y
    mouseRawX := raw.1
    mouseRawY := raw.2 }

/-- The state after a key (43_input_events.md R241, R242, R246): a pure modifier changes nothing;
`pack` and `gate` are `PACK_MODS_ON_FKEYS` and `GATE_IOB_INTS`. -/
def State.pressKey {κ : Type} [DecidableEq κ] (fe : FrontEnd κ) (pack gate : Bool) (code : κ) (extra : Nat)
    (s : State) : State :=
  if fe.isModifier code then s
  else
    (s.withIob (s.iob.takeKey (keyScanWord fe pack code extra))).postIf
      (postsWhen gate (csrKbdIntEn s.iob.kbdCsr)) Config.lineKbd

/-- The state after a mouse event with the raw deltas `raw` (43_input_events.md R250, R254). -/
def State.moveMouse (raw : BitVec 2 × BitVec 2) (gate : Bool) (x y buttons : Nat) (s : State) : State :=
  (s.withIob (s.iob.takeMouse x y raw buttons)).postIf
    (postsWhen gate (csrMouseIntEn s.iob.kbdCsr)) Config.lineMouse

/-- KEY (43_input_events.md R241). -/
def execEvKey (code : KeyCode) (extra : Nat) (s : State) : Result :=
  .next ((s.pressKey Config.frontEnd Config.packModsOnFkeys Config.gateIobInts code extra).replying
    .nothing)

/-- MOUSE (43_input_events.md R250); the raw deltas are `MOUSE_RAW(dx, dy)` (R252). -/
def execEvMouse (x y : Nat) (dx dy : Int) (buttons : Nat) (s : State) : Result :=
  .next ((s.moveMouse (Config.frontEnd.mouseRaw dx dy) Config.gateIobInts x y buttons).replying
    .nothing)

end Sys2Proof.Machine
end

