-- ==== Sys2Proof/Machine/IobRegisters.lean ====
section
/-! DEFINITION. The I/O board register transactions (42_iob_registers.md R200 to R221). -/

namespace Sys2Proof.Machine

/-- An I/O board read returning `v`. -/
def readWord16 (v : Half) (s : State) : Result := .next (s.replying (.word16 v))

/-- A write that is ignored (42_iob_registers.md R206, R208, R210). -/
def ignoreWrite (s : State) : Result := .next (s.replying .nothing)

/-- `rd iob.kbd_lo` (42_iob_registers.md R200). -/
def execIobRdKbdLo (s : State) : Result := readWord16 s.iob.keyScan (s.withIob s.iob.clearKbdReady)

/-- `wr iob.kbd_lo, v` (42_iob_registers.md R206). -/
def execIobWrKbdLo (_v : Half) (s : State) : Result := ignoreWrite s

/-- `rd iob.kbd_hi` (42_iob_registers.md R201). -/
def execIobRdKbdHi (s : State) : Result := readWord16 0xFFFF (s.withIob s.iob.clearKbdReady)

/-- `wr iob.kbd_hi, v` (42_iob_registers.md R206). -/
def execIobWrKbdHi (_v : Half) (s : State) : Result := ignoreWrite s

/-- `rd iob.mouse_y` (42_iob_registers.md R202). -/
def execIobRdMouseY (s : State) : Result :=
  readWord16 (mouseYWord s.iob) (s.withIob (s.iob.acknowledgeMouse Config.mouseYClearsReady))

/-- `wr iob.mouse_y, v` (42_iob_registers.md R206). -/
def execIobWrMouseY (_v : Half) (s : State) : Result := ignoreWrite s

/-- `rd iob.mouse_x` (42_iob_registers.md R203). -/
def execIobRdMouseX (s : State) : Result := readWord16 (mouseXWord s.iob) s

/-- `wr iob.mouse_x, v` (42_iob_registers.md R206). -/
def execIobWrMouseX (_v : Half) (s : State) : Result := ignoreWrite s

/-- `rd iob.beep` (42_iob_registers.md R204). -/
def execIobRdBeep (s : State) : Result := readWord16 0 (s.record .alert)

/-- `wr iob.beep, v` (42_iob_registers.md R205). -/
def execIobWrBeep (_v : Half) (s : State) : Result := .next ((s.record .alert).replying .nothing)

/-- `rd iob.kbd_csr` (42_iob_registers.md R211). -/
def execIobRdKbdCsr (s : State) : Result := readWord16 s.iob.kbdCsr s

/-- `wr iob.kbd_csr, v` (42_iob_registers.md R212). -/
def execIobWrKbdCsr (v : Half) (s : State) : Result :=
  .next ((s.withIob (s.iob.mergeEnables v)).replying .nothing)

/-- `rd iob.usec_lo`: a new sample (42_iob_registers.md R220). -/
def execIobRdUsecLo (s : State) : Result := readWord16 (usecLowHalf s.sample.timing.usecLatch) s.sample

/-- `wr iob.usec_lo, v` (42_iob_registers.md R206). -/
def execIobWrUsecLo (_v : Half) (s : State) : Result := ignoreWrite s

/-- `rd iob.usec_hi`: the last sample's high half (42_iob_registers.md R221). -/
def execIobRdUsecHi (s : State) : Result := readWord16 (usecHighHalf s.timing.usecLatch) s

/-- `wr iob.usec_hi, v` (42_iob_registers.md R206). -/
def execIobWrUsecHi (_v : Half) (s : State) : Result := ignoreWrite s

/-- `rd iob.clk60` (42_iob_registers.md R207). -/
def execIobRdClk60 (s : State) : Result := readWord16 0 s

/-- `wr iob.clk60, v` (42_iob_registers.md R208). -/
def execIobWrClk60 (_v : Half) (s : State) : Result := ignoreWrite s

/-- `rd iob[off]` in the network sub-range (42_iob_registers.md R213). -/
def execIobRdNet (off : Offset) (s : State) : Result := readWord16 s.env.nextNetAnswer (s.netRead off)

/-- `wr iob[off], v` in the network sub-range (42_iob_registers.md R214). -/
def execIobWrNet (off : Offset) (v : Half) (s : State) : Result :=
  .next ((s.record (.netWrite off v)).replying .nothing)

/-- `rd iob[off]` at an unmapped offset (42_iob_registers.md R209). -/
def execIobRdUnmapped (_off : Offset) (s : State) : Result := readWord16 0 s

/-- `wr iob[off], v` at an unmapped offset (42_iob_registers.md R210). -/
def execIobWrUnmapped (_off : Offset) (_v : Half) (s : State) : Result := ignoreWrite s

end Sys2Proof.Machine
end

