-- ==== Sys2Proof/Machine/TimingEvents.lean ====
section
/-! DEFINITION. The display CSR and the 60 Hz tick (44_timing.md R272 to R275). -/

namespace Sys2Proof.Machine

/-- `rd tv.csr` (44_timing.md R274). -/
def execTvRdCsr (s : State) : Result := .next (s.replying (.word32 s.timing.tvCsr))

/-- `wr tv.csr, v` (44_timing.md R275). -/
def execTvWrCsr (v : Word) (s : State) : Result :=
  .next ((s.withTiming (s.timing.writeTvCsr v)).replying .nothing)

/-- TICK (44_timing.md R272). -/
def execEvTick (s : State) : Result :=
  .next ((s.withTiming { s.timing with tickPending := true }).replying .nothing)

/-- DELIVER (44_timing.md R273); while `tick_pending` = 0 it is not enabled, "no step", and nothing
changes (log 9). -/
def execEvDeliver (s : State) : Result :=
  if s.timing.tickPending then
    .next (((s.withTiming s.timing.deliver).post Config.lineTv).replying .nothing)
  else .next (s.replying .nothing)

end Sys2Proof.Machine
end

