-- ==== Sys2Proof/Machine/Dispatch.lean ====
section
/-! DEFINITION. The dispatch: one arm for each constructor of Instr, one call of its meaning. -/

namespace Sys2Proof.Machine

def exec (i : Instr) (s : State) : Host.Outcome State Fault Refusal :=
  match i with
  | .dskRdStatus => Sys2Proof.Machine.execDskRdStatus s
  | .dskRdMa => Sys2Proof.Machine.execDskRdMa s
  | .dskRdDa => Sys2Proof.Machine.execDskRdDa s
  | .dskRdEcc => Sys2Proof.Machine.execDskRdEcc s
  | .dskRdStatus2 => Sys2Proof.Machine.execDskRdStatus2 s
  | .dskRdClp => Sys2Proof.Machine.execDskRdClp s
  | .dskRdDa2 => Sys2Proof.Machine.execDskRdDa2 s
  | .dskRdZero => Sys2Proof.Machine.execDskRdZero s
  | .dskWrNop index v => Sys2Proof.Machine.execDskWrNop index v s
  | .dskWrCmd v => Sys2Proof.Machine.execDskWrCmd v s
  | .dskWrClp v => Sys2Proof.Machine.execDskWrClp v s
  | .dskWrDa v => Sys2Proof.Machine.execDskWrDa v s
  | .dskWrStart v => Sys2Proof.Machine.execDskWrStart v s
  | .iobRdKbdLo => Sys2Proof.Machine.execIobRdKbdLo s
  | .iobWrKbdLo v => Sys2Proof.Machine.execIobWrKbdLo v s
  | .iobRdKbdHi => Sys2Proof.Machine.execIobRdKbdHi s
  | .iobWrKbdHi v => Sys2Proof.Machine.execIobWrKbdHi v s
  | .iobRdMouseY => Sys2Proof.Machine.execIobRdMouseY s
  | .iobWrMouseY v => Sys2Proof.Machine.execIobWrMouseY v s
  | .iobRdMouseX => Sys2Proof.Machine.execIobRdMouseX s
  | .iobWrMouseX v => Sys2Proof.Machine.execIobWrMouseX v s
  | .iobRdBeep => Sys2Proof.Machine.execIobRdBeep s
  | .iobWrBeep v => Sys2Proof.Machine.execIobWrBeep v s
  | .iobRdKbdCsr => Sys2Proof.Machine.execIobRdKbdCsr s
  | .iobWrKbdCsr v => Sys2Proof.Machine.execIobWrKbdCsr v s
  | .iobRdUsecLo => Sys2Proof.Machine.execIobRdUsecLo s
  | .iobWrUsecLo v => Sys2Proof.Machine.execIobWrUsecLo v s
  | .iobRdUsecHi => Sys2Proof.Machine.execIobRdUsecHi s
  | .iobWrUsecHi v => Sys2Proof.Machine.execIobWrUsecHi v s
  | .iobRdClk60 => Sys2Proof.Machine.execIobRdClk60 s
  | .iobWrClk60 v => Sys2Proof.Machine.execIobWrClk60 v s
  | .iobRdNet off => Sys2Proof.Machine.execIobRdNet off s
  | .iobWrNet off v => Sys2Proof.Machine.execIobWrNet off v s
  | .iobRdUnmapped off => Sys2Proof.Machine.execIobRdUnmapped off s
  | .iobWrUnmapped off v => Sys2Proof.Machine.execIobWrUnmapped off v s
  | .tvRdCsr => Sys2Proof.Machine.execTvRdCsr s
  | .tvWrCsr v => Sys2Proof.Machine.execTvWrCsr v s
  | .evReset => Sys2Proof.Machine.execEvReset s
  | .evAttach file => Sys2Proof.Machine.execEvAttach file s
  | .evKey code extra => Sys2Proof.Machine.execEvKey code extra s
  | .evMouse x y dx dy buttons => Sys2Proof.Machine.execEvMouse x y dx dy buttons s
  | .evTick => Sys2Proof.Machine.execEvTick s
  | .evDeliver => Sys2Proof.Machine.execEvDeliver s
  | .dskCmdRead flags => Sys2Proof.Machine.execDskCmdRead flags s
  | .dskCmdReadCompare flags => Sys2Proof.Machine.execDskCmdReadCompare flags s
  | .dskCmdWrite flags => Sys2Proof.Machine.execDskCmdWrite flags s
  | .dskCmdRecalibrate flags => Sys2Proof.Machine.execDskCmdRecalibrate flags s
  | .dskCmdFaultClear flags => Sys2Proof.Machine.execDskCmdFaultClear flags s
  | .dskCmdUnknown key flags => Sys2Proof.Machine.execDskCmdUnknown key flags s

end Sys2Proof.Machine
end

