-- ==== Sys2Proof/Machine/Step.lean ====
section
/-! DEFINITION. One step: the block takes the first input that waits and performs it; with no input it
waits (70_reset_and_hazards.md R341; log 1). -/

namespace Sys2Proof.Machine

/-- One step. -/
def step (s : State) : Host.Outcome State Fault Refusal :=
  match s.env.inputs with
  | [] => .next s
  | .hostStore a v :: rest => .next ((s.takeInput rest).withMem (Memory.store s.mem a.toNat v))
  | .transaction t :: rest =>
    match decodeTransaction t with
    | .ok i => exec i (s.takeInput rest)
    | .error why => .refused (.illegalTransaction why)

/-- The state with one more input waiting, first in line. -/
def State.offer (input : Input) (s : State) : State :=
  s.withEnv { s.env with inputs := input :: s.env.inputs }

/-- The state in which the next step runs a word of spec/opcode_table.json (log 1, log 3): a
selector is offered with operands of zeros; a command word stands in the command register and a
`wr disk.start, 0` is offered, since `start` alone dispatches on a command (41_disk_commands.md R150). -/
def State.withFetchWord (s : State) (nbits w : Nat) : State :=
  match tableWord nbits w with
  | .transaction t => s.offer (.transaction t)
  | .command c =>
    (s.withDisk { s.disk with command := c }).offer (.transaction (zeroTransaction 0x2007))

end Sys2Proof.Machine
end

