-- ==== Sys2Proof/Safety.lean ====
section
/-! DEFINITION. The terms claims are stated in: the invariant of the machine, and what a part of the
history says (which writes it holds, which CCWs it fetched, which lines it posted). -/

namespace Sys2Proof.Machine

/-- The attached image has a valid label and the geometry is the one of its label block
(41_disk_commands.md R170, 10_state.md R29, R30). -/
def DiskRegs.geometryFromLabel (d : DiskRegs) : Prop :=
  ∀ img, d.media = .attached img →
    labelValid img = true ∧ d.cyls = imageWord img 8 ∧ d.heads = imageWord img 12 ∧
      d.blocksPerTrack = imageWord img 16

/-- The invariant of the machine. -/
structure Inv (s : State) : Prop where
  /-- `status` is 0x00000001 (10_state.md R22, R23). -/
  status : s.disk.status = 1
  /-- `ma` is a block-aligned 22-bit word address (20_memory.md R68). -/
  maAligned : s.disk.ma &&& ~~~Config.ccwAddrMask = 0
  /-- the geometry is the attached image's (41_disk_commands.md R170). -/
  geometry : s.disk.geometryFromLabel
  /-- `kbd_csr` bits 15:6 are 0 (10_state.md R32). -/
  csrReserved : s.iob.kbdCsr &&& 0xFFC0 = 0
  /-- host memory is in its canonical form (log 5). -/
  memory : Memory.wf s.mem = true
  /-- the first sample was not taken in the future (44_timing.md R270, R271). -/
  clock : ∀ first, s.timing.usecT0 = some first → first ≤ s.env.wallClock

/-- The event is an interrupt post. -/
def Event.isPost : Event → Bool
  | .post _ => true
  | .memRead _ _ | .memWrite _ _ _ | .mediaRead _ _ | .netRead _ _ | .netWrite _ _ | .alert => false

/-- The event is a CCW fetch. -/
def Event.isFetch : Event → Bool
  | .memRead _ _ => true
  | .post _ | .memWrite _ _ _ | .mediaRead _ _ | .netRead _ _ | .netWrite _ _ | .alert => false

/-- The address of a CCW fetch. -/
def Event.fetchAddress? : Event → Option Word
  | .memRead a _ => some a
  | .post _ | .memWrite _ _ _ | .mediaRead _ _ | .netRead _ _ | .netWrite _ _ | .alert => none

/-- The effect of one event on the words MEM holds: a write that did not fault stores its word. -/
def Event.applyTo : Event → Memory → Memory
  | .memWrite a v false, m => Memory.store m a.toNat v
  | .memWrite _ _ true, m => m
  | .memRead _ _, m | .post _, m | .mediaRead _ _, m | .netRead _ _, m | .netWrite _ _, m | .alert, m => m

/-- The memory after the events of a history, newest first. -/
def applyEvents : List Event → Memory → Memory
  | [], m => m
  | e :: older, m => e.applyTo (applyEvents older m)

/-- The CCW the last fetch of a history answered, if it did not fault. -/
def lastCcw : List Event → Option Word
  | [] => none
  | .memRead _ answer :: _ => answer
  | .post _ :: older | .memWrite _ _ _ :: older | .mediaRead _ _ :: older | .netRead _ _ :: older
  | .netWrite _ _ :: older | .alert :: older => lastCcw older

/-- The event is no write, or a write into the block of 256 words at the base of the CCW fetched last. -/
def Event.underCcw (older : List Event) : Event → Prop
  | .memWrite a _ _ =>
    ∃ ccw, lastCcw older = some ccw ∧ (ccwBase ccw).toNat ≤ a.toNat ∧ a.toNat < (ccwBase ccw).toNat + 256
  | .memRead _ _ | .post _ | .mediaRead _ _ | .netRead _ _ | .netWrite _ _ | .alert => True

/-- Every write of a history, newest first, is under the CCW fetched last before it. -/
def WritesUnderCcw : List Event → Prop
  | [] => True
  | e :: older => e.underCcw older ∧ WritesUnderCcw older

/-- The events of a block's writes, newest first, at ascending addresses from `a`. -/
def writeEvents : Word → List Word → List Event
  | _, [] => []
  | a, v :: rest => writeEvents (a + 1) rest ++ [.memWrite a v false]

/-- The memory with words stored at ascending addresses from `a`. -/
def storeWords : Word → List Word → Memory → Memory
  | _, [], m => m
  | a, v :: rest, m => storeWords (a + 1) rest (Memory.store m a.toNat v)

/-- The address is one of the 256 words at the CCW's base (41_disk_commands.md R156, R158). -/
def ccwCovers (ccw : Word) (a : Nat) : Prop := (ccwBase ccw).toNat ≤ a ∧ a < (ccwBase ccw).toNat + 256

/-- `Advance()` repeated. -/
def advanceBy : Nat → DiskRegs → DiskRegs
  | 0, d => d
  | n + 1, d => advanceBy n (d.advance Config.rollover)

/-! ## A chain that every service lets through

Where every call is answered without a fault, what a READ does depends on the disk registers, the CCWs
and memory alone. The definitions below say it CCW by CCW; `d` is the disk at the CCW's fetch. -/

/-- A service call that failed: the READ that made it aborts (60_exceptions.md R301). -/
def Event.isFailure : Event → Bool
  | .memRead _ answer => answer.isNone
  | .memWrite _ _ fault => fault
  | .mediaRead _ answer => answer.isNone
  | .post _ | .netRead _ _ | .netWrite _ _ | .alert => false

/-- The words `CopyBlock` moves: the image's block, the synthetic label, or none (41_disk_commands.md R158). -/
def DiskRegs.copiedWords (d : DiskRegs) : List Word :=
  match d.media with
  | .attached img => imageBlock img d.currentBlock
  | .detached => if d.atOrigin then synthLabelWords else []

/-- The MediaRead `CopyBlock` makes, if any (41_disk_commands.md R158). -/
def DiskRegs.mediaEvents (d : DiskRegs) : List Event :=
  match d.media with
  | .attached img => [.mediaRead d.currentBlock (some (imageBlock img d.currentBlock))]
  | .detached => []

/-- The disk at the next CCW's fetch (41_disk_commands.md R156, R160, R161). -/
def DiskRegs.nextCcw (ccw : Word) (d : DiskRegs) : DiskRegs :=
  { d.advance Config.rollover with clp := d.clp + 1, ma := ccwBase ccw }

/-- The disk after linked CCWs. -/
def chainRegs : List Word → DiskRegs → DiskRegs
  | [], d => d
  | ccw :: rest, d => chainRegs rest (d.nextCcw ccw)

/-- Memory after the blocks of CCWs are copied, each to its base. -/
def chainMemory : List Word → DiskRegs → Memory → Memory
  | [], _, m => m
  | ccw :: rest, d, m => chainMemory rest (d.nextCcw ccw) (storeWords (ccwBase ccw) d.copiedWords m)

/-- The events of CCWs, newest first: for each its fetch, its MediaRead and its writes. -/
def chainEvents : List Word → DiskRegs → List Event
  | [], _ => []
  | ccw :: rest, d =>
    chainEvents rest (d.nextCcw ccw) ++
      (writeEvents (ccwBase ccw) d.copiedWords ++ d.mediaEvents ++ [.memRead d.clp (some ccw)])

/-- How many words CCWs write. -/
def chainWrites : List Word → DiskRegs → Nat
  | [], _ => 0
  | ccw :: rest, d => d.copiedWords.length + chainWrites rest (d.nextCcw ccw)

/-- How many MediaReads CCWs make. -/
def chainMediaReads : List Word → DiskRegs → Nat
  | [], _ => 0
  | ccw :: rest, d => d.mediaEvents.length + chainMediaReads rest (d.nextCcw ccw)

/-- From `s`, where `da` is decoded, the words `ccws` are what the fetches at `clp`, `clp + 1`, … read, each
after the copies before it, their blocks are inside an attached file, and every service answers without
a fault; `reads`, `writes` and `medias` are the answers left over. -/
structure ChainAnswered (s : State) (ccws : List Word) (reads writes medias : List Bool) : Prop where
  fetched : ∀ (i : Nat) (h : i < ccws.length),
    Memory.read (chainMemory (ccws.take i) s.disk s.mem) (s.disk.clp + BitVec.ofNat 32 i).toNat = ccws[i]
  inFile : ∀ img, s.disk.media = .attached img → ∀ i < ccws.length,
    Config.blockBytes * (advanceBy i s.disk).currentBlock + Config.blockBytes ≤ img.length
  reads : s.env.memReadFaults = List.replicate ccws.length false ++ reads
  writes : s.env.memWriteFaults = List.replicate (chainWrites ccws s.disk) false ++ writes
  medias : s.env.mediaFails = List.replicate (chainMediaReads ccws s.disk) false ++ medias

/-- `ma` after CCWs: the last one's base, and what it was if there is none (40_disk_registers.md R131). -/
def maAfter (ccws : List Word) (ma : Word) : Word :=
  match ccws.getLast? with
  | some ccw => ccwBase ccw
  | none => ma

end Sys2Proof.Machine
end

