-- ==== Sys2Proof/Certificates/Slice0/Obligations.lean ====
section
/-! DEFINITION. The statements for the provers. Each docstring names the rules of spec/ it formalises;
where a clause rests on a choice of the model, it names the log entry. -/

open Sys2Proof Sys2Proof.Machine

/-! ## Encoding -/

/-- Decode and encode agree: every well-formed instruction is decoded from its own words
(30_encoding.md R90 to R101). The operand shapes are log 2, the two formats log 3. -/
def Obligations.DecodeOfEncodeIsIdentity : Prop :=
  ∀ i : Instr, WellFormed i = true → decode (encode i) = .ok i

/-- Each word has one meaning: what the decoder accepts is well-formed and encodes to the same words. -/
def Obligations.EncodeOfDecodeIsIdentity : Prop :=
  ∀ (e : Encoded) (i : Instr), decode e = .ok i → WellFormed i = true ∧ encode i = e

/-- 30_encoding.md R92: exactly the selectors R92 names are no transaction of the block, whatever the
operands; every other selector is one with some operands. -/
def Obligations.SelectorsRefusedAreThoseOfTheRule : Prop :=
  ∀ sel : Half,
    (∀ ops, ¬ ∃ i, decodeTransaction { selector := sel, operands := ops } = .ok i) ↔
      (sel.extractLsb' 9 4 ≠ 0 ∨
        (sel.extractLsb' 14 2 = 0 ∧ sel.extractLsb' 3 6 ≠ 0) ∨
        (sel.extractLsb' 14 2 = 2 ∧ sel.extractLsb' 0 9 ≠ 0) ∨
        (sel.extractLsb' 14 2 = 3 ∧ (sel.getLsbD 13 = true ∨ 5 < (sel.extractLsb' 0 9).toNat)))

/-- Selectors and command words written out from 30_encoding.md R91, R95 to R98, R100 and R101; the five
refusals are R92's. -/
def Obligations.WrittenOutWordsDecode : Prop :=
  decodeTransaction ⟨0x0000, .absent⟩ = .ok .dskRdStatus ∧
  decodeTransaction ⟨0x2002, .word32 7⟩ = .ok (.dskWrNop 2 7) ∧
  decodeTransaction ⟨0x2007, .word32 0⟩ = .ok (.dskWrStart 0) ∧
  decodeTransaction ⟨0x404A, .absent⟩ = .ok .iobRdKbdCsr ∧
  decodeTransaction ⟨0x4041, .absent⟩ = .ok (.iobRdUnmapped 0o101) ∧
  decodeTransaction ⟨0x4066, .absent⟩ = .ok (.iobRdNet 0o146) ∧
  decodeTransaction ⟨0x606A, .word16 7⟩ = .ok (.iobWrNet 0o152 7) ∧
  decodeTransaction ⟨0xA000, .word32 0x13⟩ = .ok (.tvWrCsr 0x13) ∧
  decodeTransaction ⟨0xC004, .absent⟩ = .ok .evTick ∧
  decodeTransaction ⟨0x0008, .absent⟩ = .error .diskOffset ∧
  decodeTransaction ⟨0x0200, .absent⟩ = .error .reservedBits ∧
  decodeTransaction ⟨0x8001, .absent⟩ = .error .tvOffset ∧
  decodeTransaction ⟨0xC006, .absent⟩ = .error .eventId ∧
  decodeTransaction ⟨0xE000, .absent⟩ = .error .eventDirection ∧
  decodeCommand 0x800 = .dskCmdRead ⟨false, true, 0⟩ ∧
  decodeCommand 0x205 = .dskCmdRecalibrate ⟨false, false, 0⟩ ∧
  decodeCommand 0x10 = .dskCmdUnknown 0x10 ⟨false, false, 0⟩

/-- 30_encoding.md R120: every assembler line assembles to a transaction of the block, whose agent is HOST
but for the events of the other agents (30_encoding.md R91). -/
def Obligations.AssemblerLinesAreTransactions : Prop :=
  ∀ line : AsmLine, ∃ i, decodeTransaction (assemble line) = .ok i ∧
    (agentOf i = .frontend ↔ (∃ c e, line = .evKey c e) ∨ ∃ x y dx dy b, line = .evMouse x y dx dy b) ∧
    (agentOf i = .timer ↔ line = .evTick) ∧ (agentOf i = .mainLoop ↔ line = .evDeliver)

/-! ## The step -/

/-- A step runs the decoded instruction: when the transaction that waits first decodes to `i`, the step
is `exec i` at the state with that input taken (log 1). -/
def Obligations.StepRunsTheDecodedTransaction : Prop :=
  ∀ (s : State) (t : Transaction) (rest : List Input) (i : Instr),
    s.env.inputs = .transaction t :: rest → decodeTransaction t = .ok i →
      step s = exec i { s with env := { s.env with inputs := rest } }

/-- What a step does when no transaction decodes: with no input the block waits
(70_reset_and_hazards.md R341, log 1), an illegal selector is refused by name (30_encoding.md R92), and so,
by the model's choice, is a legal selector with operands of another shape than its row's
(`operandsMismatch`, log 2); a store of the host CPU changes host memory alone (log 6). -/
def Obligations.StepWithoutADecodedTransaction : Prop :=
  (∀ s : State, s.env.inputs = [] → step s = .next s) ∧
  (∀ (s : State) (t : Transaction) (rest : List Input) (why : DecodeError),
    s.env.inputs = .transaction t :: rest → decodeTransaction t = .error why →
      step s = .refused (.illegalTransaction why)) ∧
  (∀ (s : State) (a v : Word) (rest : List Input),
    s.env.inputs = .hostStore a v :: rest →
      step s = .next { s with
        mem := Memory.store s.mem a.toNat v
        env := { s.env with inputs := rest } })

/-- `withFetchWord` makes the next step run the table word's instruction, for every word and number of bits: a
legal selector directly (30_encoding.md R92); a word of more than 16 bits, and a 16-bit word that is no
selector of the block but the key of a named command with bits 11:10 free, as a command through `start`
(41_disk_commands.md R150; log 3); any other word is refused, in the decoder and in the step. -/
def Obligations.StepRunsTheFetchedWord : Prop :=
  ∀ (s : State) (nbits w : Nat),
    let commanded : State := { s with disk := { s.disk with command := BitVec.ofNat 32 w } }
    let named : Prop := w < 4096 ∧ BitVec.ofNat 10 w ∈ [(0 : BitVec 10), 0o10, 0o11, 0o1005, 0o405]
    (nbits ≤ 16 → legalSelector (BitVec.ofNat 16 w) = true →
      ∃ i, decodeTransaction (zeroTransaction (BitVec.ofNat 16 w)) = .ok i ∧
        decodeTableWord nbits w = some i ∧ step (s.withFetchWord nbits w) = exec i s) ∧
    (16 < nbits ∨ (legalSelector (BitVec.ofNat 16 w) = false ∧ named) →
      decodeTableWord nbits w = some (decodeCommand (BitVec.ofNat 32 w)) ∧
        step (s.withFetchWord nbits w) = exec (decodeCommand (BitVec.ofNat 32 w)) commanded) ∧
    (nbits ≤ 16 → legalSelector (BitVec.ofNat 16 w) = false → ¬ named →
      decodeTableWord nbits w = none ∧
        ∃ why, step (s.withFetchWord nbits w) = .refused (.illegalTransaction why))

/-! ## Disk registers -/

/-- 40_disk_registers.md R130 to R137: each disk register read answers the register, or 0, and changes
nothing but what is returned. -/
def Obligations.DiskReadsAnswerTheirRegister : Prop :=
  ∀ s : State,
    decodeTransaction ⟨0x0000, .absent⟩ = .ok .dskRdStatus ∧ decodeTransaction ⟨0x0001, .absent⟩ = .ok .dskRdMa ∧
    decodeTransaction ⟨0x0002, .absent⟩ = .ok .dskRdDa ∧ decodeTransaction ⟨0x0003, .absent⟩ = .ok .dskRdEcc ∧
    decodeTransaction ⟨0x0004, .absent⟩ = .ok .dskRdStatus2 ∧ decodeTransaction ⟨0x0005, .absent⟩ = .ok .dskRdClp ∧
    decodeTransaction ⟨0x0006, .absent⟩ = .ok .dskRdDa2 ∧ decodeTransaction ⟨0x0007, .absent⟩ = .ok .dskRdZero ∧
    exec .dskRdStatus s = .next { s with reply := .word32 s.disk.status } ∧
    exec .dskRdMa s = .next { s with reply := .word32 s.disk.ma } ∧
    exec .dskRdDa s = .next { s with reply := .word32 s.disk.da } ∧
    exec .dskRdEcc s = .next { s with reply := .word32 0 } ∧
    exec .dskRdStatus2 s = .next { s with reply := .word32 s.disk.status } ∧
    exec .dskRdClp s = .next { s with reply := .word32 s.disk.clp } ∧
    exec .dskRdDa2 s = .next { s with reply := .word32 s.disk.da } ∧
    exec .dskRdZero s = .next { s with reply := .word32 0 }

/-- 40_disk_registers.md R139 to R142: a disk register write changes its register alone; indices 0 to 3
change nothing. The selectors are those of the rules. -/
def Obligations.DiskWritesChangeTheirRegisterOnly : Prop :=
  (∀ (i : BitVec 2) (v : Word), decodeTransaction ⟨0x2000 + i.setWidth 16, .word32 v⟩ = .ok (.dskWrNop i v)) ∧
  (∀ v : Word, decodeTransaction ⟨0x2004, .word32 v⟩ = .ok (.dskWrCmd v) ∧
    decodeTransaction ⟨0x2005, .word32 v⟩ = .ok (.dskWrClp v) ∧
    decodeTransaction ⟨0x2006, .word32 v⟩ = .ok (.dskWrDa v)) ∧
  (∀ (s : State) (i : BitVec 2) (v : Word),
    exec (.dskWrNop i v) s = .next { s with reply := .nothing } ∧
    exec (.dskWrCmd v) s = .next { s with disk := { s.disk with command := v }, reply := .nothing } ∧
    exec (.dskWrClp v) s = .next { s with disk := { s.disk with clp := v }, reply := .nothing } ∧
    exec (.dskWrDa v) s = .next { s with disk := { s.disk with da := v }, reply := .nothing })

/-! ## Start commands -/

/-- 41_disk_commands.md R150: `start` dispatches on `command[9:0]`, runs the command within the
transaction, and ignores `v` (40_disk_registers.md R143). -/
def Obligations.StartDispatchesOnTheKey : Prop :=
  ∀ (v : Word) (s : State),
    let key := (s.disk.command &&& 0o1777).toNat
    let f : CommandFlags := ⟨s.disk.command.getLsbD 10, s.disk.command.getLsbD 11, s.disk.command.extractLsb' 12 20⟩
    decodeTransaction ⟨0x2007, .word32 v⟩ = .ok (.dskWrStart v) ∧
    (key = 0 → exec (.dskWrStart v) s = exec (.dskCmdRead f) s) ∧
    (key = 0o10 → exec (.dskWrStart v) s = exec (.dskCmdReadCompare f) s) ∧
    (key = 0o11 → exec (.dskWrStart v) s = exec (.dskCmdWrite f) s) ∧
    (key = 0o1005 → exec (.dskWrStart v) s = exec (.dskCmdRecalibrate f) s) ∧
    (key = 0o405 → exec (.dskWrStart v) s = exec (.dskCmdFaultClear f) s) ∧
    (key ≠ 0 → key ≠ 0o10 → key ≠ 0o11 → key ≠ 0o1005 → key ≠ 0o405 →
      exec (.dskWrStart v) s = exec (.dskCmdUnknown (s.disk.command.extractLsb' 0 10) f) s)

/-- 41_disk_commands.md R152 to R154: READ_COMPARE and WRITE decode `da` into the counters, and change
nothing else: no memory access, no media write, no post. -/
def Obligations.ReadCompareAndWriteOnlyDecode : Prop :=
  ∀ (f : CommandFlags) (s : State),
    let t : State := { s with
      disk := { s.disk with
        curUnit := s.disk.da.extractLsb' 28 3
        curCyl := (s.disk.da.extractLsb' 16 12).setWidth 32
        curHead := (s.disk.da.extractLsb' 8 8).setWidth 32
        curBlock := (s.disk.da.extractLsb' 0 8).setWidth 32 }
      reply := .nothing }
    decodeCommand (commandWord 0o10 f) = .dskCmdReadCompare f ∧ decodeCommand (commandWord 0o11 f) = .dskCmdWrite f ∧
    exec (.dskCmdReadCompare f) s = .next t ∧ exec (.dskCmdWrite f) s = .next t

/-- 41_disk_commands.md R164 to R166: RECALIBRATE, FAULT_CLEAR and UNKNOWN change nothing. -/
def Obligations.NoOpCommandsChangeNothing : Prop :=
  ∀ (key : BitVec 10) (f : CommandFlags) (s : State),
    decodeCommand (commandWord 0o1005 f) = .dskCmdRecalibrate f ∧
    decodeCommand (commandWord 0o405 f) = .dskCmdFaultClear f ∧
    (key ∉ [0, 0o10, 0o11, 0o1005, 0o405] → decodeCommand (commandWord key f) = .dskCmdUnknown key f) ∧
    exec (.dskCmdRecalibrate f) s = .next { s with reply := .nothing } ∧
    exec (.dskCmdFaultClear f) s = .next { s with reply := .nothing } ∧
    exec (.dskCmdUnknown key f) s = .next { s with reply := .nothing }

/-- The frame of READ and of the start write: what no transfer changes, whatever it does. -/
def Obligations.ReadFrame : Prop :=
  ∀ (i : Instr) (s t : State), ((∃ f, i = .dskCmdRead f) ∨ ∃ v, i = .dskWrStart v) → exec i s = .next t →
    t.iob = s.iob ∧ t.timing = s.timing ∧
    t.disk = { s.disk with
      clp := t.disk.clp
      ma := t.disk.ma
      curUnit := t.disk.curUnit
      curCyl := t.disk.curCyl
      curHead := t.disk.curHead
      curBlock := t.disk.curBlock } ∧
    t.env = { s.env with
      memReadFaults := t.env.memReadFaults
      memWriteFaults := t.env.memWriteFaults
      mediaFails := t.env.mediaFails
      draws := t.env.draws } ∧
    ∃ new, t.history = new ++ s.history

/-- A READ changes host memory by the writes of its history and by nothing else: memory afterwards is
memory before with the non-faulting MemWrites applied in order (20_memory.md R62, R63; log 13). -/
def Obligations.ReadMemoryIsItsWriteHistory : Prop :=
  ∀ (f : CommandFlags) (s t : State), exec (.dskCmdRead f) s = .next t →
    ∃ new, t.history = new ++ s.history ∧ t.mem = applyEvents new s.mem

/-- 20_memory.md R68, 41_disk_commands.md R156 and R158: every word a READ writes lies in the 256 words at
the base of the CCW fetched last. -/
def Obligations.ReadWritesOnlyUnderItsCcw : Prop :=
  ∀ (f : CommandFlags) (s t : State), exec (.dskCmdRead f) s = .next t →
    ∃ new, t.history = new ++ s.history ∧ WritesUnderCcw new

/-- No transaction of the block changes a word of host memory beyond the 22-bit word addresses a CCW can
name (30_encoding.md R104, 20_memory.md R81). -/
def Obligations.DmaStaysInCcwRange : Prop :=
  ∀ (i : Instr) (s t : State) (a : Nat), exec i s = .next t → 0x400000 ≤ a →
    Memory.read t.mem a = Memory.read s.mem a

/-- The CCW fetches of a READ: at most 65535, at consecutive word addresses from `clp`, and `clp` moves by
one for each fetched CCW that continues: it ends at the last fetched CCW, or one past it when the
bound ends the walk (41_disk_commands.md R155, R161, R162; 40_disk_registers.md R135). -/
def Obligations.ReadFetchesConsecutiveCcws : Prop :=
  ∀ (f : CommandFlags) (s t : State), exec (.dskCmdRead f) s = .next t →
    ∃ new n, t.history = new ++ s.history ∧ 1 ≤ n ∧ n ≤ 65535 ∧
      (new.filterMap Event.fetchAddress?).reverse =
        (List.range n).map (fun k => s.disk.clp + BitVec.ofNat 32 k) ∧
      (t.disk.clp = s.disk.clp + BitVec.ofNat 32 (n - 1) ∨
        n = 65535 ∧ t.disk.clp = s.disk.clp + BitVec.ofNat 32 n)

/-- A READ of a chain of N CCWs that every service lets through, with an image or without one: N fetches, the
block of each CCW copied (or skipped) in order, the counters advanced N times, `ma` the last base, and
the done interrupt posted last if enabled. `clp` moves N - 1 times, or N times where the 65535th CCW
still continues: that end is normal completion too (41_disk_commands.md R151, R158, R161 to R163;
92_eei_decisions.md D12; the source's property S4). -/
def Obligations.ChainReadRunsToItsEnd : Prop :=
  ∀ (f : CommandFlags) (s : State) (links : List Word) (final : Word) (reads writes medias : List Bool),
    let ccws := links ++ [final]
    (∀ c ∈ links, ccwCont c = true) →
    (links.length + 1 ≤ 65535 ∧ ccwCont final = false ∨ links.length + 1 = 65535) →
    ChainAnswered s.decodeDa ccws reads writes medias →
    exec (.dskCmdRead f) s = .next { s with
      disk := { advanceBy ccws.length s.disk.decodeDa with
        clp := s.disk.clp + BitVec.ofNat 32 (if ccwCont final then ccws.length else links.length)
        ma := ccwBase final }
      mem := chainMemory ccws s.disk.decodeDa s.mem
      env := { s.env with memReadFaults := reads, memWriteFaults := writes, mediaFails := medias }
      history := (if f.doneIntEn then [.post Config.lineDisk] else []) ++
        chainEvents ccws s.disk.decodeDa ++ s.history
      reply := .nothing }

/-- A READ of a chain of N CCWs with an image attached: word j of the block of CCW i is word j of image
block `BlockNo` of the counters advanced i times, unless a later CCW's block covers it, and every word
that no CCW's block covers is unchanged (41_disk_commands.md R151, R156 to R158, R160, R161). -/
def Obligations.ChainReadCopiesItsBlocks : Prop :=
  ∀ (f : CommandFlags) (s : State) (img : List Byte) (links : List Word) (final : Word)
    (reads writes medias : List Bool),
    let ccws := links ++ [final]
    s.disk.media = .attached img → (∀ c ∈ links, ccwCont c = true) →
    (links.length + 1 ≤ 65535 ∧ ccwCont final = false ∨ links.length + 1 = 65535) →
    ChainAnswered s.decodeDa ccws reads writes medias →
    ∃ t, exec (.dskCmdRead f) s = .next t ∧
      (∀ i ccw j, ccws[i]? = some ccw → j < 256 →
        (∀ later ∈ ccws.drop (i + 1), ¬ ccwCovers later ((ccw &&& 0x003FFF00).toNat + j)) →
        Memory.read t.mem ((ccw &&& 0x003FFF00).toNat + j) =
          imageWord img (1024 * (advanceBy i s.disk.decodeDa).currentBlock + 4 * j)) ∧
      (∀ a, (∀ ccw ∈ ccws, ¬ ccwCovers ccw a) → Memory.read t.mem a = Memory.read s.mem a) ∧
      t.disk = { advanceBy ccws.length s.disk.decodeDa with
        clp := s.disk.clp + BitVec.ofNat 32 (if ccwCont final then ccws.length else links.length)
        ma := final &&& 0x003FFF00 } ∧
      t.history = (if f.doneIntEn then [.post Config.lineDisk] else []) ++
        chainEvents ccws s.disk.decodeDa ++ s.history ∧
      t.env = { s.env with memReadFaults := reads, memWriteFaults := writes, mediaFails := medias } ∧
      t.iob = s.iob ∧ t.timing = s.timing ∧ t.reply = .nothing

/-- With no image, (0,0,0,0) gets the synthetic label (41_disk_commands.md R158, R167; 60_exceptions.md R301
class (a)). `SYNTH_LABEL` is OPEN. -/
def Obligations.DetachedOriginGetsTheSyntheticLabel : Prop :=
  ∀ (f : CommandFlags) (s : State) (ccw : Word) (reads writes : List Bool),
    let base := ccw &&& 0x003FFF00
    s.disk.media = .detached → s.disk.da &&& 0x7FFFFFFF = 0 →
    Memory.read s.mem s.disk.clp.toNat = ccw → ccw.getLsbD 0 = false →
    s.env.memReadFaults = false :: reads → s.env.memWriteFaults = List.replicate 256 false ++ writes →
    ∃ t, exec (.dskCmdRead f) s = .next t ∧
      (∀ j : Fin 256, Memory.read t.mem (base.toNat + j) = Config.synthLabel j) ∧
      (∀ a, a < base.toNat ∨ base.toNat + 256 ≤ a → Memory.read t.mem a = Memory.read s.mem a) ∧
      t.disk = { s.disk.decodeDa.advance .gt with ma := base } ∧
      t.history = (if f.doneIntEn then [.post Config.lineDisk] else []) ++
        writeEvents base synthLabelWords ++ .memRead s.disk.clp (some ccw) :: s.history ∧
      t.env = { s.env with memReadFaults := reads, memWriteFaults := writes } ∧
      t.iob = s.iob ∧ t.timing = s.timing ∧ t.reply = .nothing

/-- 41_disk_commands.md R155: a faulting fetch of any CCW of a chain, the first or a later one, aborts the READ
at once: the blocks of the `links` before it stay copied, `clp` stands at the faulting fetch, `ma` and the
counters are as the links left them, nothing is posted. -/
def Obligations.FetchFaultAbortsTheRead : Prop :=
  ∀ (f : CommandFlags) (s : State) (links : List Word) (reads writes medias : List Bool),
    let clp := s.disk.clp + BitVec.ofNat 32 links.length
    (∀ c ∈ links, ccwCont c = true) → links.length < 65535 →
    ChainAnswered s.decodeDa links (true :: reads) writes medias →
    exec (.dskCmdRead f) s = .next { s with
      disk := { advanceBy links.length s.disk.decodeDa with
        clp := clp
        ma := maAfter links s.disk.ma }
      mem := chainMemory links s.disk.decodeDa s.mem
      env := { s.env with memReadFaults := reads, memWriteFaults := writes, mediaFails := medias }
      history := .memRead clp none :: chainEvents links s.disk.decodeDa ++ s.history
      reply := .nothing }

/-- 20_memory.md R66, 41_disk_commands.md R158: a failed MediaRead at any CCW of a chain, past the end of the
file or by an I/O error, aborts the READ before any word of that block is written; the blocks of the
`links` before it stay copied, the counters are not advanced for it, nothing is posted. Which answer
is used up is log 20. -/
def Obligations.MediaFailureAbortsTheRead : Prop :=
  ∀ (f : CommandFlags) (s : State) (img : List Byte) (links : List Word) (ccw : Word)
    (reads writes medias left : List Bool),
    let clp := s.disk.clp + BitVec.ofNat 32 links.length
    let d := advanceBy links.length s.disk.decodeDa
    s.disk.media = .attached img → (∀ c ∈ links, ccwCont c = true) → links.length < 65535 →
    ChainAnswered s.decodeDa links (false :: reads) writes medias →
    Memory.read (chainMemory links s.disk.decodeDa s.mem) clp.toNat = ccw →
    (img.length < 1024 * d.currentBlock + 1024 ∧ medias = left ∨
      1024 * d.currentBlock + 1024 ≤ img.length ∧ medias = true :: left) →
    exec (.dskCmdRead f) s = .next { s with
      disk := { d with clp := clp, ma := ccw &&& 0x003FFF00 }
      mem := chainMemory links s.disk.decodeDa s.mem
      env := { s.env with memReadFaults := reads, memWriteFaults := writes, mediaFails := left }
      history := .mediaRead d.currentBlock none :: .memRead clp (some ccw) ::
        chainEvents links s.disk.decodeDa ++ s.history
      reply := .nothing }

/-- 41_disk_commands.md R159: a destination fault at word `j` of the block of any CCW of a chain aborts the
READ there; the words before it and the blocks of the `links` before it stay written, no other word
changes, the counters are not advanced for this block, nothing is posted. That the faulting write
stores nothing is log 13. -/
def Obligations.DestinationFaultAbortsTheRead : Prop :=
  ∀ (f : CommandFlags) (s : State) (links : List Word) (ccw : Word) (j : Nat) (v : Word)
    (reads writes medias : List Bool),
    let clp := s.disk.clp + BitVec.ofNat 32 links.length
    let d := advanceBy links.length s.disk.decodeDa
    let base := ccw &&& 0x003FFF00
    (∀ c ∈ links, ccwCont c = true) → links.length < 65535 →
    ChainAnswered s.decodeDa links (false :: reads) (List.replicate j false ++ true :: writes)
      (List.replicate d.mediaEvents.length false ++ medias) →
    Memory.read (chainMemory links s.disk.decodeDa s.mem) clp.toNat = ccw →
    (∀ img, s.disk.media = .attached img → 1024 * d.currentBlock + 1024 ≤ img.length) →
    d.copiedWords[j]? = some v →
    ∃ t, exec (.dskCmdRead f) s = .next t ∧
      (∀ i < j, d.copiedWords[i]? = some (Memory.read t.mem (base.toNat + i))) ∧
      (∀ a, a < base.toNat ∨ base.toNat + j ≤ a →
        Memory.read t.mem a = Memory.read (chainMemory links s.disk.decodeDa s.mem) a) ∧
      t.disk = { d with clp := clp, ma := base } ∧
      t.history = .memWrite (base + BitVec.ofNat 32 j) v true :: writeEvents base (d.copiedWords.take j) ++
        d.mediaEvents ++ .memRead clp (some ccw) :: chainEvents links s.disk.decodeDa ++ s.history ∧
      t.env = { s.env with memReadFaults := reads, memWriteFaults := writes, mediaFails := medias } ∧
      t.iob = s.iob ∧ t.timing = s.timing ∧ t.reply = .nothing

/-- 20_memory.md R78 and the hazard 70_reset_and_hazards.md R354: where the block of an earlier CCW covers the
address of a later CCW of the chain, the fetch there answers the image word copied to it last, not the
CCW that stood there. -/
def Obligations.SelfOverwritingChainFetchesTheCopiedWord : Prop :=
  ∀ (f : CommandFlags) (s : State) (img : List Byte) (links : List Word) (i : Nat) (ccw : Word)
    (reads writes medias : List Bool),
    let clp := s.disk.clp + BitVec.ofNat 32 links.length
    s.disk.media = .attached img → (∀ c ∈ links, ccwCont c = true) → links.length < 65535 →
    ChainAnswered s.decodeDa links (false :: reads) writes medias →
    links[i]? = some ccw → ccwCovers ccw clp.toNat →
    (∀ later ∈ links.drop (i + 1), ¬ ccwCovers later clp.toNat) →
    ∃ t later, exec (.dskCmdRead f) s = .next t ∧
      t.history = later ++
        .memRead clp (some (imageWord img
          (1024 * (advanceBy i s.disk.decodeDa).currentBlock + 4 * (clp.toNat - (ccwBase ccw).toNat)))) ::
          chainEvents links s.disk.decodeDa ++ s.history

/-- The counters and the block number (41_disk_commands.md R157, R160; the hazard 70_reset_and_hazards.md
R355): under `ROLLOVER` = GT one `Advance()` goes to the next block number inside a track, repeats a
number at the end of a track, and goes back by a track at the end of a cylinder. -/
def Obligations.AdvanceRepeatsABlockAtTrackEnds : Prop :=
  ∀ d : DiskRegs, d.blocksPerTrack.toNat + 1 < 2 ^ 32 → d.heads.toNat + 1 < 2 ^ 32 →
    d.curCyl.toNat + 1 < 2 ^ 32 → d.curBlock.toNat ≤ d.blocksPerTrack.toNat →
    d.curHead.toNat ≤ d.heads.toNat →
    (d.curBlock.toNat < d.blocksPerTrack.toNat → (d.advance .gt).currentBlock = d.currentBlock + 1) ∧
    (d.curBlock = d.blocksPerTrack → d.curHead.toNat < d.heads.toNat →
      (d.advance .gt).currentBlock = d.currentBlock) ∧
    (d.curBlock = d.blocksPerTrack → d.curHead = d.heads →
      (d.advance .gt).currentBlock + d.blocksPerTrack.toNat = d.currentBlock)

/-- Under the alternative `ROLLOVER` = GE block numbers have no gap and no repeat inside the geometry
(90_conflicts.md C3, 92_eei_decisions.md D9). -/
def Obligations.AlternativeRolloverIsGapFree : Prop :=
  ∀ d : DiskRegs, d.curBlock.toNat < d.blocksPerTrack.toNat → d.curHead.toNat < d.heads.toNat →
    d.curCyl.toNat + 1 < 2 ^ 32 →
    (d.advance .ge).currentBlock = d.currentBlock + 1 ∧
    (d.advance .ge).curBlock.toNat < d.blocksPerTrack.toNat ∧ (d.advance .ge).curHead.toNat < d.heads.toNat

/-- 41_disk_commands.md R160: the counters after `Advance()` under either `ROLLOVER`, and nothing else
changes; this spec's value is `GT` (00_scope.md section 5). -/
def Obligations.AdvanceRollsOver : Prop :=
  Config.rollover = .gt ∧ ∀ (r : Rollover) (d : DiskRegs),
    let exceed (x lim : Word) : Prop := (r = .gt ∧ lim.toNat < x.toNat) ∨ (r = .ge ∧ lim.toNat ≤ x.toNat)
    (¬ exceed (d.curBlock + 1) d.blocksPerTrack → d.advance r = { d with curBlock := d.curBlock + 1 }) ∧
    (exceed (d.curBlock + 1) d.blocksPerTrack → ¬ exceed (d.curHead + 1) d.heads →
      d.advance r = { d with curBlock := 0, curHead := d.curHead + 1 }) ∧
    (exceed (d.curBlock + 1) d.blocksPerTrack → exceed (d.curHead + 1) d.heads →
      d.advance r = { d with curBlock := 0, curHead := 0, curCyl := d.curCyl + 1 })

/-! ## I/O board -/

/-- 42_iob_registers.md R200, R201: the keyboard reads answer `key_scan` and all ones, and clear
`KBD_READY` (bit 5) alone. -/
def Obligations.KeyboardReadsClearReady : Prop :=
  ∀ s : State,
    decodeTransaction ⟨0x4040, .absent⟩ = .ok .iobRdKbdLo ∧
    decodeTransaction ⟨0x4042, .absent⟩ = .ok .iobRdKbdHi ∧
    exec .iobRdKbdLo s = .next { s with
      iob := { s.iob with kbdCsr := s.iob.kbdCsr &&& 0xFFDF }
      reply := .word16 s.iob.keyScan } ∧
    exec .iobRdKbdHi s = .next { s with
      iob := { s.iob with kbdCsr := s.iob.kbdCsr &&& 0xFFDF }
      reply := .word16 0xFFFF }

/-- 42_iob_registers.md R202, R203: the mouse-Y read packs latches and position, clears the latches and
`MOUSE_READY`; the mouse-X read packs the raw deltas and the position and changes nothing. -/
def Obligations.MouseReadsPackAndClear : Prop :=
  ∀ s : State,
    decodeTransaction ⟨0x4044, .absent⟩ = .ok .iobRdMouseY ∧
    decodeTransaction ⟨0x4046, .absent⟩ = .ok .iobRdMouseX ∧
    exec .iobRdMouseY s = .next { s with
      iob := { s.iob with
        btnHead := false
        btnMiddle := false
        btnTail := false
        kbdCsr := s.iob.kbdCsr &&& 0xFFEF }
      reply := .word16 ((BitVec.ofBool s.iob.btnTail).setWidth 16 <<< 14 |||
        (BitVec.ofBool s.iob.btnMiddle).setWidth 16 <<< 13 |||
        (BitVec.ofBool s.iob.btnHead).setWidth 16 <<< 12 ||| s.iob.mouseY.setWidth 16) } ∧
    exec .iobRdMouseX s = .next { s with
      reply := .word16 (s.iob.mouseRawY.setWidth 16 <<< 14 ||| s.iob.mouseRawX.setWidth 16 <<< 12 |||
        s.iob.mouseX.setWidth 16) }

/-- The source's property S5 of 42_iob_registers.md R202: a second mouse-Y read at once answers the
position with the latches 0, whatever they were. -/
def Obligations.SecondMouseYReadHasNoLatches : Prop :=
  ∀ (s t u : State), exec .iobRdMouseY s = .next t → exec .iobRdMouseY t = .next u →
    u = { t with reply := .word16 (s.iob.mouseY.setWidth 16) }

/-- 42_iob_registers.md R204, R205: a beep read or write makes one `Alert`; the read answers 0. -/
def Obligations.BeepAlerts : Prop :=
  ∀ (s : State) (v : Half),
    decodeTransaction ⟨0x4048, .absent⟩ = .ok .iobRdBeep ∧
    decodeTransaction ⟨0x6048, .word16 v⟩ = .ok (.iobWrBeep v) ∧
    exec .iobRdBeep s = .next { s with history := .alert :: s.history, reply := .word16 0 } ∧
    exec (.iobWrBeep v) s = .next { s with history := .alert :: s.history, reply := .nothing }

/-- 42_iob_registers.md R206, R208, R210: the ignored writes, at the selectors the rules give them, change
nothing. -/
def Obligations.IgnoredWritesChangeNothing : Prop :=
  ∀ (s : State) (v : Half) (off : Offset) (i : Instr), WellFormed i = true →
    i ∈ [.iobWrKbdLo v, .iobWrKbdHi v, .iobWrMouseY v, .iobWrMouseX v, .iobWrUsecLo v, .iobWrUsecHi v,
      .iobWrClk60 v, .iobWrUnmapped off v] →
    (∃ sel : Half, decodeTransaction ⟨sel, .word16 v⟩ = .ok i ∧
      (sel ∈ [0x6040, 0x6042, 0x6044, 0x6046, 0x6050, 0x6052, 0x6054] ∨ sel = 0x6000 + off.setWidth 16)) ∧
    exec i s = .next { s with reply := .nothing }

/-- 42_iob_registers.md R207, R209: the 60 Hz clock and every offset that R98's table does not name, odd ones
included, read 0 and change nothing. -/
def Obligations.ConstantReadsAnswerZero : Prop :=
  ∀ (s : State) (off : Offset),
    decodeTransaction ⟨0x4054, .absent⟩ = .ok .iobRdClk60 ∧
    (off ∉ [0o100, 0o102, 0o104, 0o106, 0o110, 0o112, 0o120, 0o122, 0o124] →
      off.toNat < 0o140 ∨ 0o152 < off.toNat →
      decodeTransaction ⟨0x4000 + off.setWidth 16, .absent⟩ = .ok (.iobRdUnmapped off)) ∧
    exec .iobRdClk60 s = .next { s with reply := .word16 0 } ∧
    exec (.iobRdUnmapped off) s = .next { s with reply := .word16 0 }

/-- 42_iob_registers.md R211, R212: the CSR reads whole; a write takes bits 3:0 from `v` and keeps the
others. -/
def Obligations.CsrWriteMergesTheEnables : Prop :=
  ∀ (s : State) (v : Half),
    decodeTransaction ⟨0x404A, .absent⟩ = .ok .iobRdKbdCsr ∧
    decodeTransaction ⟨0x604A, .word16 v⟩ = .ok (.iobWrKbdCsr v) ∧
    exec .iobRdKbdCsr s = .next { s with reply := .word16 s.iob.kbdCsr } ∧
    exec (.iobWrKbdCsr v) s = .next { s with
      iob := { s.iob with kbdCsr := (s.iob.kbdCsr &&& ~~~0x000F) ||| (v &&& 0x000F) }
      reply := .nothing }

/-- 42_iob_registers.md R213, R214: the network sub-range passes through; a read answers NET's answer (a
draw, log 7) and records it, a write records the value. -/
def Obligations.NetworkOffsetsPassThrough : Prop :=
  ∀ (s : State) (off : Offset) (v answer : Half) (more : List Half),
    (0o140 ≤ off.toNat → off.toNat ≤ 0o152 →
      decodeTransaction ⟨0x4000 + off.setWidth 16, .absent⟩ = .ok (.iobRdNet off) ∧
      decodeTransaction ⟨0x6000 + off.setWidth 16, .word16 v⟩ = .ok (.iobWrNet off v)) ∧
    exec (.iobWrNet off v) s = .next { s with history := .netWrite off v :: s.history, reply := .nothing } ∧
    (s.env.netAnswers = answer :: more →
      exec (.iobRdNet off) s = .next { s with
        history := .netRead off answer :: s.history
        env := { s.env with netAnswers := more }
        reply := .word16 answer })

/-- 42_iob_registers.md R220, R221 with 44_timing.md R271: the low read takes a sample at `Now()` and
answers its low half; the first sample is 0 and fixes `usec_t0`; the high read answers the high half of
the last sample and takes none. -/
def Obligations.MicrosecondLowSamplesHighReuses : Prop :=
  ∀ (s : State) (advance : Nat) (more : List Nat), s.env.clockAdvances = advance :: more →
    let now := s.env.wallClock + advance
    let env : Env := { s.env with clockAdvances := more, wallClock := now }
    decodeTransaction ⟨0x4050, .absent⟩ = .ok .iobRdUsecLo ∧
    decodeTransaction ⟨0x4052, .absent⟩ = .ok .iobRdUsecHi ∧
    (s.timing.usecT0 = none → exec .iobRdUsecLo s = .next { s with
      timing := { s.timing with usecLatch := 0, usecT0 := some now }
      env := env
      reply := .word16 0 }) ∧
    (∀ first ≤ now, s.timing.usecT0 = some first → exec .iobRdUsecLo s = .next { s with
      timing := { s.timing with usecLatch := BitVec.ofNat 32 (now - first) }
      env := env
      reply := .word16 (BitVec.ofNat 16 (now - first)) }) ∧
    exec .iobRdUsecHi s = .next { s with reply := .word16 ((s.timing.usecLatch >>> 16).setWidth 16) }

/-! ## Events -/

/-- 43_input_events.md R241, R242, R246: KEY ignores a pure modifier; any other key overwrites `key_scan`,
sets `KBD_READY` (bit 5) and posts `LINE_KBD` = 0o260, whatever the enables hold. The front-end
parameters and the type of key codes are OPEN (`Config.frontEnd`, `Config.keyCodes`). -/
def Obligations.KeyEventTranslatesAndPosts : Prop :=
  ∀ (code : KeyCode) (extra : Nat) (s : State),
    decodeTransaction ⟨0xC002, .key code extra⟩ = .ok (.evKey code extra) ∧ exec (.evKey code extra) s = .next
    (if Config.frontEnd.isModifier code = true then { s with reply := .nothing }
    else { s with
      iob := { s.iob with
        keyScan := keyScanWord Config.frontEnd true code extra
        kbdCsr := s.iob.kbdCsr ||| 0x0020 }
      history := .post 0o260 :: s.history
      reply := .nothing })

/-- 43_input_events.md R243 to R245, for every front end over every type of key codes: a function key's word is its logical code with
control and meta packed onto it if `PACK_MODS_ON_FKEYS`, and does not depend on the shift state; any
other key keeps the table's 8-bit code unchanged in bits 7:0, has control in bits 11:10, meta in bits
13:12, and zeros in bits 9:8 and 15:14. -/
def Obligations.KeyWordKeepsCodeAndPacksModifiers : Prop :=
  ∀ (κ : Type) [DecidableEq κ] (fe : FrontEnd κ) (pack : Bool) (code : κ) (extra : Nat),
    (∀ name, fe.fkey code = some name →
      keyScanWord fe pack code extra = fe.fkeyCode name |||
        (if pack = true ∧ extra &&& fe.extraCtrl ≠ 0 then 0x0C00 else 0) |||
        (if pack = true ∧ extra &&& fe.extraMeta ≠ 0 then 0x3000 else 0)) ∧
    (∀ name extra', fe.fkey code = some name →
      (extra &&& fe.extraCtrl) = (extra' &&& fe.extraCtrl) →
      (extra &&& fe.extraMeta) = (extra' &&& fe.extraMeta) →
      keyScanWord fe pack code extra = keyScanWord fe pack code extra') ∧
    (fe.fkey code = none →
      (keyScanWord fe pack code extra).extractLsb' 0 8 =
        scanCode fe code (decide (extra &&& fe.extraShift ≠ 0)) ∧
      (keyScanWord fe pack code extra).extractLsb' 8 2 = 0 ∧
      (keyScanWord fe pack code extra).extractLsb' 10 2 = (if extra &&& fe.extraCtrl ≠ 0 then 3 else 0) ∧
      (keyScanWord fe pack code extra).extractLsb' 12 2 = (if extra &&& fe.extraMeta ≠ 0 then 3 else 0) ∧
      (keyScanWord fe pack code extra).extractLsb' 14 2 = 0)

/-- 43_input_events.md R240, for every type of key codes: the override list is applied in order, so the last override that names an
entry gives it, and an entry no override names is the base table's. -/
def Obligations.LastScanOverrideWins : Prop :=
  ∀ (κ : Type) [DecidableEq κ] (fe : FrontEnd κ) (code : κ) (shifted : Bool),
    ((∀ p ∈ fe.scanPatches, ¬ (p.1 = code ∧ p.2.1 = shifted)) →
      scanCode fe code shifted = fe.scanBase code shifted) ∧
    (∀ (before : List (κ × Bool × BitVec 8)) (value : BitVec 8) (after : List (κ × Bool × BitVec 8)),
      fe.scanPatches = before ++ (code, shifted, value) :: after →
      (∀ p ∈ after, ¬ (p.1 = code ∧ p.2.1 = shifted)) → scanCode fe code shifted = value)

/-- 43_input_events.md R250 to R254: MOUSE scales both coordinates by 5/3 into 12 bits, takes the raw deltas
of the OPEN `MOUSE_RAW`, latches the buttons that are down, sets `MOUSE_READY` (bit 4) and posts
`LINE_MOUSE` = 0o264, whatever the enables hold. -/
def Obligations.MouseEventScalesLatchesAndPosts : Prop :=
  ∀ (x y : Nat) (dx dy : Int) (buttons : Nat) (s : State),
    decodeTransaction ⟨0xC003, .mouse x y dx dy buttons⟩ = .ok (.evMouse x y dx dy buttons) ∧
    exec (.evMouse x y dx dy buttons) s = .next { s with
      iob := { s.iob with
        mouseX := BitVec.ofNat 12 ((x * 5 / 3) % 4096)
        mouseY := BitVec.ofNat 12 ((y * 5 / 3) % 4096)
        mouseRawX := (Config.frontEnd.mouseRaw dx dy).1
        mouseRawY := (Config.frontEnd.mouseRaw dx dy).2
        btnHead := s.iob.btnHead || decide (buttons % 2 = 1)
        btnMiddle := s.iob.btnMiddle || decide (buttons / 2 % 2 = 1)
        btnTail := s.iob.btnTail || decide (buttons / 4 % 2 = 1)
        kbdCsr := s.iob.kbdCsr ||| 0x0010 }
      history := .post 0o264 :: s.history
      reply := .nothing }

/-- 44_timing.md R272, R273: TICK sets `tick_pending` and nothing else; DELIVER with the flag set clears it,
sets `tv_csr.INT` (bit 4) and posts `LINE_TV` (OPEN) once. -/
def Obligations.TickSetsAndDeliverPosts : Prop :=
  ∀ s : State,
    decodeTransaction ⟨0xC004, .absent⟩ = .ok .evTick ∧
    decodeTransaction ⟨0xC005, .absent⟩ = .ok .evDeliver ∧
    exec .evTick s = .next { s with timing := { s.timing with tickPending := true }, reply := .nothing } ∧
    (s.timing.tickPending = true → exec .evDeliver s = .next { s with
      timing := { s.timing with tickPending := false, tvCsr := s.timing.tvCsr ||| 0x10 }
      history := .post Config.lineTv :: s.history
      reply := .nothing })

/-- DELIVER while `tick_pending` = 0 is not enabled ("no step", 44_timing.md R273, vector V-T7): the
model's choice is that an offered one changes nothing (log 9). -/
def Obligations.DeliverNotEnabledChangesNothing : Prop :=
  ∀ s : State, s.timing.tickPending = false → exec .evDeliver s = .next { s with reply := .nothing }

/-- 44_timing.md R277: any number of TICKs before a DELIVER give exactly one `Post(LINE_TV)`. -/
def Obligations.TicksCoalesce : Prop :=
  ∀ (n : Nat) (s : State) (rest : List Input),
    s.env.inputs = List.replicate (n + 1) (.transaction ⟨0xC004, .absent⟩) ++
      .transaction ⟨0xC005, .absent⟩ :: rest →
    Host.Core.run Sys2Proof.core (n + 2) s = .next { s with
      timing := { s.timing with tickPending := false, tvCsr := s.timing.tvCsr ||| 0x10 }
      history := .post Config.lineTv :: s.history
      reply := .nothing
      env := { s.env with inputs := rest } }

/-- 44_timing.md R274, R275: the display CSR reads whole without acknowledging; a write stores `v` with
`INT` (bit 4) clear. -/
def Obligations.DisplayCsrWriteAcknowledges : Prop :=
  ∀ (s : State) (v : Word),
    decodeTransaction ⟨0x8000, .absent⟩ = .ok .tvRdCsr ∧
    decodeTransaction ⟨0xA000, .word32 v⟩ = .ok (.tvWrCsr v) ∧
    exec .tvRdCsr s = .next { s with reply := .word32 s.timing.tvCsr } ∧
    exec (.tvWrCsr v) s = .next { s with
      timing := { s.timing with tvCsr := v &&& 0xFFFFFFEF }
      reply := .nothing }

/-- RESET (selector 0xC000) puts every component of block state at its reset value, which is also the value
right after reset, and makes no service call (70_reset_and_hazards.md R340); that host memory and the
environment stay as they are is the model's reading (10_state.md R42; log 15, DEDUCED). -/
def Obligations.ResetRestoresEveryRegister : Prop :=
  let disk : DiskRegs :=
    { status := 1, command := 0, clp := 0, da := 0, ma := 0, curUnit := 0, curCyl := 0,
      curHead := 0, curBlock := 0, cyls := 0, heads := 0, blocksPerTrack := 0, media := .detached }
  let iob : IobRegs :=
    { keyScan := 0, kbdCsr := 0, mouseX := 0, mouseY := 0, mouseRawX := 0, mouseRawY := 0,
      btnHead := false, btnMiddle := false, btnTail := false }
  let timing : TimingRegs := { usecLatch := 0, usecT0 := none, tvCsr := 0, tickPending := false }
  State.reset.disk = disk ∧ State.reset.iob = iob ∧ State.reset.timing = timing ∧
  decodeTransaction ⟨0xC000, .absent⟩ = .ok .evReset ∧
  ∀ s : State,
    exec .evReset s = .next { s with disk := disk, iob := iob, timing := timing, reply := .nothing }

/-- 41_disk_commands.md R170: ATTACH of a file of at least 1024 bytes whose word 0 is the magic attaches it
and loads the geometry from words 2, 3, 4; any other file, or none, detaches and keeps the geometry. -/
def Obligations.AttachLoadsGeometryOrDetaches : Prop :=
  ∀ (s : State) (img : List Byte),
    (∀ file, decodeTransaction ⟨0xC001, .image file⟩ = .ok (.evAttach file)) ∧
    (1024 ≤ img.length → imageWord img 0 = 0x4C42414C → exec (.evAttach (.bytes img)) s = .next { s with
      disk := { s.disk with
        cyls := imageWord img 8
        heads := imageWord img 12
        blocksPerTrack := imageWord img 16
        media := .attached img }
      reply := .attach true }) ∧
    (img.length < 1024 ∨ imageWord img 0 ≠ 0x4C42414C → exec (.evAttach (.bytes img)) s = .next { s with
      disk := { s.disk with media := .detached }
      reply := .attach false }) ∧
    exec (.evAttach .unreadable) s = .next { s with
      disk := { s.disk with media := .detached }
      reply := .attach false }

/-- 20_memory.md R65: a host-order word of the image is the little-endian word of its four bytes with the
16-bit halves exchanged, and the exchange is its own inverse. -/
def Obligations.ImageWordsAreHalfSwapped : Prop :=
  (∀ (img : List Byte) (o : Nat) (b0 b1 b2 b3 : Byte), img[o]? = some b0 → img[o + 1]? = some b1 →
    img[o + 2]? = some b2 → img[o + 3]? = some b3 →
    imageWord img o = swapWord .halves
      (b0.setWidth 32 ||| b1.setWidth 32 <<< 8 ||| b2.setWidth 32 <<< 16 ||| b3.setWidth 32 <<< 24)) ∧
  (∀ n : Word, swapWord .halves n = n <<< 16 ||| n >>> 16 ∧ swapWord .halves (swapWord .halves n) = n)

/-! ## The whole machine -/

/-- No transaction of a legal selector can fail, stall or be refused: every instruction answers a next state
in every state (60_exceptions.md R300). For DELIVER while `tick_pending` = 0, which 44_timing.md R273
calls no step, that is the model's choice (log 9). -/
def Obligations.EveryInstructionCompletes : Prop := ∀ (i : Instr) (s : State), ∃ t, exec i s = .next t

/-- The invariant of the machine is kept by every step, from every state that meets it: `status`, `ma`'s
alignment, the geometry of the attached label, the reserved CSR bits, the canonical memory and the
order of clock times. -/
def Obligations.StepKeepsTheInvariant : Prop :=
  ∀ s t : State, Inv s → step s = .next t → Inv t

/-- The state after reset meets the invariant. -/
def Obligations.ResetMeetsTheInvariant : Prop := Inv State.reset

/-- 60_exceptions.md R313 and 20_memory.md R75: a step only adds to the history, posts at most one line,
and the post is its last service call. -/
def Obligations.StepPostsAtMostOnceAndLast : Prop :=
  ∀ s t : State, step s = .next t →
    ∃ new, t.history = new ++ s.history ∧ ∀ older newer e, new = newer ++ e :: older →
      e.isPost = true → newer = []

/-- 60_exceptions.md R310: the four interrupt sources: whatever an instruction posts is the disk done line
by a READ with DONE_INT_EN, the keyboard line by KEY, the mouse line by MOUSE, or the display line by
DELIVER. -/
def Obligations.PostSources : Prop :=
  ∀ (i : Instr) (s t : State) (new : List Event) (line : Nat), exec i s = .next t →
    t.history = new ++ s.history → .post line ∈ new →
    (line = Config.lineDisk ∧
      ((∃ f, i = .dskCmdRead f ∧ f.doneIntEn = true) ∨
        ∃ v, i = .dskWrStart v ∧ s.disk.command &&& 0o1777 = 0 ∧ s.disk.command.getLsbD 11 = true)) ∨
    (line = 0o260 ∧ ∃ code extra, i = .evKey code extra) ∨
    (line = 0o264 ∧ ∃ x y dx dy buttons, i = .evMouse x y dx dy buttons) ∨
    (line = Config.lineTv ∧ i = .evDeliver ∧ s.timing.tickPending = true)

/-- 10_state.md R30 and 41_disk_commands.md R171: the media and the geometry change by ATTACH and RESET only. -/
def Obligations.OnlyAttachAndResetChangeMedia : Prop :=
  ∀ (i : Instr) (s t : State), exec i s = .next t →
    (t.disk.media ≠ s.disk.media ∨ t.disk.cyls ≠ s.disk.cyls ∨ t.disk.heads ≠ s.disk.heads ∨
      t.disk.blocksPerTrack ≠ s.disk.blocksPerTrack) →
    i = .evReset ∨ ∃ file, i = .evAttach file

/-- 10_state.md R40: who sets and who clears each flag: an instruction that changes a flag is one of those
R40 names for that flag, or RESET. -/
def Obligations.FlagSettersAndClearers : Prop :=
  ∀ (i : Instr) (s t : State), exec i s = .next t → i ≠ .evReset →
    t.disk.status = s.disk.status ∧
    (s.iob.kbdCsr.getLsbD 4 = false → t.iob.kbdCsr.getLsbD 4 = true →
      ∃ x y dx dy buttons, i = .evMouse x y dx dy buttons) ∧
    (s.iob.kbdCsr.getLsbD 4 = true → t.iob.kbdCsr.getLsbD 4 = false → i = .iobRdMouseY) ∧
    (s.iob.kbdCsr.getLsbD 5 = false → t.iob.kbdCsr.getLsbD 5 = true → ∃ code extra, i = .evKey code extra) ∧
    (s.iob.kbdCsr.getLsbD 5 = true → t.iob.kbdCsr.getLsbD 5 = false → i = .iobRdKbdLo ∨ i = .iobRdKbdHi) ∧
    t.iob.kbdCsr.getLsbD 6 = s.iob.kbdCsr.getLsbD 6 ∧
    (∀ latch ∈ [IobRegs.btnHead, IobRegs.btnMiddle, IobRegs.btnTail],
      (latch s.iob = false → latch t.iob = true → ∃ x y dx dy buttons, i = .evMouse x y dx dy buttons) ∧
      (latch s.iob = true → latch t.iob = false → i = .iobRdMouseY)) ∧
    (s.timing.tvCsr.getLsbD 4 = false → t.timing.tvCsr.getLsbD 4 = true → i = .evDeliver) ∧
    (s.timing.tvCsr.getLsbD 4 = true → t.timing.tvCsr.getLsbD 4 = false → ∃ v, i = .tvWrCsr v) ∧
    (s.timing.tickPending = false → t.timing.tickPending = true → i = .evTick) ∧
    (s.timing.tickPending = true → t.timing.tickPending = false → i = .evDeliver)

/-- 20_memory.md R73: reads with side effects are exactly the keyboard reads, the mouse-Y read, the beep
read, the microsecond-low read and the network reads: every other read changes nothing but what is
returned. -/
def Obligations.OtherReadsHaveNoSideEffect : Prop :=
  ∀ (i : Instr) (s t : State) (off : Offset),
    i ∈ [.dskRdStatus, .dskRdMa, .dskRdDa, .dskRdEcc, .dskRdStatus2, .dskRdClp, .dskRdDa2, .dskRdZero,
      .iobRdMouseX, .iobRdKbdCsr, .iobRdUsecHi, .iobRdClk60, .iobRdUnmapped off, .tvRdCsr] →
    exec i s = .next t → t = { s with reply := t.reply }

/-- 44_timing.md R270: the environment's clock never goes back. -/
def Obligations.WallClockNeverGoesBack : Prop :=
  ∀ s t : State, step s = .next t → s.env.wallClock ≤ t.env.wallClock

/-- The disk side and the input side do not touch each other: an instruction that is no disk transaction, no
command, no RESET and no ATTACH leaves the disk controller and host memory as they are, and what it
does to the I/O board, the timing subsystem and the returned value does not depend on them. -/
def Obligations.InputSideIsIsolatedFromTheDisk : Prop :=
  ∀ (i : Instr) (s t s' t' : State),
    (∃ tr, encode i = .transaction tr ∧ selSpace tr.selector ≠ 0) →
    i ≠ .evReset → (∀ file, i ≠ .evAttach file) →
    s'.iob = s.iob → s'.timing = s.timing → s'.env = s.env →
    exec i s = .next t → exec i s' = .next t' →
    t.disk = s.disk ∧ t.mem = s.mem ∧ t'.iob = t.iob ∧ t'.timing = t.timing ∧ t'.env = t.env ∧
      t'.reply = t.reply

/-- 41_disk_commands.md R155, R159, R163 and 60_exceptions.md R302: a READ that aborts, at whichever CCW, ends
with the call that failed and posts nothing; a READ in which no call fails completes, and posts `LINE_DISK`,
last and once, exactly if `DONE_INT_EN` is set. -/
def Obligations.ReadPostsExactlyOnNormalCompletion : Prop :=
  ∀ (f : CommandFlags) (s t : State), exec (.dskCmdRead f) s = .next t →
    ∃ new, t.history = new ++ s.history ∧
      ((∃ e ∈ new, e.isFailure = true) →
        (∀ e ∈ new, e.isPost = false) ∧
        ∃ last older, new = last :: older ∧ last.isFailure = true ∧ ∀ e ∈ older, e.isFailure = false) ∧
      ((∀ e ∈ new, e.isFailure = false) → f.doneIntEn = true →
        ∃ older, new = .post Config.lineDisk :: older ∧ ∀ e ∈ older, e.isPost = false) ∧
      (f.doneIntEn = false → ∀ e ∈ new, e.isPost = false)
end

