-- ==== Sys2Proof/Laws/Memory.lean ====
section
/-! SUPPORT. The laws of the words MEM holds: read after write, the canonical form, equal readings are
equal data (log 5). -/

namespace Sys2Proof.Machine

/-- Read after write: the written address answers the word, every other address what it answered. -/
@[simp] theorem Memory.lookup_store (m : Memory) (a b : Nat) (v : Word) :
    Memory.lookup (Memory.store m a v) b = if a = b then some v else Memory.lookup m b := by
  induction m with
  | nil => simp [Memory.store, Memory.lookup]
  | cons cell rest ih =>
    obtain ⟨k, w⟩ := cell
    simp only [Memory.store]
    split
    · simp [Memory.lookup]
    · split
      · next h => subst h; by_cases h : a = b <;> simp [Memory.lookup, h]
      · next h =>
        simp only [Memory.lookup, ih]
        by_cases hk : k = b
        · have : a ≠ b := by omega
          simp [hk, this]
        · simp [hk]

/-- Read after write, for the word an address answers. -/
theorem Memory.read_store (m : Memory) (a b : Nat) (v : Word) :
    Memory.read (Memory.store m a v) b = if a = b then v else Memory.read m b := by
  unfold Memory.read
  rw [Memory.lookup_store]
  split <;> simp

/-- An address below the bound is not listed. -/
theorem Memory.lookup_of_wfFrom {m : Memory} {lo a : Nat} (h : Memory.wfFrom lo m = true) (ha : a < lo) :
    Memory.lookup m a = none := by
  induction m generalizing lo with
  | nil => rfl
  | cons cell rest ih =>
    obtain ⟨k, w⟩ := cell
    simp only [Memory.wfFrom, Bool.and_eq_true, decide_eq_true_eq] at h
    have : k ≠ a := by omega
    simp only [Memory.lookup, this, if_false]
    exact ih h.2 (by omega)

/-- A store keeps the canonical form. -/
theorem Memory.wfFrom_store {m : Memory} {lo a : Nat} (h : Memory.wfFrom lo m = true) (hlo : lo ≤ a)
    (ha : a < 4294967296) (v : Word) : Memory.wfFrom lo (Memory.store m a v) = true := by
  induction m generalizing lo with
  | nil => simp [Memory.store, Memory.wfFrom, hlo, ha]
  | cons cell rest ih =>
    obtain ⟨k, w⟩ := cell
    simp only [Memory.wfFrom, Bool.and_eq_true, decide_eq_true_eq] at h
    simp only [Memory.store]
    split
    · simp [Memory.wfFrom, hlo, ha, h]; omega
    · split
      · next hk => subst hk; simp [Memory.wfFrom, h]
      · simp [Memory.wfFrom, h, ih h.2 (by omega)]

/-- Every memory operation keeps the canonical form: a store at a 32-bit word address. -/
theorem Memory.wf_store {m : Memory} (h : Memory.wf m = true) (a v : Word) :
    Memory.wf (Memory.store m a.toNat v) = true :=
  Memory.wfFrom_store h (Nat.zero_le _) a.isLt v

/-- The words of a block stored one after another keep the canonical form. -/
theorem Memory.wf_storeWords (ws : List Word) :
    ∀ (a : Word) {m : Memory}, Memory.wf m = true → Memory.wf (storeWords a ws m) = true := by
  induction ws with
  | nil => intro a m h; exact h
  | cons v rest ih => intro a m h; exact ih (a + 1) (Memory.wf_store h a v)

/-- The events of a history keep the canonical form. -/
theorem Memory.wf_applyEvents (es : List Event) {m : Memory} (h : Memory.wf m = true) :
    Memory.wf (applyEvents es m) = true := by
  induction es with
  | nil => exact h
  | cons e older ih =>
    cases e with
    | memWrite a v fault => cases fault <;> first | exact Memory.wf_store ih a v | exact ih
    | _ => exact ih

/-- Two canonical memories that list the same words are the same data. -/
theorem Memory.eq_of_lookup_eq {m n : Memory} {lo : Nat} (hm : Memory.wfFrom lo m = true)
    (hn : Memory.wfFrom lo n = true) (h : ∀ a, Memory.lookup m a = Memory.lookup n a) : m = n := by
  induction m generalizing n lo with
  | nil =>
    cases n with
    | nil => rfl
    | cons cell rest => simpa [Memory.lookup] using h cell.1
  | cons cell rest ih =>
    obtain ⟨k, w⟩ := cell
    cases n with
    | nil => simpa [Memory.lookup] using h k
    | cons cell' rest' =>
      obtain ⟨k', w'⟩ := cell'
      simp only [Memory.wfFrom, Bool.and_eq_true, decide_eq_true_eq] at hm hn
      have hkk : k = k' := by
        rcases Nat.lt_trichotomy k k' with hlt | heq | hgt
        · have h1 := h k
          have : k' ≠ k := by omega
          simp [Memory.lookup, this, Memory.lookup_of_wfFrom hn.2 (by omega : k < k' + 1)] at h1
        · exact heq
        · have h1 := h k'
          have : k ≠ k' := by omega
          simp [Memory.lookup, this, Memory.lookup_of_wfFrom hm.2 (by omega : k' < k + 1)] at h1
      subst hkk
      have hw : w = w' := by simpa [Memory.lookup] using h k
      subst hw
      have hrest : rest = rest' := by
        refine ih hm.2 hn.2 fun a => ?_
        by_cases hka : k = a
        · subst hka
          rw [Memory.lookup_of_wfFrom hm.2 (Nat.lt_succ_self _),
            Memory.lookup_of_wfFrom hn.2 (Nat.lt_succ_self _)]
        · simpa [Memory.lookup, hka] using h a
      rw [hrest]

end Sys2Proof.Machine
end

