-- ==== Sys2Proof/Laws/State.lean ====
section
/-! SUPPORT. One lemma for each field of State after each update, true by `rfl`, so that no later
proof unfolds a record update. -/

namespace Sys2Proof.Machine

variable (s : State)

@[simp] theorem State.withDisk_disk (d : DiskRegs) : (s.withDisk d).disk = d := rfl
@[simp] theorem State.withDisk_iob (d : DiskRegs) : (s.withDisk d).iob = s.iob := rfl
@[simp] theorem State.withDisk_timing (d : DiskRegs) : (s.withDisk d).timing = s.timing := rfl
@[simp] theorem State.withDisk_mem (d : DiskRegs) : (s.withDisk d).mem = s.mem := rfl
@[simp] theorem State.withDisk_history (d : DiskRegs) : (s.withDisk d).history = s.history := rfl
@[simp] theorem State.withDisk_reply (d : DiskRegs) : (s.withDisk d).reply = s.reply := rfl
@[simp] theorem State.withDisk_env (d : DiskRegs) : (s.withDisk d).env = s.env := rfl

@[simp] theorem State.withIob_disk (i : IobRegs) : (s.withIob i).disk = s.disk := rfl
@[simp] theorem State.withIob_iob (i : IobRegs) : (s.withIob i).iob = i := rfl
@[simp] theorem State.withIob_timing (i : IobRegs) : (s.withIob i).timing = s.timing := rfl
@[simp] theorem State.withIob_mem (i : IobRegs) : (s.withIob i).mem = s.mem := rfl
@[simp] theorem State.withIob_history (i : IobRegs) : (s.withIob i).history = s.history := rfl
@[simp] theorem State.withIob_reply (i : IobRegs) : (s.withIob i).reply = s.reply := rfl
@[simp] theorem State.withIob_env (i : IobRegs) : (s.withIob i).env = s.env := rfl

@[simp] theorem State.withTiming_disk (t : TimingRegs) : (s.withTiming t).disk = s.disk := rfl
@[simp] theorem State.withTiming_iob (t : TimingRegs) : (s.withTiming t).iob = s.iob := rfl
@[simp] theorem State.withTiming_timing (t : TimingRegs) : (s.withTiming t).timing = t := rfl
@[simp] theorem State.withTiming_mem (t : TimingRegs) : (s.withTiming t).mem = s.mem := rfl
@[simp] theorem State.withTiming_history (t : TimingRegs) : (s.withTiming t).history = s.history := rfl
@[simp] theorem State.withTiming_reply (t : TimingRegs) : (s.withTiming t).reply = s.reply := rfl
@[simp] theorem State.withTiming_env (t : TimingRegs) : (s.withTiming t).env = s.env := rfl

@[simp] theorem State.withMem_disk (m : Memory) : (s.withMem m).disk = s.disk := rfl
@[simp] theorem State.withMem_iob (m : Memory) : (s.withMem m).iob = s.iob := rfl
@[simp] theorem State.withMem_timing (m : Memory) : (s.withMem m).timing = s.timing := rfl
@[simp] theorem State.withMem_mem (m : Memory) : (s.withMem m).mem = m := rfl
@[simp] theorem State.withMem_history (m : Memory) : (s.withMem m).history = s.history := rfl
@[simp] theorem State.withMem_reply (m : Memory) : (s.withMem m).reply = s.reply := rfl
@[simp] theorem State.withMem_env (m : Memory) : (s.withMem m).env = s.env := rfl

@[simp] theorem State.withEnv_disk (e : Env) : (s.withEnv e).disk = s.disk := rfl
@[simp] theorem State.withEnv_iob (e : Env) : (s.withEnv e).iob = s.iob := rfl
@[simp] theorem State.withEnv_timing (e : Env) : (s.withEnv e).timing = s.timing := rfl
@[simp] theorem State.withEnv_mem (e : Env) : (s.withEnv e).mem = s.mem := rfl
@[simp] theorem State.withEnv_history (e : Env) : (s.withEnv e).history = s.history := rfl
@[simp] theorem State.withEnv_reply (e : Env) : (s.withEnv e).reply = s.reply := rfl
@[simp] theorem State.withEnv_env (e : Env) : (s.withEnv e).env = e := rfl

@[simp] theorem State.record_disk (e : Event) : (s.record e).disk = s.disk := rfl
@[simp] theorem State.record_iob (e : Event) : (s.record e).iob = s.iob := rfl
@[simp] theorem State.record_timing (e : Event) : (s.record e).timing = s.timing := rfl
@[simp] theorem State.record_mem (e : Event) : (s.record e).mem = s.mem := rfl
@[simp] theorem State.record_history (e : Event) : (s.record e).history = e :: s.history := rfl
@[simp] theorem State.record_reply (e : Event) : (s.record e).reply = s.reply := rfl
@[simp] theorem State.record_env (e : Event) : (s.record e).env = s.env := rfl

@[simp] theorem State.replying_disk (r : Reply) : (s.replying r).disk = s.disk := rfl
@[simp] theorem State.replying_iob (r : Reply) : (s.replying r).iob = s.iob := rfl
@[simp] theorem State.replying_timing (r : Reply) : (s.replying r).timing = s.timing := rfl
@[simp] theorem State.replying_mem (r : Reply) : (s.replying r).mem = s.mem := rfl
@[simp] theorem State.replying_history (r : Reply) : (s.replying r).history = s.history := rfl
@[simp] theorem State.replying_reply (r : Reply) : (s.replying r).reply = r := rfl
@[simp] theorem State.replying_env (r : Reply) : (s.replying r).env = s.env := rfl

@[simp] theorem State.post_disk (line : Nat) : (s.post line).disk = s.disk := rfl
@[simp] theorem State.post_iob (line : Nat) : (s.post line).iob = s.iob := rfl
@[simp] theorem State.post_timing (line : Nat) : (s.post line).timing = s.timing := rfl
@[simp] theorem State.post_mem (line : Nat) : (s.post line).mem = s.mem := rfl
@[simp] theorem State.post_history (line : Nat) : (s.post line).history = .post line :: s.history := rfl
@[simp] theorem State.post_reply (line : Nat) : (s.post line).reply = s.reply := rfl
@[simp] theorem State.post_env (line : Nat) : (s.post line).env = s.env := rfl

@[simp] theorem State.memRead_disk (a : Word) : (s.memRead a).disk = s.disk := rfl
@[simp] theorem State.memRead_iob (a : Word) : (s.memRead a).iob = s.iob := rfl
@[simp] theorem State.memRead_timing (a : Word) : (s.memRead a).timing = s.timing := rfl
@[simp] theorem State.memRead_mem (a : Word) : (s.memRead a).mem = s.mem := rfl
@[simp] theorem State.memRead_history (a : Word) : (s.memRead a).history = .memRead a (s.memAnswer a) :: s.history := rfl
@[simp] theorem State.memRead_reply (a : Word) : (s.memRead a).reply = s.reply := rfl
@[simp] theorem State.memRead_env (a : Word) : (s.memRead a).env = s.env.dropMemReadFault := rfl

@[simp] theorem State.memWrite_disk (a v : Word) : (s.memWrite a v).disk = s.disk := rfl
@[simp] theorem State.memWrite_iob (a v : Word) : (s.memWrite a v).iob = s.iob := rfl
@[simp] theorem State.memWrite_timing (a v : Word) : (s.memWrite a v).timing = s.timing := rfl
@[simp] theorem State.memWrite_mem (a v : Word) : (s.memWrite a v).mem = if s.env.nextMemWriteFault then s.mem else Memory.store s.mem a.toNat v := rfl
@[simp] theorem State.memWrite_history (a v : Word) : (s.memWrite a v).history = .memWrite a v s.env.nextMemWriteFault :: s.history := rfl
@[simp] theorem State.memWrite_reply (a v : Word) : (s.memWrite a v).reply = s.reply := rfl
@[simp] theorem State.memWrite_env (a v : Word) : (s.memWrite a v).env = s.env.dropMemWriteFault := rfl

@[simp] theorem State.mediaRead_disk (img : List Byte) (k : Nat) : (s.mediaRead img k).disk = s.disk := rfl
@[simp] theorem State.mediaRead_iob (img : List Byte) (k : Nat) : (s.mediaRead img k).iob = s.iob := rfl
@[simp] theorem State.mediaRead_timing (img : List Byte) (k : Nat) : (s.mediaRead img k).timing = s.timing := rfl
@[simp] theorem State.mediaRead_mem (img : List Byte) (k : Nat) : (s.mediaRead img k).mem = s.mem := rfl
@[simp] theorem State.mediaRead_history (img : List Byte) (k : Nat) : (s.mediaRead img k).history = .mediaRead k (s.mediaAnswer img k) :: s.history := rfl
@[simp] theorem State.mediaRead_reply (img : List Byte) (k : Nat) : (s.mediaRead img k).reply = s.reply := rfl
@[simp] theorem State.mediaRead_env (img : List Byte) (k : Nat) : (s.mediaRead img k).env = if blockInImage img k then s.env.dropMediaFail else s.env := rfl

@[simp] theorem State.netRead_disk (off : Offset) : (s.netRead off).disk = s.disk := rfl
@[simp] theorem State.netRead_iob (off : Offset) : (s.netRead off).iob = s.iob := rfl
@[simp] theorem State.netRead_timing (off : Offset) : (s.netRead off).timing = s.timing := rfl
@[simp] theorem State.netRead_mem (off : Offset) : (s.netRead off).mem = s.mem := rfl
@[simp] theorem State.netRead_history (off : Offset) : (s.netRead off).history = .netRead off s.env.nextNetAnswer :: s.history := rfl
@[simp] theorem State.netRead_reply (off : Offset) : (s.netRead off).reply = s.reply := rfl
@[simp] theorem State.netRead_env (off : Offset) : (s.netRead off).env = s.env.dropNetAnswer := rfl

@[simp] theorem State.sample_disk : (s.sample).disk = s.disk := rfl
@[simp] theorem State.sample_iob : (s.sample).iob = s.iob := rfl
@[simp] theorem State.sample_timing : (s.sample).timing = { s.timing with
      usecLatch := sampleValue s.timing.usecT0 s.env.now
      usecT0 := some (sampleT0 s.timing.usecT0 s.env.now) } := rfl
@[simp] theorem State.sample_mem : (s.sample).mem = s.mem := rfl
@[simp] theorem State.sample_history : (s.sample).history = s.history := rfl
@[simp] theorem State.sample_reply : (s.sample).reply = s.reply := rfl
@[simp] theorem State.sample_env : (s.sample).env = s.env.afterNow := rfl

@[simp] theorem State.decodeDa_disk : (s.decodeDa).disk = s.disk.decodeDa := rfl
@[simp] theorem State.decodeDa_iob : (s.decodeDa).iob = s.iob := rfl
@[simp] theorem State.decodeDa_timing : (s.decodeDa).timing = s.timing := rfl
@[simp] theorem State.decodeDa_mem : (s.decodeDa).mem = s.mem := rfl
@[simp] theorem State.decodeDa_history : (s.decodeDa).history = s.history := rfl
@[simp] theorem State.decodeDa_reply : (s.decodeDa).reply = s.reply := rfl
@[simp] theorem State.decodeDa_env : (s.decodeDa).env = s.env := rfl

@[simp] theorem State.fetchCcw_disk (ccw : Word) : (s.fetchCcw ccw).disk = { s.disk with ma := ccwBase ccw } := rfl
@[simp] theorem State.fetchCcw_iob (ccw : Word) : (s.fetchCcw ccw).iob = s.iob := rfl
@[simp] theorem State.fetchCcw_timing (ccw : Word) : (s.fetchCcw ccw).timing = s.timing := rfl
@[simp] theorem State.fetchCcw_mem (ccw : Word) : (s.fetchCcw ccw).mem = s.mem := rfl
@[simp] theorem State.fetchCcw_history (ccw : Word) : (s.fetchCcw ccw).history = .memRead s.disk.clp (s.memAnswer s.disk.clp) :: s.history := rfl
@[simp] theorem State.fetchCcw_reply (ccw : Word) : (s.fetchCcw ccw).reply = s.reply := rfl
@[simp] theorem State.fetchCcw_env (ccw : Word) : (s.fetchCcw ccw).env = s.env.dropMemReadFault := rfl

@[simp] theorem State.resetBlock_disk : (s.resetBlock).disk = DiskRegs.reset := rfl
@[simp] theorem State.resetBlock_iob : (s.resetBlock).iob = IobRegs.reset := rfl
@[simp] theorem State.resetBlock_timing : (s.resetBlock).timing = TimingRegs.reset := rfl
@[simp] theorem State.resetBlock_mem : (s.resetBlock).mem = s.mem := rfl
@[simp] theorem State.resetBlock_history : (s.resetBlock).history = s.history := rfl
@[simp] theorem State.resetBlock_reply : (s.resetBlock).reply = s.reply := rfl
@[simp] theorem State.resetBlock_env : (s.resetBlock).env = s.env := rfl

@[simp] theorem State.takeInput_disk (rest : List Input) : (s.takeInput rest).disk = s.disk := rfl
@[simp] theorem State.takeInput_iob (rest : List Input) : (s.takeInput rest).iob = s.iob := rfl
@[simp] theorem State.takeInput_timing (rest : List Input) : (s.takeInput rest).timing = s.timing := rfl
@[simp] theorem State.takeInput_mem (rest : List Input) : (s.takeInput rest).mem = s.mem := rfl
@[simp] theorem State.takeInput_history (rest : List Input) : (s.takeInput rest).history = s.history := rfl
@[simp] theorem State.takeInput_reply (rest : List Input) : (s.takeInput rest).reply = s.reply := rfl
@[simp] theorem State.takeInput_env (rest : List Input) : (s.takeInput rest).env = { s.env with inputs := rest } := rfl

@[simp] theorem State.offer_disk (input : Input) : (s.offer input).disk = s.disk := rfl
@[simp] theorem State.offer_iob (input : Input) : (s.offer input).iob = s.iob := rfl
@[simp] theorem State.offer_timing (input : Input) : (s.offer input).timing = s.timing := rfl
@[simp] theorem State.offer_mem (input : Input) : (s.offer input).mem = s.mem := rfl
@[simp] theorem State.offer_history (input : Input) : (s.offer input).history = s.history := rfl
@[simp] theorem State.offer_reply (input : Input) : (s.offer input).reply = s.reply := rfl
@[simp] theorem State.offer_env (input : Input) : (s.offer input).env = { s.env with inputs := input :: s.env.inputs } := rfl

variable (e : Env)

@[simp] theorem Env.dropMemReadFault_inputs : e.dropMemReadFault.inputs = e.inputs := by
  unfold Env.dropMemReadFault; split <;> rfl
@[simp] theorem Env.dropMemReadFault_memWriteFaults : e.dropMemReadFault.memWriteFaults = e.memWriteFaults := by
  unfold Env.dropMemReadFault; split <;> rfl
@[simp] theorem Env.dropMemReadFault_mediaFails : e.dropMemReadFault.mediaFails = e.mediaFails := by
  unfold Env.dropMemReadFault; split <;> rfl
@[simp] theorem Env.dropMemReadFault_netAnswers : e.dropMemReadFault.netAnswers = e.netAnswers := by
  unfold Env.dropMemReadFault; split <;> rfl
@[simp] theorem Env.dropMemReadFault_clockAdvances : e.dropMemReadFault.clockAdvances = e.clockAdvances := by
  unfold Env.dropMemReadFault; split <;> rfl
@[simp] theorem Env.dropMemReadFault_wallClock : e.dropMemReadFault.wallClock = e.wallClock := by
  unfold Env.dropMemReadFault; split <;> rfl

@[simp] theorem Env.dropMemWriteFault_inputs : e.dropMemWriteFault.inputs = e.inputs := by
  unfold Env.dropMemWriteFault; split <;> rfl
@[simp] theorem Env.dropMemWriteFault_memReadFaults : e.dropMemWriteFault.memReadFaults = e.memReadFaults := by
  unfold Env.dropMemWriteFault; split <;> rfl
@[simp] theorem Env.dropMemWriteFault_mediaFails : e.dropMemWriteFault.mediaFails = e.mediaFails := by
  unfold Env.dropMemWriteFault; split <;> rfl
@[simp] theorem Env.dropMemWriteFault_netAnswers : e.dropMemWriteFault.netAnswers = e.netAnswers := by
  unfold Env.dropMemWriteFault; split <;> rfl
@[simp] theorem Env.dropMemWriteFault_clockAdvances : e.dropMemWriteFault.clockAdvances = e.clockAdvances := by
  unfold Env.dropMemWriteFault; split <;> rfl
@[simp] theorem Env.dropMemWriteFault_wallClock : e.dropMemWriteFault.wallClock = e.wallClock := by
  unfold Env.dropMemWriteFault; split <;> rfl

@[simp] theorem Env.dropMediaFail_inputs : e.dropMediaFail.inputs = e.inputs := by
  unfold Env.dropMediaFail; split <;> rfl
@[simp] theorem Env.dropMediaFail_memReadFaults : e.dropMediaFail.memReadFaults = e.memReadFaults := by
  unfold Env.dropMediaFail; split <;> rfl
@[simp] theorem Env.dropMediaFail_memWriteFaults : e.dropMediaFail.memWriteFaults = e.memWriteFaults := by
  unfold Env.dropMediaFail; split <;> rfl
@[simp] theorem Env.dropMediaFail_netAnswers : e.dropMediaFail.netAnswers = e.netAnswers := by
  unfold Env.dropMediaFail; split <;> rfl
@[simp] theorem Env.dropMediaFail_clockAdvances : e.dropMediaFail.clockAdvances = e.clockAdvances := by
  unfold Env.dropMediaFail; split <;> rfl
@[simp] theorem Env.dropMediaFail_wallClock : e.dropMediaFail.wallClock = e.wallClock := by
  unfold Env.dropMediaFail; split <;> rfl

@[simp] theorem Env.dropNetAnswer_inputs : e.dropNetAnswer.inputs = e.inputs := by
  unfold Env.dropNetAnswer; split <;> rfl
@[simp] theorem Env.dropNetAnswer_memReadFaults : e.dropNetAnswer.memReadFaults = e.memReadFaults := by
  unfold Env.dropNetAnswer; split <;> rfl
@[simp] theorem Env.dropNetAnswer_memWriteFaults : e.dropNetAnswer.memWriteFaults = e.memWriteFaults := by
  unfold Env.dropNetAnswer; split <;> rfl
@[simp] theorem Env.dropNetAnswer_mediaFails : e.dropNetAnswer.mediaFails = e.mediaFails := by
  unfold Env.dropNetAnswer; split <;> rfl
@[simp] theorem Env.dropNetAnswer_clockAdvances : e.dropNetAnswer.clockAdvances = e.clockAdvances := by
  unfold Env.dropNetAnswer; split <;> rfl
@[simp] theorem Env.dropNetAnswer_wallClock : e.dropNetAnswer.wallClock = e.wallClock := by
  unfold Env.dropNetAnswer; split <;> rfl

@[simp] theorem Env.afterNow_inputs : e.afterNow.inputs = e.inputs := by
  unfold Env.afterNow; split <;> rfl
@[simp] theorem Env.afterNow_memReadFaults : e.afterNow.memReadFaults = e.memReadFaults := by
  unfold Env.afterNow; split <;> rfl
@[simp] theorem Env.afterNow_memWriteFaults : e.afterNow.memWriteFaults = e.memWriteFaults := by
  unfold Env.afterNow; split <;> rfl
@[simp] theorem Env.afterNow_mediaFails : e.afterNow.mediaFails = e.mediaFails := by
  unfold Env.afterNow; split <;> rfl
@[simp] theorem Env.afterNow_netAnswers : e.afterNow.netAnswers = e.netAnswers := by
  unfold Env.afterNow; split <;> rfl
@[simp] theorem Env.afterNow_wallClock : e.afterNow.wallClock = e.now := by
  unfold Env.afterNow; split <;> rfl

/-- A clock draw is never before the last one (44_timing.md R270). -/
theorem Env.wallClock_le_now : e.wallClock ≤ e.now := Nat.le_add_right _ _

variable (d : DiskRegs)

@[simp] theorem DiskRegs.decodeDa_status : d.decodeDa.status = d.status := rfl
@[simp] theorem DiskRegs.decodeDa_command : d.decodeDa.command = d.command := rfl
@[simp] theorem DiskRegs.decodeDa_clp : d.decodeDa.clp = d.clp := rfl
@[simp] theorem DiskRegs.decodeDa_da : d.decodeDa.da = d.da := rfl
@[simp] theorem DiskRegs.decodeDa_ma : d.decodeDa.ma = d.ma := rfl
@[simp] theorem DiskRegs.decodeDa_cyls : d.decodeDa.cyls = d.cyls := rfl
@[simp] theorem DiskRegs.decodeDa_heads : d.decodeDa.heads = d.heads := rfl
@[simp] theorem DiskRegs.decodeDa_blocksPerTrack : d.decodeDa.blocksPerTrack = d.blocksPerTrack := rfl
@[simp] theorem DiskRegs.decodeDa_media : d.decodeDa.media = d.media := rfl

@[simp] theorem DiskRegs.advance_status (r : Rollover) : (d.advance r).status = d.status := by
  unfold DiskRegs.advance; split <;> [split; skip] <;> rfl
@[simp] theorem DiskRegs.advance_command (r : Rollover) : (d.advance r).command = d.command := by
  unfold DiskRegs.advance; split <;> [split; skip] <;> rfl
@[simp] theorem DiskRegs.advance_clp (r : Rollover) : (d.advance r).clp = d.clp := by
  unfold DiskRegs.advance; split <;> [split; skip] <;> rfl
@[simp] theorem DiskRegs.advance_da (r : Rollover) : (d.advance r).da = d.da := by
  unfold DiskRegs.advance; split <;> [split; skip] <;> rfl
@[simp] theorem DiskRegs.advance_ma (r : Rollover) : (d.advance r).ma = d.ma := by
  unfold DiskRegs.advance; split <;> [split; skip] <;> rfl
@[simp] theorem DiskRegs.advance_curUnit (r : Rollover) : (d.advance r).curUnit = d.curUnit := by
  unfold DiskRegs.advance; split <;> [split; skip] <;> rfl
@[simp] theorem DiskRegs.advance_cyls (r : Rollover) : (d.advance r).cyls = d.cyls := by
  unfold DiskRegs.advance; split <;> [split; skip] <;> rfl
@[simp] theorem DiskRegs.advance_heads (r : Rollover) : (d.advance r).heads = d.heads := by
  unfold DiskRegs.advance; split <;> [split; skip] <;> rfl
@[simp] theorem DiskRegs.advance_blocksPerTrack (r : Rollover) : (d.advance r).blocksPerTrack = d.blocksPerTrack := by
  unfold DiskRegs.advance; split <;> [split; skip] <;> rfl
@[simp] theorem DiskRegs.advance_media (r : Rollover) : (d.advance r).media = d.media := by
  unfold DiskRegs.advance; split <;> [split; skip] <;> rfl

/-- `Advance()` neither reads nor writes `clp` and `ma`. -/
theorem DiskRegs.advance_setClpMa (r : Rollover) (c m : Word) :
    DiskRegs.advance r { d with clp := c, ma := m } = { d.advance r with clp := c, ma := m } := by
  unfold DiskRegs.advance; dsimp only; split <;> [split; skip] <;> rfl

/-- The counters are all `Advance()` changes. -/
theorem DiskRegs.advance_eq (r : Rollover) :
    d.advance r = { d with
      curCyl := (d.advance r).curCyl
      curHead := (d.advance r).curHead
      curBlock := (d.advance r).curBlock } := by
  unfold DiskRegs.advance; split <;> [split; skip] <;> rfl

/-- The register types have the widths of 00_scope.md section 5. -/
theorem register_widths : Word = BitVec Config.diskRegWidth ∧ Half = BitVec Config.iobRegWidth ∧
    Word = BitVec Config.tvCsrWidth ∧ Word = BitVec Config.memWordWidth := ⟨rfl, rfl, rfl, rfl⟩

/-- `Start()` is the meaning of the command the register decodes to (41_disk_commands.md R150). -/
theorem startCommand_eq (s : State) : startCommand s = exec (decodeCommand s.disk.command) s := by
  simp only [startCommand, decodeCommand]
  repeat' first | rfl | split

end Sys2Proof.Machine
end

