-- ==== Sys2Proof/Laws/Transfer.lean ====
section
/-! SUPPORT. What the steps of the CCW-chain read sequence can do, said once for each of them: the words
a faultless copy writes, what a part of a transfer leaves unchanged, how one CCW ends, and the
induction over a chain. -/

namespace Sys2Proof.Machine

/-! ## Words stored one after another -/

/-- The word after `a` in a run of words that does not pass the end of the address space. -/
theorem toNat_succ_of_lt {a : Word} {n : Nat} (h : a.toNat + (n + 1) < 4294967296) :
    (a + 1).toNat = a.toNat + 1 := by
  rw [BitVec.toNat_add]
  exact Nat.mod_eq_of_lt (by simp; omega)

/-- What an address answers after words are stored at ascending addresses from `a`. -/
theorem Memory.read_storeWords (ws : List Word) : ∀ (a : Word) (m : Memory) (b : Nat),
    a.toNat + ws.length < 4294967296 →
    Memory.read (storeWords a ws m) b =
      if h : a.toNat ≤ b ∧ b < a.toNat + ws.length then ws[b - a.toNat]'(by omega)
      else Memory.read m b := by
  induction ws with
  | nil =>
    intro a m b _
    have : ¬ (a.toNat ≤ b ∧ b < a.toNat + 0) := by omega
    simp only [storeWords, List.length_nil, dif_neg this]
  | cons v rest ih =>
    intro a m b h
    have hs : (a + 1).toNat = a.toNat + 1 := toNat_succ_of_lt h
    rw [List.length_cons] at h
    rw [storeWords, ih (a + 1) _ b (by omega), Memory.read_store]
    rcases Nat.lt_trichotomy b a.toNat with hlt | heq | hgt
    · have h1 : ¬ ((a + 1).toNat ≤ b ∧ b < (a + 1).toNat + rest.length) := by omega
      have h2 : ¬ (a.toNat ≤ b ∧ b < a.toNat + (v :: rest).length) := by omega
      have h3 : a.toNat ≠ b := by omega
      simp only [h1, h2, h3, if_false, dif_neg, not_false_eq_true]
    · have h1 : ¬ ((a + 1).toNat ≤ b ∧ b < (a + 1).toNat + rest.length) := by omega
      have h2 : a.toNat ≤ b ∧ b < a.toNat + (v :: rest).length := by simp; omega
      simp only [dif_neg h1, dif_pos h2, if_pos heq.symm]
      simp [heq]
    · have h3 : a.toNat ≠ b := by omega
      by_cases hb : b < a.toNat + (v :: rest).length
      · have h1 : (a + 1).toNat ≤ b ∧ b < (a + 1).toNat + rest.length := by
          simp only [List.length_cons] at hb; omega
        have h2 : a.toNat ≤ b ∧ b < a.toNat + (v :: rest).length := by omega
        rw [dif_pos h1, dif_pos h2]
        have he : b - a.toNat = (b - (a + 1).toNat) + 1 := by omega
        simp only [he, List.getElem_cons_succ]
      · have h1 : ¬ ((a + 1).toNat ≤ b ∧ b < (a + 1).toNat + rest.length) := by
          simp only [List.length_cons] at hb; omega
        have h2 : ¬ (a.toNat ≤ b ∧ b < a.toNat + (v :: rest).length) := by omega
        rw [dif_neg h1, dif_neg h2, if_neg h3]

/-- A faultless copy writes every word and goes on. -/
theorem writeWords_faultless (abortOnFault : Bool) (ws : List Word) :
    ∀ (a : Word) (s : State) (more : List Bool),
    s.env.memWriteFaults = List.replicate ws.length false ++ more →
    writeWords abortOnFault a ws s = .ongoing { s with
      mem := storeWords a ws s.mem
      history := writeEvents a ws ++ s.history
      env := { s.env with memWriteFaults := more } } := by
  induction ws with
  | nil =>
    intro a s more h
    simp only [List.length_nil, List.replicate_zero, List.nil_append] at h
    simp [writeWords, storeWords, writeEvents, ← h]
  | cons v rest ih =>
    intro a s more h
    rw [List.length_cons, List.replicate_succ, List.cons_append] at h
    have hn : s.env.nextMemWriteFault = false := by simp [Env.nextMemWriteFault, h]
    have hd : s.env.dropMemWriteFault =
        { s.env with memWriteFaults := List.replicate rest.length false ++ more } := by
      simp [Env.dropMemWriteFault, h]
    rw [writeWords, hn, Bool.false_and, if_neg (by simp),
      ih (a + 1) (s.memWrite a v) more (by simp [hd])]
    simp [State.memWrite, State.record, State.withMem, State.withEnv, hn, hd, storeWords, writeEvents]

/-- A copy that meets a fault at its word `j` writes the words before it and aborts there. -/
theorem writeWords_fault (ws : List Word) : ∀ (j : Nat) (a : Word) (s : State) (more : List Bool)
    (hj : j < ws.length), s.env.memWriteFaults = List.replicate j false ++ true :: more →
    writeWords true a ws s = .aborted { s with
      mem := storeWords a (ws.take j) s.mem
      history := .memWrite (a + BitVec.ofNat 32 j) ws[j] true :: writeEvents a (ws.take j) ++ s.history
      env := { s.env with memWriteFaults := more } } := by
  induction ws with
  | nil => intro j a s more hj; simp at hj
  | cons v rest ih =>
    intro j a s more hj h
    cases j with
    | zero =>
      simp only [List.replicate_zero, List.nil_append] at h
      have hn : s.env.nextMemWriteFault = true := by simp [Env.nextMemWriteFault, h]
      have hd : s.env.dropMemWriteFault = { s.env with memWriteFaults := more } := by
        simp [Env.dropMemWriteFault, h]
      simp [writeWords, hn, State.memWrite, State.record, State.withMem, State.withEnv, hd, storeWords,
        writeEvents]
    | succ j =>
      rw [List.replicate_succ, List.cons_append] at h
      have hn : s.env.nextMemWriteFault = false := by simp [Env.nextMemWriteFault, h]
      have hd : s.env.dropMemWriteFault =
          { s.env with memWriteFaults := List.replicate j false ++ true :: more } := by
        simp [Env.dropMemWriteFault, h]
      have hadd : a + 1#32 + BitVec.ofNat 32 j = a + BitVec.ofNat 32 (j + 1) := by
        rw [Nat.add_comm j 1, BitVec.ofNat_add, BitVec.add_assoc]
      rw [writeWords, hn, Bool.false_and, if_neg (by simp),
        ih j (a + 1) (s.memWrite a v) more (by simpa using hj) (by simp [hd])]
      simp [State.memWrite, State.record, State.withMem, State.withEnv, hn, hd, storeWords, writeEvents,
        hadd]

/-! ## Answers and copies without a fault -/

theorem imageBlock_length (img : List Byte) (k : Nat) : (imageBlock img k).length = 256 := by
  simp [imageBlock, Config.blockWords]

theorem synthLabelWords_length : synthLabelWords.length = 256 := List.length_ofFn

/-- A MemRead without a fault answers the word at the address. -/
theorem State.memAnswer_of_read {s : State} {a w : Word} {more : List Bool}
    (h : s.env.memReadFaults = false :: more) (hl : Memory.read s.mem a.toNat = w) :
    s.memAnswer a = some w := by
  simp [State.memAnswer, Env.nextMemReadFault, h, hl]

/-- A MemRead with a fault answers nothing. -/
theorem State.memAnswer_of_fault {s : State} {a : Word} {more : List Bool}
    (h : s.env.memReadFaults = true :: more) : s.memAnswer a = none := by
  simp [State.memAnswer, Env.nextMemReadFault, h]

/-- The state after a CCW fetch without a fault. -/
theorem State.fetchCcw_of_read {s : State} {ccw : Word} {more : List Bool}
    (h : s.env.memReadFaults = false :: more) (hl : Memory.read s.mem s.disk.clp.toNat = ccw) :
    s.fetchCcw ccw = { s with
      disk := { s.disk with ma := ccwBase ccw }
      history := .memRead s.disk.clp (some ccw) :: s.history
      env := { s.env with memReadFaults := more } } := by
  simp [State.fetchCcw, State.memRead, State.withDisk, State.record, State.withEnv,
    State.memAnswer_of_read h hl, Env.dropMemReadFault, h]

/-- With no image and away from (0,0,0,0) a copy does nothing (41_disk_commands.md R158). -/
theorem copyBlock_skip {s : State} (k : Nat) (base : Word) (hm : s.disk.media = .detached)
    (ho : s.disk.atOrigin = false) : copyBlock k base s = .ongoing s := by
  simp only [copyBlock, hm, ho]; rfl

/-- With no image, a copy at (0,0,0,0) without a fault writes the synthetic label (41_disk_commands.md R158). -/
theorem copyBlock_label {s : State} (k : Nat) (base : Word) {more : List Bool}
    (hm : s.disk.media = .detached) (ho : s.disk.atOrigin = true)
    (hw : s.env.memWriteFaults = List.replicate 256 false ++ more) :
    copyBlock k base s = .ongoing { s with
      mem := storeWords base synthLabelWords s.mem
      history := writeEvents base synthLabelWords ++ s.history
      env := { s.env with memWriteFaults := more } } := by
  simp only [copyBlock, hm, ho, if_true]
  exact writeWords_faultless _ _ _ _ more (by rw [synthLabelWords_length]; exact hw)

/-- The state after a MediaRead inside the file without an I/O error. -/
theorem State.mediaRead_of_ok {s : State} {img : List Byte} {k : Nat} {more : List Bool}
    (hi : blockInImage img k = true) (h : s.env.mediaFails = false :: more) :
    s.mediaAnswer img k = some (imageBlock img k) ∧ s.mediaRead img k = { s with
      history := .mediaRead k (some (imageBlock img k)) :: s.history
      env := { s.env with mediaFails := more } } := by
  have ha : s.mediaAnswer img k = some (imageBlock img k) := by
    simp [State.mediaAnswer, hi, Env.nextMediaFail, h]
  exact ⟨ha, by simp [State.mediaRead, State.record, State.withEnv, ha, hi, Env.dropMediaFail, h]⟩

/-- With an image, a copy without a failure writes the block's words (41_disk_commands.md R158). -/
theorem copyBlock_image {s : State} {img : List Byte} {k : Nat} (base : Word) {more medias : List Bool}
    (hm : s.disk.media = .attached img) (hi : blockInImage img k = true)
    (hf : s.env.mediaFails = false :: medias)
    (hw : s.env.memWriteFaults = List.replicate 256 false ++ more) :
    copyBlock k base s = .ongoing { s with
      mem := storeWords base (imageBlock img k) s.mem
      history := writeEvents base (imageBlock img k) ++
        .mediaRead k (some (imageBlock img k)) :: s.history
      env := { s.env with memWriteFaults := more, mediaFails := medias } } := by
  obtain ⟨ha, hr⟩ := State.mediaRead_of_ok (s := s) hi hf
  simp only [copyBlock, hm, ha, hr]
  rw [writeWords_faultless _ _ _ _ more (by rw [imageBlock_length]; exact hw)]

/-- The words of an image block (20_memory.md R64, R66). -/
theorem imageBlock_getElem (img : List Byte) (k j : Nat) (h : j < (imageBlock img k).length) :
    (imageBlock img k)[j] = imageWord img (1024 * k + 4 * j) := by
  simp [imageBlock, Config.blockBytes]

/-! ## What a part of a transfer does -/

/-- What any part of a transfer does: it adds events to the history, none of them a post, applies their
writes to memory, and changes of the rest only the transfer's own registers and answers. -/
structure TransferPart (s t : State) (new : List Event) : Prop where
  history : t.history = new ++ s.history
  memory  : t.mem = applyEvents new s.mem
  noPost  : ∀ e ∈ new, e.isPost = false
  iob     : t.iob = s.iob
  timing  : t.timing = s.timing
  reply   : t.reply = s.reply
  disk    : t.disk = { s.disk with
    clp := t.disk.clp
    ma := t.disk.ma
    curUnit := t.disk.curUnit
    curCyl := t.disk.curCyl
    curHead := t.disk.curHead
    curBlock := t.disk.curBlock }
  env     : t.env = { s.env with
    memReadFaults := t.env.memReadFaults
    memWriteFaults := t.env.memWriteFaults
    mediaFails := t.env.mediaFails
    draws := t.env.draws }

theorem applyEvents_append (new old : List Event) (m : Memory) :
    applyEvents (new ++ old) m = applyEvents new (applyEvents old m) := by
  induction new with
  | nil => rfl
  | cons e rest ih => simp [applyEvents, ih]

theorem TransferPart.refl (s : State) : TransferPart s s [] :=
  ⟨rfl, rfl, by simp, rfl, rfl, rfl, rfl, rfl⟩

/-- Two parts one after the other are a part. -/
theorem TransferPart.trans {s t u : State} {old new : List Event} (h : TransferPart s t old)
    (h' : TransferPart t u new) : TransferPart s u (new ++ old) where
  history := by rw [h'.history, h.history, List.append_assoc]
  memory := by rw [h'.memory, h.memory, applyEvents_append]
  noPost := by
    intro e he
    rcases List.mem_append.mp he with h1 | h1
    · exact h'.noPost e h1
    · exact h.noPost e h1
  iob := h'.iob.trans h.iob
  timing := h'.timing.trans h.timing
  reply := h'.reply.trans h.reply
  disk := by rw [h'.disk, h.disk]
  env := by rw [h'.env, h.env]

/-- `MemRead` is a part of a transfer. -/
theorem State.memRead_part (a : Word) (s : State) :
    TransferPart s (s.memRead a) [.memRead a (s.memAnswer a)] where
  history := rfl
  memory := rfl
  noPost := by simp [Event.isPost]
  iob := rfl
  timing := rfl
  reply := rfl
  disk := rfl
  env := by simp only [State.memRead_env]; unfold Env.dropMemReadFault; split <;> rfl

/-- `MemWrite` is a part of a transfer. -/
theorem State.memWrite_part (a v : Word) (s : State) :
    TransferPart s (s.memWrite a v) [.memWrite a v s.env.nextMemWriteFault] where
  history := rfl
  memory := by cases h : s.env.nextMemWriteFault <;> simp [applyEvents, Event.applyTo, h]
  noPost := by simp [Event.isPost]
  iob := rfl
  timing := rfl
  reply := rfl
  disk := rfl
  env := by simp only [State.memWrite_env]; unfold Env.dropMemWriteFault; split <;> rfl

/-- `MediaRead` is a part of a transfer. -/
theorem State.mediaRead_part (img : List Byte) (k : Nat) (s : State) :
    TransferPart s (s.mediaRead img k) [.mediaRead k (s.mediaAnswer img k)] where
  history := rfl
  memory := rfl
  noPost := by simp [Event.isPost]
  iob := rfl
  timing := rfl
  reply := rfl
  disk := rfl
  env := by
    simp only [State.mediaRead_env]
    split
    · unfold Env.dropMediaFail; split <;> rfl
    · rfl

/-- A change of the transfer's own registers is a part of a transfer. -/
theorem State.withDisk_part {d : DiskRegs} {s : State}
    (h : d = { s.disk with
      clp := d.clp
      ma := d.ma
      curUnit := d.curUnit
      curCyl := d.curCyl
      curHead := d.curHead
      curBlock := d.curBlock }) : TransferPart s (s.withDisk d) [] :=
  ⟨rfl, rfl, by simp, rfl, rfl, rfl, h, rfl⟩

/-- The state a transfer has come to. -/
def Transfer.state : Transfer → State
  | .ongoing s => s
  | .aborted s => s

/-- Every event is a write into the `n` words from `a`. -/
def WritesWithin (a n : Nat) (es : List Event) : Prop :=
  ∀ e ∈ es, ∃ b v fault, e = .memWrite b v fault ∧ a ≤ b.toNat ∧ b.toNat < a + n

/-- What writing words does: a part of a transfer whose events are writes at ascending addresses. -/
theorem writeWords_part (abortOnFault : Bool) (ws : List Word) : ∀ (a : Word) (s : State),
    a.toNat + ws.length < 4294967296 →
    ∃ new, TransferPart s (writeWords abortOnFault a ws s).state new ∧
      (writeWords abortOnFault a ws s).state.disk = s.disk ∧ WritesWithin a.toNat ws.length new := by
  induction ws with
  | nil => intro a s _; exact ⟨[], TransferPart.refl s, rfl, by simp [WritesWithin]⟩
  | cons v rest ih =>
    intro a s h
    have hs : (a + 1).toNat = a.toNat + 1 := toNat_succ_of_lt h
    rw [List.length_cons] at h
    rw [writeWords]
    split
    · refine ⟨_, s.memWrite_part a v, rfl, ?_⟩
      intro e he
      simp only [List.mem_singleton] at he
      exact ⟨a, v, _, he, Nat.le_refl _, by simp⟩
    · obtain ⟨new, hp, hd, hw⟩ := ih (a + 1) (s.memWrite a v) (by omega)
      refine ⟨_, (s.memWrite_part a v).trans hp, hd, ?_⟩
      intro e he
      rcases List.mem_append.mp he with h1 | h1
      · obtain ⟨b, w, fault, rfl, h2, h3⟩ := hw e h1
        exact ⟨b, w, fault, rfl, by omega, by simp; omega⟩
      · simp only [List.mem_singleton] at h1
        exact ⟨a, v, _, h1, Nat.le_refl _, by simp⟩

/-- The base of a CCW leaves room for a block (41_disk_commands.md R158: "never overflows"). -/
theorem ccwBase_le (ccw : Word) : (ccwBase ccw).toNat ≤ 0x3FFF00 := by
  rw [ccwBase, Config.ccwAddrMask, BitVec.toNat_and]
  exact Nat.and_le_right

/-- What `CopyBlock` does: at most one MediaRead, then writes into the 256 words from `base`. -/
theorem copyBlock_part (k : Nat) (ccw : Word) (s : State) :
    ∃ writes reads, TransferPart s (copyBlock k (ccwBase ccw) s).state (writes ++ reads) ∧
      (copyBlock k (ccwBase ccw) s).state.disk = s.disk ∧
      WritesWithin (ccwBase ccw).toNat 256 writes ∧
      (reads = [] ∨ ∃ answer, reads = [.mediaRead k answer]) := by
  have hb := ccwBase_le ccw
  have hnone : WritesWithin (ccwBase ccw).toNat 256 [] := by simp [WritesWithin]
  unfold copyBlock
  split
  · next img _ =>
    split
    · exact ⟨[], _, s.mediaRead_part img k, rfl, hnone, .inr ⟨_, rfl⟩⟩
    · next words hw =>
      have hlen : words.length = 256 := by
        unfold State.mediaAnswer at hw
        split at hw
        · rw [← Option.some.inj hw]; exact imageBlock_length img k
        · cases hw
      obtain ⟨new, hp, hd, hin⟩ :=
        writeWords_part Config.destFaultAborts words (ccwBase ccw) (s.mediaRead img k) (by omega)
      rw [hlen] at hin
      exact ⟨new, _, (s.mediaRead_part img k).trans hp, hd, hin, .inr ⟨_, rfl⟩⟩
  · split
    · obtain ⟨new, hp, hd, hin⟩ := writeWords_part Config.destFaultAborts synthLabelWords (ccwBase ccw) s
        (by rw [synthLabelWords_length]; omega)
      rw [synthLabelWords_length] at hin
      exact ⟨new, [], by simpa using hp, hd, hin, .inl rfl⟩
    · exact ⟨[], [], TransferPart.refl s, rfl, hnone, .inl rfl⟩

/-! ## Writes under their CCW -/

theorem lastCcw_append {new old : List Event} {ccw : Word} (h : lastCcw new = some ccw) :
    lastCcw (new ++ old) = some ccw := by
  induction new with
  | nil => cases h
  | cons e rest ih => cases e <;> first | exact h | exact ih h

/-- Two histories whose writes are under their CCWs, one after the other. -/
theorem WritesUnderCcw.append {new old : List Event} (h : WritesUnderCcw new) (h' : WritesUnderCcw old) :
    WritesUnderCcw (new ++ old) := by
  induction new with
  | nil => exact h'
  | cons e rest ih =>
    refine ⟨?_, ih h.2⟩
    have h1 := h.1
    cases e with
    | memWrite a v fault =>
      obtain ⟨ccw, hl, hle, hlt⟩ := h1
      exact ⟨ccw, lastCcw_append hl, hle, hlt⟩
    | _ => trivial

/-- Writes into a CCW's block, after the fetch of that CCW, are under it. -/
theorem WritesUnderCcw.of_within {ccw : Word} {writes older : List Event}
    (h : WritesWithin (ccwBase ccw).toNat 256 writes) (hl : lastCcw older = some ccw)
    (ho : WritesUnderCcw older) : WritesUnderCcw (writes ++ older) ∧ lastCcw (writes ++ older) = some ccw := by
  induction writes with
  | nil => exact ⟨ho, hl⟩
  | cons e rest ih =>
    obtain ⟨h1, h2⟩ := ih fun e he => h e (List.mem_cons_of_mem _ he)
    obtain ⟨b, v, fault, rfl, hle, hlt⟩ := h e List.mem_cons_self
    exact ⟨⟨⟨ccw, h2, hle, hlt⟩, h1⟩, h2⟩

/-- Writes are no fetches. -/
theorem WritesWithin.fetches {a n : Nat} {es : List Event} (h : WritesWithin a n es) :
    es.filterMap Event.fetchAddress? = [] := by
  induction es with
  | nil => rfl
  | cons e rest ih =>
    obtain ⟨b, v, fault, rfl, -, -⟩ := h e List.mem_cons_self
    simpa [Event.fetchAddress?] using ih fun e he => h e (List.mem_cons_of_mem _ he)

/-! ## One CCW, and the chain -/

/-- The state in which one CCW ends. -/
def CcwEnd.state : CcwEnd → State
  | .more s => s
  | .last s => s
  | .aborted s => s

/-- The chain goes on after this CCW. -/
def CcwEnd.isMore : CcwEnd → Bool
  | .more _ => true
  | .last _ | .aborted _ => false

/-- What follows a CCW's block is a part of a transfer without a service call. -/
theorem finishCcw_part (ccw : Word) (s : State) :
    TransferPart s (finishCcw ccw s).state [] ∧
      (finishCcw ccw s).state.disk.clp = (if (finishCcw ccw s).isMore then s.disk.clp + 1 else s.disk.clp) := by
  have hadv := DiskRegs.advance_eq s.disk Config.rollover
  unfold finishCcw
  split
  · exact ⟨State.withDisk_part (by rw [hadv]), rfl⟩
  · exact ⟨State.withDisk_part (by rw [hadv]), by simp only [CcwEnd.state, State.withDisk_disk]; rw [hadv]; rfl⟩

/-- A faulting fetch ends the transfer (41_disk_commands.md R155). -/
theorem walkCcw_fetchFault {s : State} (h : s.memAnswer s.disk.clp = none) :
    walkCcw s = .aborted (s.memRead s.disk.clp) := by
  rw [walkCcw, h]

/-- A copy that aborts ends the transfer (41_disk_commands.md R158, R159). -/
theorem walkCcw_copyAborts {s t : State} {ccw : Word} (h : s.memAnswer s.disk.clp = some ccw)
    (hc : copyBlock s.disk.currentBlock (ccwBase ccw) (s.fetchCcw ccw) = .aborted t) :
    walkCcw s = .aborted t := by
  rw [walkCcw, h]; simp only [hc]

/-- A block copied, or skipped: the counters advance and the CCW's continuation bit decides
(41_disk_commands.md R160, R161). -/
theorem walkCcw_copied {s t : State} {ccw : Word} (h : s.memAnswer s.disk.clp = some ccw)
    (hc : copyBlock s.disk.currentBlock (ccwBase ccw) (s.fetchCcw ccw) = .ongoing t) :
    walkCcw s = finishCcw ccw t := by
  rw [walkCcw, h]; simp only [hc]

/-- What one CCW does, however it ends: a part of a transfer with one fetch, at `clp`; its writes are under
the CCW fetched; `clp` moves by one exactly if the chain goes on. -/
theorem walkCcw_part (s : State) :
    ∃ new, TransferPart s (walkCcw s).state new ∧ WritesUnderCcw new ∧
      new.filterMap Event.fetchAddress? = [s.disk.clp] ∧
      (walkCcw s).state.disk.clp = (if (walkCcw s).isMore then s.disk.clp + 1 else s.disk.clp) := by
  cases hm : s.memAnswer s.disk.clp with
  | none =>
    rw [walkCcw_fetchFault hm]
    exact ⟨_, s.memRead_part s.disk.clp, by simp [WritesUnderCcw, Event.underCcw], rfl, rfl⟩
  | some ccw =>
    have hf := (s.memRead_part s.disk.clp).trans
      (State.withDisk_part (s := s.memRead s.disk.clp) (d := { s.disk with ma := ccwBase ccw }) rfl)
    rw [hm] at hf
    obtain ⟨writes, reads, hp, hd, hw, hr⟩ := copyBlock_part s.disk.currentBlock ccw (s.fetchCcw ccw)
    have hpart := hf.trans hp
    rw [List.nil_append, List.append_assoc] at hpart
    have hread : lastCcw (reads ++ [Event.memRead s.disk.clp (some ccw)]) = some ccw ∧
        WritesUnderCcw (reads ++ [Event.memRead s.disk.clp (some ccw)]) ∧
        (reads ++ [Event.memRead s.disk.clp (some ccw)]).filterMap Event.fetchAddress? = [s.disk.clp] := by
      rcases hr with rfl | ⟨answer, rfl⟩ <;>
        exact ⟨rfl, by simp [WritesUnderCcw, Event.underCcw], rfl⟩
    have hunder := (WritesUnderCcw.of_within hw hread.1 hread.2.1).1
    have hfetch : (writes ++ (reads ++ [Event.memRead s.disk.clp (some ccw)])).filterMap
        Event.fetchAddress? = [s.disk.clp] := by
      rw [List.filterMap_append, hw.fetches, hread.2.2]; rfl
    have hclp : (copyBlock s.disk.currentBlock (ccwBase ccw) (s.fetchCcw ccw)).state.disk.clp = s.disk.clp := by
      rw [hd]; rfl
    cases hc : copyBlock s.disk.currentBlock (ccwBase ccw) (s.fetchCcw ccw) with
    | aborted t =>
      rw [hc] at hpart hclp
      rw [walkCcw_copyAborts hm hc]
      exact ⟨_, hpart, hunder, hfetch, hclp⟩
    | ongoing t =>
      rw [hc] at hpart hclp
      obtain ⟨hfin, hfclp⟩ := finishCcw_part ccw t
      rw [walkCcw_copied hm hc, hfclp, show t.disk.clp = s.disk.clp from hclp]
      exact ⟨_, hpart.trans hfin, hunder, hfetch, rfl⟩

/-- The induction over a chain: what holds at the start and is kept by every CCW, however it ends, holds
where the walk ends. -/
theorem walkChain_induct (P : State → Prop) (hkeep : ∀ s, P s → P (walkCcw s).state) :
    ∀ (n : Nat) (s : State), P s → P (walkChain n s).state := by
  intro n
  induction n with
  | zero => intro s h; exact h
  | succ n ih =>
    intro s h
    have hk := hkeep s h
    rw [walkChain]
    split
    · next t ht => rw [ht] at hk; exact hk
    · next t ht => rw [ht] at hk; exact hk
    · next t ht => rw [ht] at hk; exact ih t hk

/-- What `Read()` does after the walk: nothing, or the post of `LINE_DISK` on normal completion. -/
theorem completeRead_cases (done : Bool) (tr : Transfer) :
    completeRead done tr = tr.state ∨
      done = true ∧ completeRead done tr = tr.state.post Config.lineDisk := by
  cases tr with
  | aborted s => exact .inl rfl
  | ongoing s => cases done <;> simp [completeRead, Transfer.state]

end Sys2Proof.Machine
end

