-- ==== Sys2Proof/Laws/Chain.lean ====
section
/-! SUPPORT. What a READ does along a chain that every service lets through, and how it ends: the walk over
linked CCWs as one equation, the closed forms of the registers after it, and where a failing service
call stands in the history (41_disk_commands.md R151 to R163). -/

namespace Sys2Proof.Machine

/-! ## The counters along a chain -/

/-- `Advance()` repeated neither reads nor writes `clp` and `ma`. -/
theorem advanceBy_setClpMa (n : Nat) (d : DiskRegs) (c m : Word) :
    advanceBy n { d with clp := c, ma := m } = { advanceBy n d with clp := c, ma := m } := by
  induction n generalizing d with
  | zero => rfl
  | succ n ih => rw [advanceBy, DiskRegs.advance_setClpMa, ih]; rfl

/-- The block number does not depend on `clp` and `ma`. -/
theorem DiskRegs.currentBlock_setClpMa (d : DiskRegs) (c m : Word) :
    DiskRegs.currentBlock { d with clp := c, ma := m } = d.currentBlock := rfl

/-- The counters after a linked CCW are those after one `Advance()`. -/
theorem advanceBy_nextCcw (n : Nat) (ccw : Word) (d : DiskRegs) :
    advanceBy n (d.nextCcw ccw) = { advanceBy (n + 1) d with clp := d.clp + 1, ma := ccwBase ccw } :=
  advanceBy_setClpMa n (d.advance Config.rollover) (d.clp + 1) (ccwBase ccw)

@[simp] theorem DiskRegs.nextCcw_media (ccw : Word) (d : DiskRegs) : (d.nextCcw ccw).media = d.media :=
  d.advance_media Config.rollover
@[simp] theorem DiskRegs.nextCcw_clp (ccw : Word) (d : DiskRegs) : (d.nextCcw ccw).clp = d.clp + 1 := rfl
@[simp] theorem DiskRegs.nextCcw_ma (ccw : Word) (d : DiskRegs) : (d.nextCcw ccw).ma = ccwBase ccw := rfl

/-- The media stays along a chain. -/
@[simp] theorem chainRegs_media (ccws : List Word) (d : DiskRegs) : (chainRegs ccws d).media = d.media := by
  induction ccws generalizing d with
  | nil => rfl
  | cons ccw rest ih => rw [chainRegs, ih, DiskRegs.nextCcw_media]

/-- An address `n + 1` words on is `n` words on from the next one. -/
theorem word_add_succ (a : Word) (n : Nat) : a + 1 + BitVec.ofNat 32 n = a + BitVec.ofNat 32 (n + 1) := by
  rw [Nat.add_comm n 1, BitVec.ofNat_add, BitVec.add_assoc]; rfl

/-- `ma` after a CCW more. -/
theorem maAfter_cons (ccw : Word) (rest : List Word) (ma : Word) :
    maAfter (ccw :: rest) ma = maAfter rest (ccwBase ccw) := by
  cases rest with
  | nil => rfl
  | cons next more =>
    simp only [maAfter, List.getLast?_cons_cons, List.getLast?_eq_some_getLast (List.cons_ne_nil next more)]

theorem maAfter_append_singleton (links : List Word) (final ma : Word) :
    maAfter (links ++ [final]) ma = ccwBase final := by simp [maAfter]

/-- The disk after linked CCWs: the counters advanced once for each, `clp` moved by one for each
(41_disk_commands.md R160, R161). -/
theorem chainRegs_eq (ccws : List Word) (d : DiskRegs) :
    chainRegs ccws d = { advanceBy ccws.length d with
      clp := d.clp + BitVec.ofNat 32 ccws.length
      ma := maAfter ccws d.ma } := by
  induction ccws generalizing d with
  | nil => simp [chainRegs, advanceBy, maAfter]
  | cons ccw rest ih =>
    rw [chainRegs, ih, advanceBy_nextCcw, DiskRegs.nextCcw_clp, DiskRegs.nextCcw_ma, word_add_succ,
      maAfter_cons, List.length_cons]

/-! ## Chains one after the other -/

theorem chainRegs_append (links more : List Word) (d : DiskRegs) :
    chainRegs (links ++ more) d = chainRegs more (chainRegs links d) := by
  induction links generalizing d with
  | nil => rfl
  | cons ccw rest ih => exact ih (d.nextCcw ccw)

theorem chainMemory_append (links more : List Word) (d : DiskRegs) (m : Memory) :
    chainMemory (links ++ more) d m = chainMemory more (chainRegs links d) (chainMemory links d m) := by
  induction links generalizing d m with
  | nil => rfl
  | cons ccw rest ih => exact ih (d.nextCcw ccw) _

theorem chainEvents_append (links more : List Word) (d : DiskRegs) :
    chainEvents (links ++ more) d = chainEvents more (chainRegs links d) ++ chainEvents links d := by
  induction links generalizing d with
  | nil => simp [chainEvents, chainRegs]
  | cons ccw rest ih => rw [List.cons_append, chainEvents, ih, List.append_assoc]; rfl

theorem chainWrites_append (links more : List Word) (d : DiskRegs) :
    chainWrites (links ++ more) d = chainWrites links d + chainWrites more (chainRegs links d) := by
  induction links generalizing d with
  | nil => simp [chainWrites, chainRegs]
  | cons ccw rest ih => rw [List.cons_append, chainWrites, ih, chainWrites, Nat.add_assoc]; rfl

theorem chainMediaReads_append (links more : List Word) (d : DiskRegs) :
    chainMediaReads (links ++ more) d =
      chainMediaReads links d + chainMediaReads more (chainRegs links d) := by
  induction links generalizing d with
  | nil => simp [chainMediaReads, chainRegs]
  | cons ccw rest ih => rw [List.cons_append, chainMediaReads, ih, chainMediaReads, Nat.add_assoc]; rfl

/-! ## The walk over a chain that every service lets through -/

/-- The state after linked CCWs, with the answers left over. -/
def State.afterChain (ccws : List Word) (reads writes medias : List Bool) (s : State) : State :=
  { s with
    disk := chainRegs ccws s.disk
    mem := chainMemory ccws s.disk s.mem
    history := chainEvents ccws s.disk ++ s.history
    env := { s.env with memReadFaults := reads, memWriteFaults := writes, mediaFails := medias } }

/-- The state after one CCW's fetch. -/
def State.afterFetch (ccw : Word) (reads : List Bool) (s : State) : State :=
  { s with
    disk := { s.disk with ma := ccwBase ccw }
    history := .memRead s.disk.clp (some ccw) :: s.history
    env := { s.env with memReadFaults := reads } }

/-- The state after one CCW's block, before the counters move. -/
def State.afterCopy (ccw : Word) (reads writes medias : List Bool) (s : State) : State :=
  { s with
    disk := { s.disk with ma := ccwBase ccw }
    mem := storeWords (ccwBase ccw) s.disk.copiedWords s.mem
    history := writeEvents (ccwBase ccw) s.disk.copiedWords ++ s.disk.mediaEvents ++
      .memRead s.disk.clp (some ccw) :: s.history
    env := { s.env with memReadFaults := reads, memWriteFaults := writes, mediaFails := medias } }

/-- Every event of a linked CCW, and its copy, then the rest of the chain. -/
theorem State.afterChain_cons (ccw : Word) (rest : List Word) (r w m r' w' m' : List Bool) (s : State) :
    s.afterChain (ccw :: rest) r w m =
      ((s.afterCopy ccw r' w' m').withDisk (s.disk.nextCcw ccw)).afterChain rest r w m := by
  simp [State.afterChain, State.afterCopy, State.withDisk, chainRegs, chainMemory, chainEvents]

/-- A CCW whose fetch, block and words are answered without a fault is copied (41_disk_commands.md R155 to R158). -/
theorem copyBlock_answered {s : State} {ccw : Word} {reads writes medias : List Bool}
    (hf : Memory.read s.mem s.disk.clp.toNat = ccw)
    (hi : ∀ img, s.disk.media = .attached img →
      Config.blockBytes * s.disk.currentBlock + Config.blockBytes ≤ img.length)
    (hr : s.env.memReadFaults = false :: reads)
    (hw : s.env.memWriteFaults = List.replicate s.disk.copiedWords.length false ++ writes)
    (hm : s.env.mediaFails = List.replicate s.disk.mediaEvents.length false ++ medias) :
    copyBlock s.disk.currentBlock (ccwBase ccw) (s.fetchCcw ccw) =
      .ongoing (s.afterCopy ccw reads writes medias) := by
  rw [show s.fetchCcw ccw = s.afterFetch ccw reads from State.fetchCcw_of_read hr hf]
  cases hmed : s.disk.media with
  | attached img =>
    have hc : s.disk.copiedWords = imageBlock img s.disk.currentBlock := by
      simp only [DiskRegs.copiedWords, hmed]
    have he : s.disk.mediaEvents =
        [.mediaRead s.disk.currentBlock (some (imageBlock img s.disk.currentBlock))] := by
      simp only [DiskRegs.mediaEvents, hmed]
    rw [hc, imageBlock_length] at hw
    rw [he] at hm
    refine (copyBlock_image (s := s.afterFetch ccw reads) (ccwBase ccw) hmed (decide_eq_true (hi img hmed)) (medias := medias) hm hw).trans ?_
    simp only [State.afterCopy, State.afterFetch, hc, he, List.append_assoc, List.singleton_append]
  | detached =>
    have he : s.disk.mediaEvents = [] := by simp only [DiskRegs.mediaEvents, hmed]
    rw [he] at hm
    cases ho : s.disk.atOrigin with
    | true =>
      have hc : s.disk.copiedWords = synthLabelWords := by
        simp only [DiskRegs.copiedWords, hmed, ho, if_true]
      rw [hc, synthLabelWords_length] at hw
      refine (copyBlock_label (s := s.afterFetch ccw reads) _ (ccwBase ccw) hmed ho hw).trans ?_
      simp only [State.afterCopy, State.afterFetch, hc, he, List.append_nil, ← show s.env.mediaFails = medias from hm]
    | false =>
      have hc : s.disk.copiedWords = [] := by
        simp only [DiskRegs.copiedWords, hmed, ho, Bool.false_eq_true, if_false]
      rw [hc] at hw
      refine (copyBlock_skip (s := s.afterFetch ccw reads) _ (ccwBase ccw) hmed ho).trans ?_
      simp only [State.afterCopy, State.afterFetch, hc, he, writeEvents, storeWords, List.nil_append,
        ← show s.env.mediaFails = medias from hm, ← show s.env.memWriteFaults = writes from hw]

/-- A CCW whose block MEDIA fails to answer aborts before any word is written (20_memory.md R66,
41_disk_commands.md R158; log 20). -/
theorem copyBlock_mediaFails {s : State} {img : List Byte} {ccw : Word} {reads left : List Bool}
    (hm : s.disk.media = .attached img) (hf : Memory.read s.mem s.disk.clp.toNat = ccw)
    (hr : s.env.memReadFaults = false :: reads)
    (hfail : blockInImage img s.disk.currentBlock = false ∧ s.env.mediaFails = left ∨
      blockInImage img s.disk.currentBlock = true ∧ s.env.mediaFails = true :: left) :
    copyBlock s.disk.currentBlock (ccwBase ccw) (s.fetchCcw ccw) = .aborted { s with
      disk := { s.disk with ma := ccwBase ccw }
      history := .mediaRead s.disk.currentBlock none :: .memRead s.disk.clp (some ccw) :: s.history
      env := { s.env with memReadFaults := reads, mediaFails := left } } := by
  rw [show s.fetchCcw ccw = s.afterFetch ccw reads from State.fetchCcw_of_read hr hf]
  have hans : (s.afterFetch ccw reads).mediaAnswer img s.disk.currentBlock = none := by
    rcases hfail with ⟨h1, -⟩ | ⟨h1, h2⟩
    · simp [State.mediaAnswer, h1]
    · simp [State.mediaAnswer, State.afterFetch, Env.nextMediaFail, h2]
  rw [copyBlock, show (s.afterFetch ccw reads).disk.media = .attached img from hm]
  simp only [hans, State.mediaRead]
  rcases hfail with ⟨h1, rfl⟩ | ⟨h1, h2⟩
  · simp [h1, State.afterFetch, State.record, State.withEnv]
  · simp [h1, h2, State.afterFetch, State.record, State.withEnv, Env.dropMediaFail]

/-- A CCW whose copy meets a fault at its word `j` aborts there, the words before it written
(41_disk_commands.md R158, R159; log 13). -/
theorem copyBlock_writeFault {s : State} {ccw : Word} {reads writes medias : List Bool} {j : Nat}
    (hj : j < s.disk.copiedWords.length) (hf : Memory.read s.mem s.disk.clp.toNat = ccw)
    (hi : ∀ img, s.disk.media = .attached img → blockInImage img s.disk.currentBlock = true)
    (hr : s.env.memReadFaults = false :: reads)
    (hw : s.env.memWriteFaults = List.replicate j false ++ true :: writes)
    (hm : s.env.mediaFails = List.replicate s.disk.mediaEvents.length false ++ medias) :
    copyBlock s.disk.currentBlock (ccwBase ccw) (s.fetchCcw ccw) = .aborted { s with
      disk := { s.disk with ma := ccwBase ccw }
      mem := storeWords (ccwBase ccw) (s.disk.copiedWords.take j) s.mem
      history := .memWrite (ccwBase ccw + BitVec.ofNat 32 j) s.disk.copiedWords[j] true ::
        writeEvents (ccwBase ccw) (s.disk.copiedWords.take j) ++ s.disk.mediaEvents ++
          .memRead s.disk.clp (some ccw) :: s.history
      env := { s.env with memReadFaults := reads, memWriteFaults := writes, mediaFails := medias } } := by
  rw [show s.fetchCcw ccw = s.afterFetch ccw reads from State.fetchCcw_of_read hr hf]
  cases hmed : s.disk.media with
  | attached img =>
    have hc : s.disk.copiedWords = imageBlock img s.disk.currentBlock := by
      simp only [DiskRegs.copiedWords, hmed]
    have he : s.disk.mediaEvents =
        [.mediaRead s.disk.currentBlock (some (imageBlock img s.disk.currentBlock))] := by
      simp only [DiskRegs.mediaEvents, hmed]
    rw [he] at hm
    obtain ⟨ha, hread⟩ := State.mediaRead_of_ok (s := s.afterFetch ccw reads) (hi img hmed) (more := medias) hm
    rw [copyBlock, show (s.afterFetch ccw reads).disk.media = .attached img from hmed]
    simp only [ha, hread, hc, he] at hj ⊢
    refine (writeWords_fault _ j _ _ writes hj (by exact hw)).trans ?_
    simp only [State.afterFetch, List.cons_append, List.append_assoc, List.nil_append]
  | detached =>
    have he : s.disk.mediaEvents = [] := by simp only [DiskRegs.mediaEvents, hmed]
    rw [he] at hm
    cases ho : s.disk.atOrigin with
    | true =>
      have hc : s.disk.copiedWords = synthLabelWords := by
        simp only [DiskRegs.copiedWords, hmed, ho, if_true]
      rw [copyBlock, show (s.afterFetch ccw reads).disk.media = .detached from hmed]
      simp only [show (s.afterFetch ccw reads).disk.atOrigin = true from ho, if_true, hc, he] at hj ⊢
      refine (writeWords_fault _ j _ _ writes hj (by exact hw)).trans ?_
      simp only [State.afterFetch, List.append_nil, ← show s.env.mediaFails = medias from hm]
    | false =>
      have hc : s.disk.copiedWords = [] := by
        simp only [DiskRegs.copiedWords, hmed, ho, Bool.false_eq_true, if_false]
      rw [hc] at hj
      exact absurd hj (Nat.not_lt_zero j)

/-- The first CCW of an answered chain, and the answered rest. -/
theorem ChainAnswered.uncons {s : State} {ccw : Word} {rest : List Word} {reads writes medias : List Bool}
    (h : ChainAnswered s (ccw :: rest) reads writes medias) :
    ∃ r w m, s.memAnswer s.disk.clp = some ccw ∧
      copyBlock s.disk.currentBlock (ccwBase ccw) (s.fetchCcw ccw) = .ongoing (s.afterCopy ccw r w m) ∧
      ChainAnswered ((s.afterCopy ccw r w m).withDisk (s.disk.nextCcw ccw)) rest reads writes medias := by
  have h0 : Memory.read s.mem s.disk.clp.toNat = ccw := by
    have := h.fetched 0 (Nat.zero_lt_succ _)
    rwa [List.take_zero, chainMemory, BitVec.add_zero] at this
  have hr := h.reads
  have hw := h.writes
  have hm := h.medias
  rw [List.length_cons, List.replicate_succ, List.cons_append] at hr
  rw [chainWrites, List.replicate_add, List.append_assoc] at hw
  rw [chainMediaReads, List.replicate_add, List.append_assoc] at hm
  refine ⟨_, _, _, State.memAnswer_of_read hr h0,
    copyBlock_answered h0 (fun img hi => h.inFile img hi 0 (by simp)) hr hw hm, ?_⟩
  constructor
  · intro i hi
    have := h.fetched (i + 1) (by simpa using hi)
    rw [← word_add_succ] at this
    exact this
  · intro img hi i hlt
    have := h.inFile img (by simpa using hi) (i + 1) (by simpa using hlt)
    rw [State.withDisk_disk, advanceBy_nextCcw, DiskRegs.currentBlock_setClpMa]
    exact this
  · rfl
  · rfl
  · rfl

/-- The walk over linked CCWs that every service lets through (41_disk_commands.md R151, R161). -/
theorem walkChain_links {links : List Word} : ∀ {s : State} {reads writes medias : List Bool} (n : Nat),
    (∀ ccw ∈ links, ccwCont ccw = true) → ChainAnswered s links reads writes medias →
    walkChain (links.length + n) s = walkChain n (s.afterChain links reads writes medias) := by
  induction links with
  | nil =>
    intro s reads writes medias n _ h
    have hr : s.env.memReadFaults = reads := h.reads
    have hw : s.env.memWriteFaults = writes := h.writes
    have hm : s.env.mediaFails = medias := h.medias
    simp [State.afterChain, chainRegs, chainMemory, chainEvents, ← hr, ← hw, ← hm]
  | cons ccw rest ih =>
    intro s reads writes medias n hl h
    obtain ⟨r, w, m, ha, hc, hrest⟩ := h.uncons
    have hcont : ccwCont ccw = true := hl ccw List.mem_cons_self
    have hnext : finishCcw ccw (s.afterCopy ccw r w m) =
        .more ((s.afterCopy ccw r w m).withDisk (s.disk.nextCcw ccw)) := by
      have hd := DiskRegs.advance_setClpMa s.disk Config.rollover s.disk.clp (ccwBase ccw)
      simp only [finishCcw, hcont, if_true, State.afterCopy, DiskRegs.nextCcw]
      rw [show ({ s.disk with ma := ccwBase ccw } : DiskRegs) =
        { s.disk with clp := s.disk.clp, ma := ccwBase ccw } from rfl, hd]
    rw [List.length_cons, Nat.add_right_comm, walkChain, walkCcw_copied ha hc, hnext]
    rw [State.afterChain_cons ccw rest reads writes medias r w m]
    exact ih n (fun c hm => hl c (List.mem_cons_of_mem _ hm)) hrest

/-- An answered chain is answered up to any CCW of it, and from there on. -/
theorem ChainAnswered.split {links more : List Word} : ∀ {s : State} {reads writes medias : List Bool},
    ChainAnswered s (links ++ more) reads writes medias →
    ∃ r w m, ChainAnswered s links r w m ∧
      ChainAnswered (s.afterChain links r w m) more reads writes medias := by
  intro s reads writes medias h
  have hr := h.reads
  have hw := h.writes
  have hm := h.medias
  rw [List.length_append, List.replicate_add, List.append_assoc] at hr
  rw [chainWrites_append, List.replicate_add, List.append_assoc] at hw
  rw [chainMediaReads_append, List.replicate_add, List.append_assoc] at hm
  refine ⟨_, _, _, ⟨?_, ?_, hr, hw, hm⟩, ⟨?_, ?_, rfl, rfl, rfl⟩⟩
  · intro i hi
    have := h.fetched i (by rw [List.length_append]; omega)
    rw [List.take_append_of_le_length (by omega), List.getElem_append_left hi] at this
    exact this
  · intro img hi i hlt
    exact h.inFile img hi i (by rw [List.length_append]; omega)
  · intro i hi
    have := h.fetched (links.length + i) (by rw [List.length_append]; omega)
    rw [List.take_length_add_append, chainMemory_append, List.getElem_append_right (by omega)] at this
    have hclp : (chainRegs links s.disk).clp + BitVec.ofNat 32 i =
        s.disk.clp + BitVec.ofNat 32 (links.length + i) := by
      rw [chainRegs_eq, BitVec.ofNat_add, BitVec.add_assoc]
    simp only [State.afterChain, hclp]
    simpa using this
  · intro img hi i hlt
    have := h.inFile img (by simpa [State.afterChain] using hi) (links.length + i)
      (by rw [List.length_append]; omega)
    have hadv : ∀ (n k : Nat) (d : DiskRegs), advanceBy k (advanceBy n d) = advanceBy (n + k) d := by
      intro n
      induction n with
      | zero => intro k d; rw [Nat.zero_add]; rfl
      | succ n ih => intro k d; rw [Nat.add_right_comm]; exact ih k _
    simp only [State.afterChain, chainRegs_eq, advanceBy_setClpMa, DiskRegs.currentBlock_setClpMa, hadv]
    exact this

/-- The last CCW of a READ ends the walk (41_disk_commands.md R161). -/
theorem walkChain_final {s : State} {final : Word} {reads writes medias : List Bool} (n : Nat)
    (hcont : ccwCont final = false) (h : ChainAnswered s [final] reads writes medias) :
    walkChain (n + 1) s = .ongoing { s.afterChain [final] reads writes medias with
      disk := { chainRegs [final] s.disk with clp := s.disk.clp } } := by
  obtain ⟨r, w, m, ha, hc, hrest⟩ := h.uncons
  have hr : r = reads := hrest.reads
  have hw : w = writes := hrest.writes
  have hm : m = medias := hrest.medias
  subst hr hw hm
  have hd := DiskRegs.advance_setClpMa s.disk Config.rollover s.disk.clp (ccwBase final)
  rw [walkChain, walkCcw_copied ha hc]
  simp only [finishCcw, hcont, Bool.false_eq_true, if_false, State.afterCopy, State.withDisk]
  rw [show ({ s.disk with ma := ccwBase final } : DiskRegs) =
    { s.disk with clp := s.disk.clp, ma := ccwBase final } from rfl, hd]
  simp [State.afterChain, chainRegs, chainMemory, chainEvents, DiskRegs.nextCcw]

/-! ## The words of memory after a chain -/

/-- A copy moves at most a block. -/
theorem DiskRegs.copiedWords_length_le (d : DiskRegs) : d.copiedWords.length ≤ 256 := by
  unfold DiskRegs.copiedWords
  split
  · exact Nat.le_of_eq (imageBlock_length _ _)
  · split
    · exact Nat.le_of_eq synthLabelWords_length
    · exact Nat.zero_le _

/-- What an address answers after one CCW's copy. -/
theorem Memory.read_copied (ccw : Word) (d : DiskRegs) (m : Memory) (a : Nat) :
    Memory.read (storeWords (ccwBase ccw) d.copiedWords m) a =
      if h : (ccwBase ccw).toNat ≤ a ∧ a < (ccwBase ccw).toNat + d.copiedWords.length then
        d.copiedWords[a - (ccwBase ccw).toNat]'(by omega)
      else Memory.read m a := by
  have := ccwBase_le ccw
  have := d.copiedWords_length_le
  exact Memory.read_storeWords _ _ _ _ (by omega)

/-- A chain leaves every word that none of its CCWs covers (41_disk_commands.md R158). -/
theorem chainMemory_uncovered (ccws : List Word) (a : Nat) : ∀ (d : DiskRegs) (m : Memory),
    (∀ ccw ∈ ccws, ¬ ccwCovers ccw a) → Memory.read (chainMemory ccws d m) a = Memory.read m a := by
  induction ccws with
  | nil => intro d m _; rfl
  | cons ccw rest ih =>
    intro d m h
    have h0 : ¬ ((ccwBase ccw).toNat ≤ a ∧ a < (ccwBase ccw).toNat + 256) := h ccw List.mem_cons_self
    have := d.copiedWords_length_le
    rw [chainMemory, ih _ _ fun c hc => h c (List.mem_cons_of_mem _ hc), Memory.read_copied,
      dif_neg (by omega)]

/-- With an image, a word of CCW `i`'s block that no later CCW covers is the image word of the block the
counters name once advanced `i` times (41_disk_commands.md R157, R158, R160). -/
theorem chainMemory_covered {img : List Byte} {ccw : Word} {j : Nat} (hj : j < 256) (ccws : List Word) :
    ∀ (i : Nat) (d : DiskRegs) (m : Memory), d.media = .attached img → ccws[i]? = some ccw →
      (∀ later ∈ ccws.drop (i + 1), ¬ ccwCovers later ((ccwBase ccw).toNat + j)) →
      Memory.read (chainMemory ccws d m) ((ccwBase ccw).toNat + j) =
        imageWord img (1024 * (advanceBy i d).currentBlock + 4 * j) := by
  induction ccws with
  | nil => intro i d m _ hi _; simp at hi
  | cons c rest ih =>
    intro i d m hm hi hlater
    cases i with
    | zero =>
      obtain rfl : c = ccw := by simpa using hi
      have hc : d.copiedWords = imageBlock img d.currentBlock := by simp only [DiskRegs.copiedWords, hm]
      have hlen : d.copiedWords.length = 256 := by rw [hc, imageBlock_length]
      rw [chainMemory, chainMemory_uncovered rest _ _ _ (by simpa using hlater), Memory.read_copied,
        dif_pos (by omega)]
      simp only [hc, imageBlock_getElem, Nat.add_sub_cancel_left]
      rfl
    | succ i =>
      rw [chainMemory, ih i _ _ (by rw [DiskRegs.nextCcw_media, hm]) (by simpa using hi)
        (by simpa using hlater), advanceBy_nextCcw, DiskRegs.currentBlock_setClpMa]

/-- With no image and another unit than 0 a chain copies nothing (41_disk_commands.md R158). -/
theorem chain_skipped (ccws : List Word) : ∀ (d : DiskRegs) (m : Memory), d.media = .detached → d.curUnit ≠ 0 →
    chainMemory ccws d m = m ∧ chainWrites ccws d = 0 ∧ chainMediaReads ccws d = 0 := by
  induction ccws with
  | nil => intro d m _ _; exact ⟨rfl, rfl, rfl⟩
  | cons ccw rest ih =>
    intro d m hm hu
    have ho : d.atOrigin = false := by
      rw [DiskRegs.atOrigin, beq_eq_false_iff_ne.mpr hu]; rfl
    have hc : d.copiedWords = [] := by simp only [DiskRegs.copiedWords, hm, ho, Bool.false_eq_true, if_false]
    have he : d.mediaEvents = [] := by simp only [DiskRegs.mediaEvents, hm]
    obtain ⟨h1, h2, h3⟩ := ih (d.nextCcw ccw) m (by rw [DiskRegs.nextCcw_media, hm])
      (by rw [show (d.nextCcw ccw).curUnit = d.curUnit from d.advance_curUnit Config.rollover]; exact hu)
    exact ⟨by rw [chainMemory, hc, storeWords, h1], by rw [chainWrites, hc, h2]; rfl,
      by rw [chainMediaReads, he, h3]; rfl⟩

/-! ## The transfer of a READ along a chain -/

/-- A READ whose first CCWs are linked and answered goes on from the state after them. -/
theorem readTransfer_links {s : State} {links : List Word} {reads writes medias : List Bool} (done : Bool)
    (hl : ∀ ccw ∈ links, ccwCont ccw = true) (hn : links.length ≤ 65535)
    (h : ChainAnswered s.decodeDa links reads writes medias) :
    readTransfer done s =
      completeRead done (walkChain (65535 - links.length) (s.decodeDa.afterChain links reads writes medias)) := by
  rw [readTransfer, show Config.chainBound = links.length + (65535 - links.length) from
    (Nat.add_sub_cancel' hn).symm, walkChain_links _ hl h]

/-! ## Where a failing service call stands -/

/-- A part of a transfer without a failing call, if it goes on; with one, its newest event, if it aborts. -/
def FailsAtMostLast (aborts : Bool) (new : List Event) : Prop :=
  if aborts then ∃ e older, new = e :: older ∧ e.isFailure = true ∧ ∀ x ∈ older, x.isFailure = false
  else ∀ x ∈ new, x.isFailure = false

/-- A part that goes on, before another part. -/
theorem FailsAtMostLast.append {aborts : Bool} {old new : List Event} (h : FailsAtMostLast false old)
    (h' : FailsAtMostLast aborts new) : FailsAtMostLast aborts (new ++ old) := by
  cases aborts with
  | false =>
    intro x hx
    exact (List.mem_append.mp hx).elim (h' x) (h x)
  | true =>
    obtain ⟨e, older, rfl, he, ho⟩ := h'
    exact ⟨e, older ++ old, rfl, he, fun x hx => (List.mem_append.mp hx).elim (ho x) (h x)⟩

/-- A transfer has aborted. -/
def Transfer.aborts : Transfer → Bool
  | .ongoing _ => false
  | .aborted _ => true

/-- A CCW has ended the READ by an abort. -/
def CcwEnd.aborts : CcwEnd → Bool
  | .more _ | .last _ => false
  | .aborted _ => true

/-- Writing words fails at most with its last write (41_disk_commands.md R159, `DEST_FAULT_ABORTS`). -/
theorem writeWords_fails (ws : List Word) : ∀ (a : Word) (s : State),
    ∃ new, (writeWords true a ws s).state.history = new ++ s.history ∧
      FailsAtMostLast (writeWords true a ws s).aborts new := by
  induction ws with
  | nil => intro a s; exact ⟨[], rfl, by simp [FailsAtMostLast, writeWords, Transfer.aborts]⟩
  | cons v rest ih =>
    intro a s
    cases hf : s.env.nextMemWriteFault with
    | true =>
      rw [writeWords, hf, Bool.and_true, if_pos rfl]
      exact ⟨[.memWrite a v true], by simp [Transfer.state, hf], _, [], rfl, rfl, by simp⟩
    | false =>
      rw [writeWords, hf, Bool.false_and, if_neg Bool.false_ne_true]
      obtain ⟨new, hn, hfail⟩ := ih (a + 1) (s.memWrite a v)
      have hold : FailsAtMostLast false [.memWrite a v false] := by simp [FailsAtMostLast, Event.isFailure]
      exact ⟨new ++ [.memWrite a v false], by rw [hn]; simp [hf], hold.append hfail⟩

/-- Copying a block fails at most with its last call (41_disk_commands.md R158, R159). -/
theorem copyBlock_fails (k : Nat) (base : Word) (s : State) :
    ∃ new, (copyBlock k base s).state.history = new ++ s.history ∧
      FailsAtMostLast (copyBlock k base s).aborts new := by
  unfold copyBlock
  split
  · next img _ =>
    split
    · next hm => exact ⟨[.mediaRead k none], by simp [Transfer.state, State.mediaRead, hm], _, [], rfl, rfl, by simp⟩
    · next words hm =>
      obtain ⟨new, hn, hfail⟩ := writeWords_fails words base (s.mediaRead img k)
      rw [show Config.destFaultAborts = true from rfl]
      have hold : FailsAtMostLast false [.mediaRead k (some words)] := by
        simp [FailsAtMostLast, Event.isFailure]
      exact ⟨new ++ [.mediaRead k (some words)], by
        rw [hn]; simp [hm], hold.append (aborts := Transfer.aborts _) hfail⟩
  · split
    · exact writeWords_fails _ base s
    · exact ⟨[], rfl, by simp [FailsAtMostLast, Transfer.aborts]⟩

/-- A CCW fails at most with its last call. -/
theorem walkCcw_fails (s : State) : ∃ new, (walkCcw s).state.history = new ++ s.history ∧
    FailsAtMostLast (walkCcw s).aborts new := by
  cases hm : s.memAnswer s.disk.clp with
  | none =>
    rw [walkCcw_fetchFault hm]
    exact ⟨[.memRead s.disk.clp none], by simp [CcwEnd.state, hm], _, [], rfl, rfl, by simp⟩
  | some ccw =>
    have hold : FailsAtMostLast false [.memRead s.disk.clp (some ccw)] := by
      simp [FailsAtMostLast, Event.isFailure]
    obtain ⟨new, hn, hfail⟩ := copyBlock_fails s.disk.currentBlock (ccwBase ccw) (s.fetchCcw ccw)
    have hhist : (s.fetchCcw ccw).history = [.memRead s.disk.clp (some ccw)] ++ s.history := by
      simp [State.fetchCcw, hm]
    rw [hhist, ← List.append_assoc] at hn
    refine ⟨_, ?_, hold.append (aborts := (walkCcw s).aborts) (new := new) ?_⟩ <;>
    · cases hc : copyBlock s.disk.currentBlock (ccwBase ccw) (s.fetchCcw ccw) with
      | aborted t =>
        rw [hc] at hn hfail
        rw [walkCcw_copyAborts hm hc]
        first | exact hn | exact hfail
      | ongoing t =>
        rw [hc] at hn hfail
        rw [walkCcw_copied hm hc]
        unfold finishCcw
        split <;> first | exact hn | exact hfail

/-- The walk fails at most with its last call, and then it has aborted (41_disk_commands.md R155, R158, R159). -/
theorem walkChain_fails : ∀ (n : Nat) (s : State),
    ∃ new, (walkChain n s).state.history = new ++ s.history ∧
      FailsAtMostLast (walkChain n s).aborts new := by
  intro n
  induction n with
  | zero => intro s; exact ⟨[], rfl, by simp [FailsAtMostLast, walkChain, Transfer.aborts]⟩
  | succ n ih =>
    intro s
    obtain ⟨new, hn, hfail⟩ := walkCcw_fails s
    rw [walkChain]
    split
    · next t ht => rw [ht] at hn hfail; exact ⟨new, hn, hfail⟩
    · next t ht => rw [ht] at hn hfail; exact ⟨new, hn, hfail⟩
    · next t ht =>
      rw [ht] at hn hfail
      obtain ⟨later, hl, hlf⟩ := ih t
      exact ⟨later ++ new, by rw [hl, List.append_assoc]; exact congrArg _ hn, FailsAtMostLast.append hfail hlf⟩

/-- A walk that has a CCW left fetches it first: its fetch is the oldest event the walk adds
(41_disk_commands.md R155). -/
theorem walkChain_fetch {s : State} {ccw : Word} (n : Nat) (h : s.memAnswer s.disk.clp = some ccw) :
    ∃ later, (walkChain (n + 1) s).state.history = later ++ .memRead s.disk.clp (some ccw) :: s.history := by
  have hfetch : (s.fetchCcw ccw).history = .memRead s.disk.clp (some ccw) :: s.history := by
    simp [State.fetchCcw, h]
  obtain ⟨new, hn, -⟩ := copyBlock_fails s.disk.currentBlock (ccwBase ccw) (s.fetchCcw ccw)
  rw [hfetch] at hn
  rw [walkChain]
  cases hc : copyBlock s.disk.currentBlock (ccwBase ccw) (s.fetchCcw ccw) with
  | aborted t =>
    rw [hc] at hn
    rw [walkCcw_copyAborts h hc]
    exact ⟨new, hn⟩
  | ongoing t =>
    rw [hc] at hn
    rw [walkCcw_copied h hc]
    cases hcont : ccwCont ccw with
    | true =>
      obtain ⟨later, hl, -⟩ :=
        walkChain_fails n (t.withDisk { t.disk.advance Config.rollover with clp := t.disk.clp + 1 })
      simp only [finishCcw, hcont, if_true]
      exact ⟨later ++ new, by rw [hl, List.append_assoc]; exact congrArg _ hn⟩
    | false => exact ⟨new, by simp only [finishCcw, hcont, Bool.false_eq_true, if_false]; exact hn⟩

end Sys2Proof.Machine
end

