-- ==== Sys2Proof/Laws/PerInstr.lean ====
section
/-! SUPPORT. A statement about every instruction's own words, one lemma for each constructor: the
selector that `encode` writes is one the block has a transaction for (30_encoding.md R90, R92). -/

namespace Sys2Proof.Laws

/-- A well-formed instruction's selector has `RSV` = 0 and is no selector that R92 refuses; an
instruction whose words are a command word is the bus master's (30_encoding.md R92, R101). -/
def EncodingShape.Statement (i : Instr) : Prop :=
  WellFormed i = true →
    match encode i with
    | .transaction t => selRsv t.selector = 0 ∧ legalSelector t.selector = true
    | .command _ => agentOf i = .host

/-- The statement from the selector alone. -/
theorem EncodingShape.of_selector {i : Instr} {sel : Half} {ops : Operands}
    (he : encode i = .transaction ⟨sel, ops⟩) (hr : selRsv sel = 0) (hl : legalSelector sel = true) :
    EncodingShape.Statement i := by
  intro _
  rw [he]
  exact ⟨hr, hl⟩

/-- Every I/O board selector is legal: every offset has a row (30_encoding.md R98). -/
theorem EncodingShape.iob_legal : ∀ (dir : Bool) (off : Offset),
    selRsv (selectorOf 1 dir off) = 0 ∧ legalSelector (selectorOf 1 dir off) = true := by
  decide +kernel

/-- Every disk write of an ignored index is legal (30_encoding.md R96). -/
theorem EncodingShape.diskNop_legal : ∀ index : BitVec 2,
    selRsv (selectorOf 0 true ((0 : BitVec 6) ++ ((0 : BitVec 1) ++ index))) = 0 ∧
      legalSelector (selectorOf 0 true ((0 : BitVec 6) ++ ((0 : BitVec 1) ++ index))) = true := by
  decide +kernel

theorem EncodingShape.dskRdStatus : EncodingShape.Statement .dskRdStatus :=
  EncodingShape.of_selector rfl (by decide) (by decide)
theorem EncodingShape.dskRdMa : EncodingShape.Statement .dskRdMa :=
  EncodingShape.of_selector rfl (by decide) (by decide)
theorem EncodingShape.dskRdDa : EncodingShape.Statement .dskRdDa :=
  EncodingShape.of_selector rfl (by decide) (by decide)
theorem EncodingShape.dskRdEcc : EncodingShape.Statement .dskRdEcc :=
  EncodingShape.of_selector rfl (by decide) (by decide)
theorem EncodingShape.dskRdStatus2 : EncodingShape.Statement .dskRdStatus2 :=
  EncodingShape.of_selector rfl (by decide) (by decide)
theorem EncodingShape.dskRdClp : EncodingShape.Statement .dskRdClp :=
  EncodingShape.of_selector rfl (by decide) (by decide)
theorem EncodingShape.dskRdDa2 : EncodingShape.Statement .dskRdDa2 :=
  EncodingShape.of_selector rfl (by decide) (by decide)
theorem EncodingShape.dskRdZero : EncodingShape.Statement .dskRdZero :=
  EncodingShape.of_selector rfl (by decide) (by decide)
theorem EncodingShape.dskWrNop (index : BitVec 2) (v : Word) : EncodingShape.Statement (.dskWrNop index v) :=
  EncodingShape.of_selector rfl (EncodingShape.diskNop_legal index).1 (EncodingShape.diskNop_legal index).2
theorem EncodingShape.dskWrCmd (v : Word) : EncodingShape.Statement (.dskWrCmd v) :=
  EncodingShape.of_selector rfl (by decide) (by decide)
theorem EncodingShape.dskWrClp (v : Word) : EncodingShape.Statement (.dskWrClp v) :=
  EncodingShape.of_selector rfl (by decide) (by decide)
theorem EncodingShape.dskWrDa (v : Word) : EncodingShape.Statement (.dskWrDa v) :=
  EncodingShape.of_selector rfl (by decide) (by decide)
theorem EncodingShape.dskWrStart (v : Word) : EncodingShape.Statement (.dskWrStart v) :=
  EncodingShape.of_selector rfl (by decide) (by decide)
theorem EncodingShape.iobRdKbdLo : EncodingShape.Statement .iobRdKbdLo :=
  EncodingShape.of_selector rfl (by decide) (by decide)
theorem EncodingShape.iobWrKbdLo (v : Half) : EncodingShape.Statement (.iobWrKbdLo v) :=
  EncodingShape.of_selector rfl (by decide) (by decide)
theorem EncodingShape.iobRdKbdHi : EncodingShape.Statement .iobRdKbdHi :=
  EncodingShape.of_selector rfl (by decide) (by decide)
theorem EncodingShape.iobWrKbdHi (v : Half) : EncodingShape.Statement (.iobWrKbdHi v) :=
  EncodingShape.of_selector rfl (by decide) (by decide)
theorem EncodingShape.iobRdMouseY : EncodingShape.Statement .iobRdMouseY :=
  EncodingShape.of_selector rfl (by decide) (by decide)
theorem EncodingShape.iobWrMouseY (v : Half) : EncodingShape.Statement (.iobWrMouseY v) :=
  EncodingShape.of_selector rfl (by decide) (by decide)
theorem EncodingShape.iobRdMouseX : EncodingShape.Statement .iobRdMouseX :=
  EncodingShape.of_selector rfl (by decide) (by decide)
theorem EncodingShape.iobWrMouseX (v : Half) : EncodingShape.Statement (.iobWrMouseX v) :=
  EncodingShape.of_selector rfl (by decide) (by decide)
theorem EncodingShape.iobRdBeep : EncodingShape.Statement .iobRdBeep :=
  EncodingShape.of_selector rfl (by decide) (by decide)
theorem EncodingShape.iobWrBeep (v : Half) : EncodingShape.Statement (.iobWrBeep v) :=
  EncodingShape.of_selector rfl (by decide) (by decide)
theorem EncodingShape.iobRdKbdCsr : EncodingShape.Statement .iobRdKbdCsr :=
  EncodingShape.of_selector rfl (by decide) (by decide)
theorem EncodingShape.iobWrKbdCsr (v : Half) : EncodingShape.Statement (.iobWrKbdCsr v) :=
  EncodingShape.of_selector rfl (by decide) (by decide)
theorem EncodingShape.iobRdUsecLo : EncodingShape.Statement .iobRdUsecLo :=
  EncodingShape.of_selector rfl (by decide) (by decide)
theorem EncodingShape.iobWrUsecLo (v : Half) : EncodingShape.Statement (.iobWrUsecLo v) :=
  EncodingShape.of_selector rfl (by decide) (by decide)
theorem EncodingShape.iobRdUsecHi : EncodingShape.Statement .iobRdUsecHi :=
  EncodingShape.of_selector rfl (by decide) (by decide)
theorem EncodingShape.iobWrUsecHi (v : Half) : EncodingShape.Statement (.iobWrUsecHi v) :=
  EncodingShape.of_selector rfl (by decide) (by decide)
theorem EncodingShape.iobRdClk60 : EncodingShape.Statement .iobRdClk60 :=
  EncodingShape.of_selector rfl (by decide) (by decide)
theorem EncodingShape.iobWrClk60 (v : Half) : EncodingShape.Statement (.iobWrClk60 v) :=
  EncodingShape.of_selector rfl (by decide) (by decide)
theorem EncodingShape.iobRdNet (off : Offset) : EncodingShape.Statement (.iobRdNet off) :=
  EncodingShape.of_selector rfl (EncodingShape.iob_legal false off).1 (EncodingShape.iob_legal false off).2
theorem EncodingShape.iobWrNet (off : Offset) (v : Half) : EncodingShape.Statement (.iobWrNet off v) :=
  EncodingShape.of_selector rfl (EncodingShape.iob_legal true off).1 (EncodingShape.iob_legal true off).2
theorem EncodingShape.iobRdUnmapped (off : Offset) : EncodingShape.Statement (.iobRdUnmapped off) :=
  EncodingShape.of_selector rfl (EncodingShape.iob_legal false off).1 (EncodingShape.iob_legal false off).2
theorem EncodingShape.iobWrUnmapped (off : Offset) (v : Half) : EncodingShape.Statement (.iobWrUnmapped off v) :=
  EncodingShape.of_selector rfl (EncodingShape.iob_legal true off).1 (EncodingShape.iob_legal true off).2
theorem EncodingShape.tvRdCsr : EncodingShape.Statement .tvRdCsr :=
  EncodingShape.of_selector rfl (by decide) (by decide)
theorem EncodingShape.tvWrCsr (v : Word) : EncodingShape.Statement (.tvWrCsr v) :=
  EncodingShape.of_selector rfl (by decide) (by decide)
theorem EncodingShape.evReset : EncodingShape.Statement .evReset :=
  EncodingShape.of_selector rfl (by decide) (by decide)
theorem EncodingShape.evAttach (file : ImageFile) : EncodingShape.Statement (.evAttach file) :=
  EncodingShape.of_selector rfl (by decide) (by decide)
theorem EncodingShape.evKey (code : KeyCode) (extra : Nat) : EncodingShape.Statement (.evKey code extra) :=
  EncodingShape.of_selector rfl (by decide) (by decide)
theorem EncodingShape.evMouse (x y : Nat) (dx dy : Int) (buttons : Nat) : EncodingShape.Statement (.evMouse x y dx dy buttons) :=
  EncodingShape.of_selector rfl (by decide) (by decide)
theorem EncodingShape.evTick : EncodingShape.Statement .evTick :=
  EncodingShape.of_selector rfl (by decide) (by decide)
theorem EncodingShape.evDeliver : EncodingShape.Statement .evDeliver :=
  EncodingShape.of_selector rfl (by decide) (by decide)
theorem EncodingShape.dskCmdRead (flags : CommandFlags) : EncodingShape.Statement (.dskCmdRead flags) :=
  fun _ => rfl
theorem EncodingShape.dskCmdReadCompare (flags : CommandFlags) : EncodingShape.Statement (.dskCmdReadCompare flags) :=
  fun _ => rfl
theorem EncodingShape.dskCmdWrite (flags : CommandFlags) : EncodingShape.Statement (.dskCmdWrite flags) :=
  fun _ => rfl
theorem EncodingShape.dskCmdRecalibrate (flags : CommandFlags) : EncodingShape.Statement (.dskCmdRecalibrate flags) :=
  fun _ => rfl
theorem EncodingShape.dskCmdFaultClear (flags : CommandFlags) : EncodingShape.Statement (.dskCmdFaultClear flags) :=
  fun _ => rfl
theorem EncodingShape.dskCmdUnknown (key : BitVec 10) (flags : CommandFlags) : EncodingShape.Statement (.dskCmdUnknown key flags) :=
  fun _ => rfl

end Sys2Proof.Laws
end

