-- ==== Sys2Proof/Tests/Slice0.lean ====
section
/-! SUPPORT. The model's own tests. Expected values are the words of 30_encoding.md and the vectors of
95_test_vectors.md (named V-…), never the model's own answers; the last part gives, for each statement
with hypotheses, a state and operands that meet them. -/

namespace Sys2Proof.Tests

open Sys2Proof Sys2Proof.Machine

/-! ## Helpers -/

/-- The state of a next outcome. -/
def after (r : Result) : State :=
  match r with
  | .next t => t
  | .fault _ => State.reset
  | .refused _ => State.reset

/-- The reset state with other disk registers. -/
def withDisk (d : DiskRegs) : State := { State.reset with disk := d }

/-- The reset state with other I/O board registers. -/
def withIob (i : IobRegs) : State := { State.reset with iob := i }

/-- The reset state with other timing registers. -/
def withTiming (t : TimingRegs) : State := { State.reset with timing := t }

/-- The reset state in which a transaction waits. -/
def waiting (t : Transaction) : State := State.reset.offer (.transaction t)

/-- Command flags. -/
def flags (done : Bool) : CommandFlags := { attnIntEn := false, doneIntEn := done, upper := 0 }

/-- A two-block image: label words 0 (the magic), 2, 3, 4 = 815, 19, 17, whose stored bytes are those of
vectors V-M2 and V-M4; block 1 counts its bytes. -/
def image : List Byte :=
  [0x42, 0x4C, 0x4C, 0x41, 0, 0, 1, 0, 0, 0, 0x2F, 3, 0, 0, 19, 0, 0, 0, 17, 0] ++ List.replicate 1004 0 ++
    (List.range 1024).map (BitVec.ofNat 8)

/-- Geometry 815/19/17. -/
def geometry : DiskRegs := { DiskRegs.reset with cyls := 815, heads := 19, blocksPerTrack := 17 }

/-- The start state of V-D1: `clp` = 0x1000, one CCW there, the image attached; every service answers. -/
def reading (ccw : Word) (mem : Memory) : State :=
  { State.reset with
    disk := { geometry with clp := 0x1000, media := .attached image }
    mem := (0x1000, ccw) :: mem
    env := { Env.reset with
      memReadFaults := [false, false]
      memWriteFaults := List.replicate 256 false
      mediaFails := [false, false] } }

/-- A front end with a modifier key 1, the Help key 2 and a table with one override. -/
def fe : FrontEnd Nat :=
  { isModifier := fun c => c == 1
    fkey := fun c => if c = 2 then some .help else none
    fkeyCode := fun _ => 0x0B4
    scanBase := fun c shifted => if c = 3 then (if shifted then 0o144 else 0o44) else 0
    scanPatches := [(5, false, 7), (5, false, 9)]
    extraShift := 1
    extraCtrl := 2
    extraMeta := 4
    mouseRaw := fun _ _ => (0, 0) }

/-- The reset state after a key of that front end. -/
def pressed (code extra : Nat) : State := State.reset.pressKey fe true false code extra

/-! ## Well-formedness refuses -/

theorem test_illformed_net_reads :
    WellFormed (.iobRdNet 0o137) = false ∧ WellFormed (.iobRdNet 0o153) = false := by decide
theorem test_illformed_net_writes :
    WellFormed (.iobWrNet 0o137 0) = false ∧ WellFormed (.iobWrNet 0o153 0) = false := by decide
theorem test_illformed_unmapped_reads :
    WellFormed (.iobRdUnmapped 0o100) = false ∧ WellFormed (.iobRdUnmapped 0o152) = false := by decide
theorem test_illformed_unmapped_writes :
    WellFormed (.iobWrUnmapped 0o124 0) = false ∧ WellFormed (.iobWrUnmapped 0o140 0) = false := by decide
theorem test_illformed_unknown_keys :
    ∀ k ∈ [0, 0o10, 0o11, 0o1005, 0o405], WellFormed (.dskCmdUnknown k (flags false)) = false := by decide

/-! ## Decoding: words written out from 30_encoding.md R91, R95 to R98, R101 -/

/-- A selector without operands decodes to an instruction. -/
def decodes (sel : Half) (i : Instr) : Bool := decodeTransaction ⟨sel, .absent⟩ == .ok i
/-- A selector with a 32-bit value. -/
def decodes32 (sel : Half) (v : Word) (i : Instr) : Bool := decodeTransaction ⟨sel, .word32 v⟩ == .ok i
/-- A selector with a 16-bit value. -/
def decodes16 (sel v : Half) (i : Instr) : Bool := decodeTransaction ⟨sel, .word16 v⟩ == .ok i

theorem test_decode_disk_reads :
    decodes 0x0000 .dskRdStatus ∧ decodes 0x0001 .dskRdMa ∧ decodes 0x0002 .dskRdDa ∧
    decodes 0x0003 .dskRdEcc ∧ decodes 0x0004 .dskRdStatus2 ∧ decodes 0x0005 .dskRdClp ∧
    decodes 0x0006 .dskRdDa2 ∧ decodes 0x0007 .dskRdZero := by decide
theorem test_decode_disk_writes :
    decodes32 0x2000 1 (.dskWrNop 0 1) ∧ decodes32 0x2001 1 (.dskWrNop 1 1) ∧
    decodes32 0x2002 1 (.dskWrNop 2 1) ∧ decodes32 0x2003 1 (.dskWrNop 3 1) ∧
    decodes32 0x2004 0o4000 (.dskWrCmd 0x800) ∧ decodes32 0x2005 0x1000 (.dskWrClp 0x1000) ∧
    decodes32 0x2006 0x10 (.dskWrDa 0x10) ∧ decodes32 0x2007 0 (.dskWrStart 0) := by decide
theorem test_decode_iob_reads :
    decodes 0x4040 .iobRdKbdLo ∧ decodes 0x4042 .iobRdKbdHi ∧ decodes 0x4044 .iobRdMouseY ∧
    decodes 0x4046 .iobRdMouseX ∧ decodes 0x4048 .iobRdBeep ∧ decodes 0x404A .iobRdKbdCsr ∧
    decodes 0x4050 .iobRdUsecLo ∧ decodes 0x4052 .iobRdUsecHi ∧ decodes 0x4054 .iobRdClk60 := by decide
theorem test_decode_iob_writes :
    decodes16 0x6040 9 (.iobWrKbdLo 9) ∧ decodes16 0x6042 9 (.iobWrKbdHi 9) ∧
    decodes16 0x6044 9 (.iobWrMouseY 9) ∧ decodes16 0x6046 9 (.iobWrMouseX 9) ∧
    decodes16 0x6048 9 (.iobWrBeep 9) ∧ decodes16 0x604A 9 (.iobWrKbdCsr 9) ∧
    decodes16 0x6050 9 (.iobWrUsecLo 9) ∧ decodes16 0x6052 9 (.iobWrUsecHi 9) ∧
    decodes16 0x6054 9 (.iobWrClk60 9) := by decide
theorem test_decode_iob_net :
    decodes 0x4060 (.iobRdNet 0o140) ∧ decodes 0x4066 (.iobRdNet 0o146) ∧ decodes 0x406A (.iobRdNet 0o152) ∧
    decodes16 0x6060 7 (.iobWrNet 0o140 7) ∧ decodes16 0x606A 7 (.iobWrNet 0o152 7) := by decide
theorem test_decode_iob_unmapped :
    decodes 0x4041 (.iobRdUnmapped 0o101) ∧ decodes 0x41FF (.iobRdUnmapped 0o777) ∧
    decodes 0x405F (.iobRdUnmapped 0o137) ∧ decodes 0x406B (.iobRdUnmapped 0o153) ∧
    decodes16 0x6080 7 (.iobWrUnmapped 0o200 7) := by decide
theorem test_decode_tv : decodes 0x8000 .tvRdCsr ∧ decodes32 0xA000 0x13 (.tvWrCsr 0x13) := by decide
theorem test_decode_events :
    decodes 0xC000 .evReset ∧
    decodeTransaction ⟨0xC001, .image .unreadable⟩ = .ok (.evAttach .unreadable) ∧
    decodeTransaction ⟨0xC003, .mouse 300 150 (-1) 2 5⟩ = .ok (.evMouse 300 150 (-1) 2 5) ∧
    decodes 0xC004 .evTick ∧ decodes 0xC005 .evDeliver := by decide
/-- KEY, with whatever key code, and as a table word. -/
theorem test_decode_key (code : KeyCode) : decodeTransaction ⟨0xC002, .key code 1⟩ = .ok (.evKey code 1) := by
  simp [decodeTransaction, selRsv, selSpace, selDir, selOff, decodeEvent, takeKey]
theorem test_decode_key_word : (decodeTableWord 16 0xC002).isSome = true := by decide
/-- V-E3, V-E6, V-E12, V-E14, V-E15 (R92); the last is the model's own refusal (log 2). -/
theorem test_decode_refuses :
    decodeTransaction ⟨0x0008, .absent⟩ = .error .diskOffset ∧
    decodeTransaction ⟨0x0200, .absent⟩ = .error .reservedBits ∧
    decodeTransaction ⟨0x8001, .absent⟩ = .error .tvOffset ∧
    decodeTransaction ⟨0xC006, .absent⟩ = .error .eventId ∧
    decodeTransaction ⟨0xE000, .absent⟩ = .error .eventDirection ∧
    decodeTransaction ⟨0x2004, .absent⟩ = .error .operandsMismatch := by decide
/-- V-C1 to V-C11. -/
theorem test_decode_commands :
    decodeCommand 0 = .dskCmdRead ⟨false, false, 0⟩ ∧
    decodeCommand 0o4000 = .dskCmdRead ⟨false, true, 0⟩ ∧
    decodeCommand 0o2000 = .dskCmdRead ⟨true, false, 0⟩ ∧
    decodeCommand 0xFFFFF000 = .dskCmdRead ⟨false, false, 0xFFFFF⟩ ∧
    decodeCommand 0o10 = .dskCmdReadCompare ⟨false, false, 0⟩ ∧
    decodeCommand 0o4011 = .dskCmdWrite ⟨false, true, 0⟩ ∧
    decodeCommand 0o1005 = .dskCmdRecalibrate ⟨false, false, 0⟩ ∧
    decodeCommand 0o405 = .dskCmdFaultClear ⟨false, false, 0⟩ ∧
    decodeCommand 0o20 = .dskCmdUnknown 0o20 ⟨false, false, 0⟩ ∧
    decodeCommand 0o1010 = .dskCmdUnknown 0o1010 ⟨false, false, 0⟩ ∧
    decodeCommand 0o5 = .dskCmdUnknown 5 ⟨false, false, 0⟩ := by decide
/-- Words of spec/opcode_table.json as the host numbers them (log 3). -/
theorem test_decode_table_words :
    decodeTableWord 16 0x2007 = some (.dskWrStart 0) ∧ decodeTableWord 16 0x4068 = some (.iobRdNet 0o150) ∧
    decodeTableWord 16 0x0205 = some (.dskCmdRecalibrate ⟨false, false, 0⟩) ∧
    decodeTableWord 32 0 = some (.dskCmdRead ⟨false, false, 0⟩) ∧ decodeTableWord 16 0xE000 = none := by decide
/-- R121's expansions assemble to the selectors of P1 and of the microsecond and mouse reads. -/
theorem test_pseudo_instructions :
    (pseudoDiskRead 0x10 0x1000 true).map assemble =
      [⟨0x2006, .word32 0x10⟩, ⟨0x2005, .word32 0x1000⟩, ⟨0x2004, .word32 0x800⟩, ⟨0x2007, .word32 0⟩] ∧
    pseudoUsecRead.map assemble = [⟨0x4050, .absent⟩, ⟨0x4052, .absent⟩] ∧
    pseudoMouseRead.map assemble = [⟨0x4044, .absent⟩, ⟨0x4046, .absent⟩] := by decide

/-! ## Disk registers: V-R1 to V-R7, V-W1 to V-W6 -/

theorem test_status_reads :
    (after (exec .dskRdStatus State.reset)).reply = .word32 1 ∧
    (after (exec .dskRdStatus2 State.reset)).reply = .word32 1 := by decide
theorem test_da_reads :
    (after (exec .dskRdDa (withDisk { geometry with da := 0x12345678 }))).reply = .word32 0x12345678 ∧
    (after (exec .dskRdDa2 (withDisk { geometry with da := 0x12345678 }))).reply = .word32 0x12345678 := by decide
theorem test_ecc_and_zero_reads :
    (after (exec .dskRdEcc (withDisk { geometry with ma := 5 }))).reply = .word32 0 ∧
    (after (exec .dskRdZero (withDisk { geometry with ma := 5 }))).reply = .word32 0 ∧
    (after (exec .dskRdMa (withDisk { geometry with ma := 0x2000 }))).reply = .word32 0x2000 := by decide
theorem test_write_nop : (after (exec (.dskWrNop 0 0xFFFFFFFF) State.reset)).disk = DiskRegs.reset := by decide
theorem test_write_clp_reads_back :
    (after (exec .dskRdClp (after (exec (.dskWrClp 0xDEADBEEF) State.reset)))).reply = .word32 0xDEADBEEF := by decide
theorem test_write_cmd_starts_nothing :
    (after (exec (.dskWrCmd 0o4000) State.reset)).disk.command = 0x800 ∧
    (after (exec (.dskWrCmd 0o4000) State.reset)).history = [] := by decide
theorem test_write_da_does_not_decode :
    (after (exec (.dskWrDa 0x80010203) State.reset)).disk.da = 0x80010203 ∧
    (after (exec (.dskWrDa 0x80010203) State.reset)).disk.curCyl = 0 := by decide
theorem test_da_fields :
    (daUnit 0x00010203, daCyl 0x00010203, daHead 0x00010203, daBlock 0x00010203) = (0, 1, 2, 3) ∧
    (daUnit 0x7FFFFFFF, daCyl 0x7FFFFFFF, daHead 0x7FFFFFFF, daBlock 0x7FFFFFFF) = (7, 0xFFF, 0xFF, 0xFF) ∧
    (daUnit 0x80000000, daCyl 0x80000000, daHead 0x80000000, daBlock 0x80000000) = (0, 0, 0, 0) := by decide
theorem test_ccw_fields :
    (ccwBase 0x2001, ccwCont 0x2001) = (0x2000, true) ∧
    (ccwBase 0xFFFFFFFE, ccwCont 0xFFFFFFFE) = (0x003FFF00, false) ∧
    (ccwBase 0x21FF, ccwCont 0x21FF) = (0x2100, true) := by decide

/-- R103, R105: the encode functions for test vectors. -/
theorem test_da_of_and_ccw_of :
    daOf 0 1 2 3 = 0x00010203 ∧ daOf 7 0xFFF 0xFF 0xFF = 0x7FFFFFFF ∧ ccwOf 0x2100 true = 0x2101 ∧
    ccwOf 0xFFFFFFFF false = 0x003FFF00 := by decide

/-! ## Start commands: V-D1 to V-D19 -/

/-- V-D10, V-D11. -/
theorem test_block_number : blockNumber 19 17 1 2 3 = 360 ∧ blockNumber 19 17 814 18 16 = 263244 := by decide
/-- The counters after `Advance()`. -/
def advanced (r : Rollover) (d : DiskRegs) (c h b : Word) : Word × Word × Word :=
  let d' := DiskRegs.advance r { d with curCyl := c, curHead := h, curBlock := b }
  (d'.curCyl, d'.curHead, d'.curBlock)
/-- V-D12 to V-D14, V-D16, V-D17. -/
theorem test_advance_gt :
    advanced .gt geometry 0 0 16 = (0, 0, 17) ∧ advanced .gt geometry 0 0 17 = (0, 1, 0) ∧
    advanced .gt geometry 0 19 17 = (1, 0, 0) ∧ advanced .gt DiskRegs.reset 0 0 0 = (1, 0, 0) ∧
    advanced .gt geometry 0 0 0xFFFFFFFF = (0, 0, 0) := by decide
/-- V-D15. -/
theorem test_advance_ge :
    advanced .ge geometry 0 0 16 = (0, 1, 0) ∧ advanced .ge geometry 0 18 16 = (1, 0, 0) := by decide
/-- V-D8. -/
theorem test_start_read_compare :
    let t := after (exec (.dskWrStart 0) (withDisk { geometry with da := 0x00010203, command := 0o4010 }))
    (t.disk.curUnit, t.disk.curCyl, t.disk.curHead, t.disk.curBlock) = (0, 1, 2, 3) ∧ t.history = [] := by decide
/-- V-D9. -/
theorem test_start_write :
    let t := after (exec (.dskWrStart 0) (withDisk { geometry with da := 0x30000005, command := 0o11 }))
    t.disk.curUnit = 3 ∧ t.disk.curBlock = 5 ∧ t.history = [] ∧ t.mem = [] := by decide
/-- V-D18, V-D19 and R165's example. -/
theorem test_start_unknown :
    after (exec (.dskWrStart 0) (withDisk { geometry with da := 5, command := 0o7 })) =
      withDisk { geometry with da := 5, command := 0o7 } := by decide
theorem test_start_recalibrate :
    after (exec (.dskWrStart 0) (withDisk { geometry with da := 5, command := 0o5005 })) =
      withDisk { geometry with da := 5, command := 0o5005 } := by decide
theorem test_start_fault_clear :
    after (exec (.dskWrStart 0) (withDisk { geometry with da := 5, command := 0o405 })) =
      withDisk { geometry with da := 5, command := 0o405 } := by decide
/-- V-D3: the first fetch faults. -/
theorem test_read_fetch_fault :
    let s : State := { reading 0x4000 [] with env := { Env.reset with memReadFaults := [true] } }
    let t := after (exec (.dskCmdRead (flags true)) s)
    t.history = [.memRead 0x1000 none] ∧ t.disk.clp = 0x1000 ∧ t.disk.ma = 0 := by decide +kernel
/-- V-D4: MEDIA fails. -/
theorem test_read_media_fail :
    let s : State := { reading 0x4000 [] with
      env := { Env.reset with memReadFaults := [false], mediaFails := [true] } }
    let t := after (exec (.dskCmdRead (flags true)) s)
    t.history = [.mediaRead 0 none, .memRead 0x1000 (some 0x4000)] ∧ t.disk.ma = 0x4000 ∧
      t.disk.curBlock = 0 := by decide +kernel
/-- V-D1: one CCW copies block 0 (its word 2 is the label's cylinder count); no post. -/
theorem test_read_one_ccw :
    let t := after (exec (.dskCmdRead (flags false)) (reading 0x4000 []))
    t.disk.clp = 0x1000 ∧ t.disk.ma = 0x4000 ∧ t.disk.curBlock = 1 ∧ t.history.length = 258 ∧
      Memory.lookup t.mem 0x4002 = some 815 := by decide +kernel
/-- V-D5: the write of 0x4080 faults: 128 words stand, the counters stay, nothing is posted. -/
theorem test_read_destination_fault :
    let s : State := { reading 0x4000 [] with
      env := { Env.reset with
        memReadFaults := [false]
        mediaFails := [false]
        memWriteFaults := List.replicate 128 false ++ [true] } }
    let t := after (exec (.dskCmdRead (flags true)) s)
    t.history.length = 131 ∧ t.history.head? = some (.memWrite 0x4080 0 true) ∧ t.disk.curBlock = 0 ∧
      Memory.lookup t.mem 0x407F = some 0 ∧ Memory.lookup t.mem 0x4080 = none := by decide +kernel
/-- V-D6 on a short copy: with `DEST_FAULT_ABORTS` = false the fault is ignored. -/
theorem test_ignored_destination_fault :
    let s : State := { State.reset with env := { Env.reset with memWriteFaults := [false, true, false] } }
    (writeWords false 0x4000 [7, 8, 9] s).state.mem = [(0x4000, 7), (0x4002, 9)] ∧
      (writeWords true 0x4000 [7, 8, 9] s).state.mem = [(0x4000, 7)] := by decide
/-- V-D2 without media, away from the origin (R158: a silent no-op): two fetches, `clp` moves once. -/
theorem test_read_two_ccws_without_media :
    let s : State := { reading 0x4001 [(0x1001, 0x4100)] with
      disk := { geometry with clp := 0x1000, da := 1 } }
    let t := after (exec (.dskCmdRead (flags true)) s)
    t.disk.clp = 0x1001 ∧ t.disk.ma = 0x4100 ∧ t.disk.curBlock = 3 ∧ t.mem = s.mem ∧
      t.history.map Event.isPost = [true, false, false] := by decide +kernel

/-! ## Images and ATTACH: V-M1 to V-M4, V-A1 to V-A5 -/

theorem test_image_word_order :
    storedWord .littleEndian [1, 2, 3, 4] 0 = 0x04030201 ∧ imageWord [1, 2, 3, 4] 0 = 0x02010403 := by decide
theorem test_swap :
    swapWord .halves 0x12345678 = 0x56781234 ∧ swapWord .halves 0x56781234 = 0x12345678 ∧
    imageWord [0x42, 0x4C, 0x4C, 0x41] 0 = 0x4C42414C ∧ imageWord [0, 0, 0x2F, 3] 0 = 815 := by decide
theorem test_attach :
    let t := after (exec (.evAttach (.bytes image)) State.reset)
    t.reply = .attach true ∧ (t.disk.cyls, t.disk.heads, t.disk.blocksPerTrack) = (815, 19, 17) := by decide +kernel
theorem test_attach_fails :
    (after (exec (.evAttach (.bytes (List.replicate 2048 0))) (withDisk geometry))).reply = .attach false ∧
    (after (exec (.evAttach (.bytes (image.take 1000))) (withDisk geometry))).disk = geometry ∧
    (after (exec (.evAttach .unreadable) (withDisk geometry))).reply = .attach false := by decide +kernel
/-- V-A5: block 2 is past the end. -/
theorem test_media_read_past_the_end :
    blockInImage image 1 = true ∧ (reading 0 []).mediaAnswer image 2 = none := by decide +kernel

/-! ## I/O board: V-I1 to V-I13 -/

theorem test_kbd_lo :
    let t := after (exec .iobRdKbdLo (withIob { IobRegs.reset with keyScan := 0x0C24, kbdCsr := 0x0020 }))
    t.reply = .word16 0x0C24 ∧ t.iob.kbdCsr = 0 := by decide
theorem test_kbd_hi :
    let t := after (exec .iobRdKbdHi (withIob { IobRegs.reset with kbdCsr := 0x0020 }))
    t.reply = .word16 0xFFFF ∧ t.iob.kbdCsr = 0 := by decide
theorem test_csr_write :
    (after (exec (.iobWrKbdCsr 0xFFFF) (withIob { IobRegs.reset with kbdCsr := 0x0020 }))).iob.kbdCsr = 0x002F ∧
    (after (exec (.iobWrKbdCsr 0x0070) (withIob { IobRegs.reset with kbdCsr := 0x002F }))).iob.kbdCsr = 0x0020 := by
  decide
theorem test_csr_read :
    (after (exec .iobRdKbdCsr (withIob { IobRegs.reset with kbdCsr := 0x002F }))).reply = .word16 0x002F := by decide
theorem test_mouse_y_twice :
    let s := withIob { IobRegs.reset with btnHead := true, btnTail := true, mouseY := 250, kbdCsr := 0x0010 }
    let t := after (exec .iobRdMouseY s)
    t.reply = .word16 0x50FA ∧ t.iob.kbdCsr = 0 ∧ (after (exec .iobRdMouseY t)).reply = .word16 0x00FA := by decide
theorem test_mouse_y_middle :
    (after (exec .iobRdMouseY (withIob { IobRegs.reset with btnMiddle := true, mouseY := 0xFFF }))).reply =
      .word16 0x2FFF := by decide
theorem test_mouse_x :
    (after (exec .iobRdMouseX (withIob { IobRegs.reset with mouseX := 500 }))).reply = .word16 0x01F4 ∧
    (after (exec .iobRdMouseX (withIob { IobRegs.reset with mouseRawX := 3, mouseRawY := 2 }))).reply =
      .word16 0xB000 := by decide
theorem test_beep :
    (after (exec .iobRdBeep State.reset)).reply = .word16 0 ∧
    (after (exec .iobRdBeep State.reset)).history = [.alert] ∧
    (after (exec (.iobWrBeep 1) State.reset)).history = [.alert] := by decide
theorem test_zero_reads :
    (after (exec .iobRdClk60 State.reset)).reply = .word16 0 ∧
    (after (exec (.iobRdUnmapped 0o200) State.reset)).reply = .word16 0 ∧
    (after (exec (.iobRdUnmapped 0o200) State.reset)).history = [] := by decide
theorem test_net :
    (after (exec (.iobWrNet 0o152 7) State.reset)).history = [.netWrite 0o152 7] ∧
    (after (exec (.iobRdNet 0o146)
      { State.reset with env := { Env.reset with netAnswers := [0xABCD] } })).reply = .word16 0xABCD := by decide
/-- V-I13 and the other ignored writes. -/
theorem test_ignored_writes : ∀ i ∈ [Instr.iobWrMouseY 0, .iobWrMouseX 0, .iobWrKbdLo 0, .iobWrKbdHi 0,
      .iobWrUsecLo 0, .iobWrUsecHi 0, .iobWrClk60 0, .iobWrUnmapped 0o200 0],
    (after (exec i (withIob { IobRegs.reset with btnHead := true, kbdCsr := 0x0030 }))).iob =
      { IobRegs.reset with btnHead := true, kbdCsr := 0x0030 } := by decide

/-! ## Keys and the mouse: V-K1 to V-K9, V-N1 to V-N4 -/

theorem test_key_plain :
    (pressed 3 0).iob.keyScan = 0x0024 ∧ (pressed 3 0).iob.kbdCsr = 0x0020 ∧
    (pressed 3 0).history = [.post 0o260] := by decide
theorem test_key_packed :
    (pressed 3 6).iob.keyScan = 0x3C24 ∧ (pressed 3 1).iob.keyScan = 0x0064 ∧
    (pressed 4 0).iob.keyScan = 0 ∧ (pressed 4 0).iob.kbdCsr = 0x0020 := by decide
theorem test_key_function :
    (pressed 2 0).iob.keyScan = 0x0B4 ∧ (pressed 2 1).iob.keyScan = 0x0B4 ∧
    (pressed 2 2).iob.keyScan = 0xCB4 ∧
    (State.reset.pressKey fe false false 2 2).iob.keyScan = 0x0B4 := by decide
theorem test_key_modifier : pressed 1 7 = State.reset := by decide
theorem test_key_overrun :
    let t := (pressed 3 0).pressKey fe true false 5 0
    t.iob.keyScan = 9 ∧ t.history = [.post 0o260, .post 0o260] := by decide
/-- `GATE_IOB_INTS` = true (90_conflicts.md C6): no post without the enable. -/
theorem test_key_gated :
    (State.reset.pressKey fe true true 3 0).history = [] ∧
    ((withIob { IobRegs.reset with kbdCsr := 4 }).pressKey fe true true 3 0).history = [.post 0o260] := by decide
theorem test_mouse_event :
    let t := State.reset.moveMouse (3, 2) false 300 150 0b101
    (t.iob.mouseX, t.iob.mouseY, t.iob.btnHead, t.iob.btnMiddle, t.iob.btnTail) = (500, 250, true, false, true) ∧
      (t.iob.mouseRawX, t.iob.mouseRawY) = (3, 2) ∧ t.iob.kbdCsr = 0x0010 ∧ t.history = [.post 0o264] := by decide
theorem test_mouse_accumulates :
    let t := (State.reset.moveMouse (0, 0) false 300 150 0b101).moveMouse (0, 0) false 0 0 0b010
    (t.iob.mouseX, t.iob.mouseY, t.iob.btnHead, t.iob.btnMiddle, t.iob.btnTail) = (0, 0, true, true, true) ∧
      (State.reset.moveMouse (0, 0) false 0 0 0b11111000).iob.btnHead = false := by decide
theorem test_mouse_scale :
    [0, 1, 2, 3, 2457, 2458, 3000].map scaleMouse = [0, 1, 3, 5, 4095, 0, 904] := by decide

/-! ## Timing: V-T1 to V-T10 -/

/-- The reset state at clock time `now`, with the first sample taken at `t0`. -/
def clocked (t0 : Option Nat) (now : Nat) : State :=
  { State.reset with
    timing := { TimingRegs.reset with usecT0 := t0 }
    env := { Env.reset with clockAdvances := [now] } }

theorem test_usec_first :
    let t := after (exec .iobRdUsecLo (clocked none 77))
    t.reply = .word16 0 ∧ t.timing.usecT0 = some 77 ∧ t.timing.usecLatch = 0 := by decide
theorem test_usec_later :
    let t := after (exec .iobRdUsecLo (clocked (some 77) 1000077))
    t.reply = .word16 0x4240 ∧ t.timing.usecLatch = 0x000F4240 ∧
      (after (exec .iobRdUsecHi t)).reply = .word16 0x000F ∧
      (after (exec .iobRdUsecLo (clocked (some 77) (4294967296 + 82)))).timing.usecLatch = 5 := by decide
theorem test_tick_and_deliver :
    let t := after (exec .evTick (after (exec .evTick State.reset)))
    t.timing.tickPending = true ∧ (after (exec .evDeliver t)).timing =
      { TimingRegs.reset with tvCsr := 0x10 } ∧
      (after (exec .evDeliver t)).history.map Event.isPost = [true] := by decide
theorem test_deliver_again :
    let t := after (exec .evDeliver (withTiming { TimingRegs.reset with tvCsr := 0x10, tickPending := true }))
    t.timing.tvCsr = 0x10 ∧ t.history.length = 1 := by decide
theorem test_deliver_not_enabled : (after (exec .evDeliver State.reset)) = State.reset := by decide
theorem test_tv_write :
    (after (exec (.tvWrCsr 0x13) (withTiming { TimingRegs.reset with tvCsr := 0x10 }))).timing.tvCsr = 0x03 ∧
    (after (exec (.tvWrCsr 0xFFFFFFFF) State.reset)).timing.tvCsr = 0xFFFFFFEF := by decide
theorem test_tv_read :
    (after (exec .tvRdCsr (withTiming { TimingRegs.reset with tvCsr := 0x10 }))).reply = .word32 0x10 := by decide

/-! ## Reset and the step: V-X1 -/

theorem test_reset :
    let s : State := { withDisk { geometry with command := 5, ma := 0x100 } with history := [.alert], mem := [(1, 2)] }
    let t := after (exec .evReset s)
    t.disk = DiskRegs.reset ∧ t.iob = IobRegs.reset ∧ t.timing = TimingRegs.reset ∧ t.history = [.alert] ∧
      t.mem = [(1, 2)] := by decide
theorem test_step_runs_a_fetched_selector :
    (after (step (State.reset.withFetchWord 16 0xC004))).timing.tickPending = true := by decide
theorem test_step_runs_a_fetched_command :
    let s : State := withDisk { geometry with da := 0x00010203 }
    (after (step (s.withFetchWord 16 0x0008))).disk.curBlock = 3 := by decide
/-- R92: "a decoder refuses it by name". -/
theorem test_step_refuses : step (waiting ⟨0xC006, .absent⟩) = .refused (.illegalTransaction .eventId) := rfl
theorem test_step_idle : step State.reset = .next State.reset := rfl

/-! ## Witnesses: states and operands that meet the hypotheses of each statement, at its boundaries -/

theorem witness_DecodeOfEncodeIsIdentity :
    WellFormed (.iobRdNet 0o140) = true ∧ WellFormed (.iobWrNet 0o152 7) = true ∧
    WellFormed (.iobRdUnmapped 0o137) = true ∧ WellFormed (.iobWrUnmapped 0o153 7) = true ∧
    WellFormed (.dskCmdUnknown 0o20 (flags true)) = true ∧ WellFormed (.dskWrNop 3 1) = true := by decide
theorem witness_EncodeOfDecodeIsIdentity :
    decode (.transaction ⟨0x2003, .word32 5⟩) = .ok (.dskWrNop 3 5) ∧
    decode (.command 0xFFFFF7FF) = .ok (.dskCmdUnknown 0x3FF ⟨true, false, 0xFFFFF⟩) := by decide
theorem witness_StepRunsTheDecodedTransaction :
    (waiting ⟨0x2007, .word32 9⟩).env.inputs = [.transaction ⟨0x2007, .word32 9⟩] ∧
    decodeTransaction ⟨0x2007, .word32 9⟩ = .ok (.dskWrStart 9) := by decide
theorem witness_StepWithoutADecodedTransaction :
    State.reset.env.inputs = [] ∧
    (waiting ⟨0xC006, .absent⟩).env.inputs = [.transaction ⟨0xC006, .absent⟩] ∧
    decodeTransaction ⟨0xC006, .absent⟩ = .error .eventId ∧
    (State.reset.offer (.hostStore 0xFFFFFFFF 5)).env.inputs = [.hostStore 0xFFFFFFFF 5] := by decide
theorem witness_StepRunsTheFetchedWord : legalSelector (BitVec.ofNat 16 0xC004) = true := by decide
/-- The words log 3 reads as commands, and the highest and the lowest of 12 bits. -/
theorem witness_StepRunsTheFetchedWord_commands :
    ∀ w ∈ [0x0008, 0x0009, 0x0105, 0x0205, 0x0400, 0x0800, 0x0C00, 0x0E05],
      legalSelector (BitVec.ofNat 16 w) = false ∧ w < 4096 ∧
        BitVec.ofNat 10 w ∈ [(0 : BitVec 10), 0o10, 0o11, 0o1005, 0o405] := by decide
/-- An event selector with DIR = 1, a key of no command, and a named key above 12 bits. -/
theorem witness_StepRunsTheFetchedWord_refused :
    ∀ w ∈ [0xE000, 0x0010, 0x1008], legalSelector (BitVec.ofNat 16 w) = false ∧
      ¬ (w < 4096 ∧ BitVec.ofNat 10 w ∈ [(0 : BitVec 10), 0o10, 0o11, 0o1005, 0o405]) := by decide
/-- One command register for each clause; each meets exactly one. -/
theorem witness_StartDispatchesOnTheKey :
    ((0x800 : Word) &&& 0o1777).toNat = 0 ∧ ((0xFFFFF008 : Word) &&& 0o1777).toNat = 0o10 ∧
    ((0o4011 : Word) &&& 0o1777).toNat = 0o11 ∧ ((0o5005 : Word) &&& 0o1777).toNat = 0o1005 ∧
    ((0o405 : Word) &&& 0o1777).toNat = 0o405 ∧ ((0o1777 : Word) &&& 0o1777).toNat = 0o1777 := by decide
theorem witness_ReadFrame : ∃ s t : State, exec (.dskWrStart 0) s = .next t ∧ s.disk.command = 0 ∧
    s.disk.media ≠ .detached := ⟨reading 0x4000 [], _, rfl, rfl, by decide +kernel⟩
/-- A READ with an image: it fetches, copies and writes. -/
theorem witness_read : ∃ t, exec (.dskCmdRead (flags true)) (reading 0x4000 []) = .next t := ⟨_, rfl⟩
theorem witness_ReadMemoryIsItsWriteHistory : ∃ f s t, exec (.dskCmdRead f) s = .next t :=
  ⟨flags true, reading 0x4000 [], witness_read⟩
theorem witness_ReadWritesOnlyUnderItsCcw : ∃ f s t, exec (.dskCmdRead f) s = .next t :=
  ⟨flags true, reading 0x4000 [], witness_read⟩
theorem witness_ReadFetchesConsecutiveCcws : ∃ f s t, exec (.dskCmdRead f) s = .next t :=
  ⟨flags true, reading 0x4000 [], witness_read⟩
/-- At the lowest address of the claim, under a CCW with every address bit set. -/
theorem witness_DmaStaysInCcwRange :
    ∃ t, exec (.dskCmdRead (flags true)) (reading 0xFFFFFFFE []) = .next t ∧ 0x400000 ≤ 0x400000 :=
  ⟨_, rfl, Nat.le_refl _⟩
/-- The disk before a chain at `clp`, with an image. -/
def chainDisk (clp : Word) : DiskRegs := { geometry with clp := clp, media := .attached image }
/-- The start state of that chain, with these answers. -/
def chained (clp : Word) (mem : Memory) (reads : List Bool) (writes : Nat) (more medias : List Bool) : State :=
  { State.reset with
    disk := chainDisk clp
    mem := mem
    env := { Env.reset with
      memReadFaults := reads
      memWriteFaults := List.replicate writes false ++ more
      mediaFails := medias } }

/-- Two CCWs with an image attached: the last whole blocks of the file, the second at the highest base. -/
def twoBlocks : State := chained 0x1000 [(0x1000, 0x4001), (0x1001, 0x3FFF00)] [false, false] 512 [] [false, false]

theorem twoBlocks_answered : ChainAnswered twoBlocks.decodeDa ([0x4001] ++ [0x3FFF00]) [] [] [] where
  fetched := by decide +kernel
  inFile := by intro img h; cases h; decide +kernel
  reads := by decide
  writes := by decide +kernel
  medias := by decide +kernel
theorem witness_ChainReadRunsToItsEnd :
    (∀ c ∈ [(0x4001 : Word)], ccwCont c = true) ∧ ccwCont 0x3FFF00 = false ∧
    ChainAnswered twoBlocks.decodeDa ([0x4001] ++ [0x3FFF00]) [] [] [] :=
  ⟨by simp [ccwCont], by decide, twoBlocks_answered⟩

/-- `n` words `w` from an address on. -/
def runOf (w : Word) : Nat → Nat → Memory
  | 0, _ => []
  | n + 1, a => (a, w) :: runOf w n (a + 1)
theorem lookup_runOf (w : Word) : ∀ (n a k : Nat), k < n → Memory.lookup (runOf w n a) (a + k) = some w
  | 0, _, k, h => absurd h (Nat.not_lt_zero k)
  | n + 1, a, 0, _ => by simp [runOf, Memory.lookup]
  | n + 1, a, k + 1, h => by
    rw [runOf, Memory.lookup, if_neg (by omega), show a + (k + 1) = a + 1 + k by omega]
    exact lookup_runOf w n (a + 1) k (by omega)

/-- The chain of V-D7: 65535 CCWs that all continue, at 0x10000; here without media, unit 1. -/
def longest : State :=
  { State.reset with
    disk := { geometry with clp := 0x10000, da := 0x10000000 }
    mem := runOf 0x4001 65535 0x10000
    env := { Env.reset with memReadFaults := List.replicate 65535 false } }
theorem witness_ChainReadRunsToItsEnd_bound :
    (∀ c ∈ List.replicate 65534 (0x4001 : Word), ccwCont c = true) ∧
    (List.replicate 65534 (0x4001 : Word)).length + 1 = 65535 ∧ ccwCont 0x4001 = true ∧
    ChainAnswered longest.decodeDa (List.replicate 65534 0x4001 ++ [0x4001]) [] longest.env.memWriteFaults
      longest.env.mediaFails := by
  have hskip := fun ccws => chain_skipped ccws longest.decodeDa.disk longest.mem rfl (by decide)
  have hcont : ccwCont 0x4001 = true := by decide
  have hlen : (List.replicate 65534 (0x4001 : Word) ++ [0x4001]).length = 65535 := by
    rw [List.length_append, List.length_replicate, List.length_singleton]
  refine ⟨fun c hc => by rw [List.eq_of_mem_replicate hc]; exact hcont, by rw [List.length_replicate], hcont, ?_⟩
  constructor
  · intro i hi
    rw [hlen] at hi
    have hget : (List.replicate 65534 (0x4001 : Word) ++ [0x4001])[i]'(by rw [hlen]; exact hi) = 0x4001 :=
      (List.mem_append.mp (List.getElem_mem _)).elim List.eq_of_mem_replicate List.mem_singleton.mp
    rw [hget, show longest.decodeDa.mem = longest.mem from rfl, (hskip _).1]
    have haddr : (longest.decodeDa.disk.clp + BitVec.ofNat 32 i).toNat = 0x10000 + i := by
      rw [show longest.decodeDa.disk.clp = 0x10000#32 from rfl, BitVec.toNat_add]
      simp only [BitVec.toNat_ofNat]
      omega
    rw [haddr, Memory.read, show longest.mem = runOf 0x4001 65535 0x10000 from rfl, lookup_runOf _ _ _ _ hi]
    rfl
  · intro img h; cases h
  · rw [hlen, List.append_nil]; rfl
  · rw [(hskip _).2.1]; rfl
  · rw [(hskip _).2.2]; rfl

/-- The second CCW's block covers nothing of the first's, and the other way round. -/
theorem witness_ChainReadCopiesItsBlocks :
    twoBlocks.disk.media = .attached image ∧ ([0x4001] ++ [0x3FFF00] : List Word)[0]? = some 0x4001 ∧
    (∀ later ∈ ([0x4001] ++ [0x3FFF00] : List Word).drop 1, ¬ ccwCovers later (((0x4001 : Word) &&& 0x003FFF00).toNat + 255)) ∧
    ([0x4001] ++ [0x3FFF00] : List Word)[1]? = some 0x3FFF00 ∧
    (∀ ccw ∈ ([0x4001] ++ [0x3FFF00] : List Word), ¬ ccwCovers ccw 0x4100) ∧
    ChainAnswered twoBlocks.decodeDa ([0x4001] ++ [0x3FFF00]) [] [] [] :=
  ⟨rfl, rfl, by simp [ccwCovers, ccwBase, Config.ccwAddrMask], rfl,
    by simp [ccwCovers, ccwBase, Config.ccwAddrMask], twoBlocks_answered⟩
theorem witness_DetachedOriginGetsTheSyntheticLabel :
    let s : State := { reading 0x4000 [] with
      disk := { geometry with clp := 0x1000, da := 0x80000000 } }
    s.disk.media = .detached ∧ s.disk.da &&& 0x7FFFFFFF = 0 ∧
    Memory.read s.mem s.disk.clp.toNat = 0x4000 ∧ (0x4000 : Word).getLsbD 0 = false ∧
    s.env.memReadFaults = false :: [false] ∧
    s.env.memWriteFaults = List.replicate 256 false ++ [] := by decide +kernel

/-- One linked CCW at 0x1000, answered, and what is left for the next one. -/
theorem oneLink_answered (next : Word) (read : Bool) (more medias : List Bool) :
    ChainAnswered (chained 0x1000 [(0x1000, 0x4001), (0x1001, next)] [false, read] 256 more (false :: medias)).decodeDa
      [0x4001] [read] more medias := by
  have hw : chainWrites [0x4001] (chainDisk 0x1000).decodeDa = 256 := by decide +kernel
  have hm : chainMediaReads [0x4001] (chainDisk 0x1000).decodeDa = 1 := by decide +kernel
  constructor
  · intro i h
    obtain rfl : i = 0 := by simpa using h
    rfl
  · intro img h
    cases h
    exact (by decide +kernel : ∀ i < 1, 1024 * (advanceBy i (chainDisk 0x1000).decodeDa).currentBlock + 1024 ≤ image.length)
  · rfl
  · exact congrArg (fun n => List.replicate n false ++ more) hw.symm
  · exact congrArg (fun n => List.replicate n false ++ medias) hm.symm
/-- No CCW before the fault: any state does. -/
theorem noLink_answered (s : State) :
    ChainAnswered s.decodeDa [] s.env.memReadFaults s.env.memWriteFaults s.env.mediaFails :=
  ⟨fun i h => absurd h (Nat.not_lt_zero i), fun _ _ i h => absurd h (Nat.not_lt_zero i), rfl, rfl, rfl⟩
theorem witness_FetchFaultAbortsTheRead :
    ChainAnswered (chained 0x1000 [] [true, false] 0 [] []).decodeDa [] (true :: [false]) [] [] := noLink_answered _
/-- Program P6: the fetch of the second CCW faults. -/
theorem witness_FetchFaultAbortsTheRead_later :
    ccwCont 0x4001 = true ∧
    ChainAnswered (chained 0x1000 [(0x1000, 0x4001), (0x1001, 0)] [false, true] 256 [] [false]).decodeDa
      [0x4001] (true :: []) [] [] := ⟨by decide, oneLink_answered 0 true [] []⟩
/-- Block 2 is just past the end of the file. -/
theorem witness_MediaFailureAbortsTheRead :
    let s : State := { reading 0x4000 [] with
      disk := { geometry with clp := 0x1000, da := 2, media := .attached image } }
    s.disk.media = .attached image ∧ Memory.read (chainMemory [] s.disk.decodeDa s.mem) (s.disk.clp + 0).toNat = 0x4000 ∧
    ChainAnswered s.decodeDa [] (false :: [false]) (List.replicate 256 false) [false, false] ∧
    image.length < 1024 * (advanceBy 0 s.disk.decodeDa).currentBlock + 1024 :=
  ⟨rfl, by decide +kernel, noLink_answered _, by decide +kernel⟩
/-- The second CCW's block meets an I/O error. -/
theorem witness_MediaFailureAbortsTheRead_later :
    let s := chained 0x1000 [(0x1000, 0x4001), (0x1001, 0x8000)] [false, false] 256 [] [false, true]
    s.disk.media = .attached image ∧ ccwCont 0x4001 = true ∧
    Memory.read (chainMemory [0x4001] s.disk.decodeDa s.mem) (s.disk.clp + 1).toNat = 0x8000 ∧
    ChainAnswered s.decodeDa [0x4001] (false :: []) [] [true] ∧
    1024 * (advanceBy 1 s.disk.decodeDa).currentBlock + 1024 ≤ image.length :=
  ⟨rfl, by decide, by decide +kernel, oneLink_answered 0x8000 false [] [true], by decide +kernel⟩
/-- The start state of a READ whose second CCW's block meets a fault at its word `j`. -/
def faulting (j : Nat) : State :=
  chained 0x1000 [(0x1000, 0x4001), (0x1001, 0x8000)] [false, false] 256 (List.replicate j false ++ [true]) [false, false]
/-- The first and the last word of the second CCW's block. -/
theorem witness_DestinationFaultAbortsTheRead : ∀ j ∈ [0, 255],
    Memory.read (chainMemory [0x4001] (faulting j).disk.decodeDa (faulting j).mem) ((faulting j).disk.clp + 1).toNat =
      0x8000 ∧
    1024 * (advanceBy 1 (faulting j).disk.decodeDa).currentBlock + 1024 ≤ image.length ∧
    ((advanceBy 1 (faulting j).disk.decodeDa).copiedWords[j]?).isSome = true ∧ ccwCont 0x4001 = true ∧
    (advanceBy 1 (faulting j).disk.decodeDa).mediaEvents.length = 1 := by decide +kernel
theorem witness_DestinationFaultAbortsTheRead_answered (j : Nat) :
    ChainAnswered (faulting j).decodeDa [0x4001] (false :: []) (List.replicate j false ++ true :: [])
      (List.replicate 1 false ++ []) := oneLink_answered 0x8000 false _ [false]
/-- The last word of the synthetic label, at the first CCW. -/
theorem witness_DestinationFaultAbortsTheRead_label :
    let s : State := { reading 0x4000 [] with
      disk := { geometry with clp := 0x1000 }
      env := { Env.reset with memReadFaults := [false], memWriteFaults := List.replicate 255 false ++ [true] } }
    ChainAnswered s.decodeDa [] (false :: []) (List.replicate 255 false ++ true :: []) [] ∧
    Memory.read (chainMemory [] s.disk.decodeDa s.mem) (s.disk.clp + 0).toNat = 0x4000 ∧
    (advanceBy 0 s.disk.decodeDa).copiedWords[255]? = some (Config.synthLabel 255) :=
  have label : ∀ d : DiskRegs, d.media = .detached → d.atOrigin = true →
      d.copiedWords[255]? = some (Config.synthLabel 255) := by
    intro d hm ho
    simp only [DiskRegs.copiedWords, hm, ho, if_true, synthLabelWords, List.getElem?_ofFn]
    rfl
  ⟨noLink_answered _, by decide +kernel, label _ rfl (by decide +kernel)⟩
/-- The CCWs at 0x0FFE and 0x0FFF; the block of the first, at 0x1000, covers the third. -/
theorem witness_SelfOverwritingChainFetchesTheCopiedWord :
    let s := chained 0x0FFE [(0x0FFE, 0x1001), (0x0FFF, 0x5001)] [false, false, false] 512 [] [false, false]
    s.disk.media = .attached image ∧ (∀ c ∈ [(0x1001 : Word), 0x5001], ccwCont c = true) ∧
    ChainAnswered s.decodeDa [0x1001, 0x5001] (false :: []) [] [] ∧
    ([0x1001, 0x5001] : List Word)[0]? = some 0x1001 ∧ (s.disk.clp + 2).toNat = 0x1000 ∧ ccwCovers 0x1001 0x1000 ∧
    (∀ later ∈ ([0x1001, 0x5001] : List Word).drop 1, ¬ ccwCovers later 0x1000) := by
  refine ⟨rfl, by simp [ccwCont], ?_, rfl, by decide, by simp [ccwCovers, ccwBase, Config.ccwAddrMask],
    by simp [ccwCovers, ccwBase, Config.ccwAddrMask]⟩
  exact {
    fetched := by decide +kernel
    inFile := by intro img h; cases h; decide +kernel
    reads := by decide
    writes := by decide +kernel
    medias := by decide +kernel }
/-- A READ that aborts at its second fetch (program P6), and one that completes with the post. -/
theorem witness_ReadPostsExactlyOnNormalCompletion :
    (∃ t, exec (.dskCmdRead (flags true))
        (chained 0x1000 [(0x1000, 0x4001), (0x1001, 0)] [false, true] 256 [] [false]) = .next t ∧
      t.history.head? = some (.memRead 0x1001 none)) ∧
    ∃ t, exec (.dskCmdRead (flags true)) (reading 0x4000 []) = .next t ∧
      t.history.head?.map Event.isPost = some true :=
  ⟨⟨_, rfl, by decide +kernel⟩, _, rfl, by decide +kernel⟩
/-- Geometry 815/19/17 with the counters at a head and a block. -/
def counters (head block : Word) : DiskRegs := { geometry with curHead := head, curBlock := block }
/-- Inside a track, at the end of a track, at the end of a cylinder. -/
theorem witness_AdvanceRepeatsABlockAtTrackEnds : ∀ d ∈ [counters 0 16, counters 18 17, counters 19 17],
    d.blocksPerTrack.toNat + 1 < 2 ^ 32 ∧ d.heads.toNat + 1 < 2 ^ 32 ∧ d.curCyl.toNat + 1 < 2 ^ 32 ∧
    d.curBlock.toNat ≤ d.blocksPerTrack.toNat ∧ d.curHead.toNat ≤ d.heads.toNat := by
  simp [counters, geometry, DiskRegs.reset]
theorem witness_AdvanceRepeatsABlockAtTrackEnds_clauses :
    (counters 0 16).curBlock.toNat < geometry.blocksPerTrack.toNat ∧
    (counters 18 17).curBlock = geometry.blocksPerTrack ∧ (counters 18 17).curHead.toNat < geometry.heads.toNat ∧
    (counters 19 17).curBlock = geometry.blocksPerTrack ∧ (counters 19 17).curHead = geometry.heads := by decide
theorem witness_AlternativeRolloverIsGapFree : ∀ d ∈ [counters 0 0, counters 0 16, counters 18 16],
    d.curBlock.toNat < d.blocksPerTrack.toNat ∧ d.curHead.toNat < d.heads.toNat ∧ d.curCyl.toNat + 1 < 2 ^ 32 := by
  simp [counters, geometry, DiskRegs.reset]
/-- Under GT block 16 stays in its track and block 17 leaves it; under GE block 15 stays and 16 leaves it;
the same for heads 18 and 19, and 17 and 18. -/
theorem witness_AdvanceRollsOver :
    ¬ geometry.blocksPerTrack.toNat < ((16 : Word) + 1).toNat ∧ geometry.blocksPerTrack.toNat < ((17 : Word) + 1).toNat ∧
    ¬ geometry.heads.toNat < ((18 : Word) + 1).toNat ∧ geometry.heads.toNat < ((19 : Word) + 1).toNat ∧
    ¬ geometry.blocksPerTrack.toNat ≤ ((15 : Word) + 1).toNat ∧ geometry.blocksPerTrack.toNat ≤ ((16 : Word) + 1).toNat ∧
    ¬ geometry.heads.toNat ≤ ((17 : Word) + 1).toNat ∧ geometry.heads.toNat ≤ ((18 : Word) + 1).toNat := by decide
theorem witness_SecondMouseYReadHasNoLatches :
    ∃ t u, exec .iobRdMouseY (withIob { IobRegs.reset with btnHead := true, btnTail := true }) = .next t ∧
      exec .iobRdMouseY t = .next u := ⟨_, _, rfl, rfl⟩
theorem witness_IgnoredWritesChangeNothing :
    WellFormed (.iobWrUnmapped 0o777 5) = true ∧ Instr.iobWrUnmapped 0o777 5 ∈ [.iobWrKbdLo 5, .iobWrKbdHi 5, .iobWrMouseY 5, .iobWrMouseX 5, .iobWrUsecLo 5,
      .iobWrUsecHi 5, .iobWrClk60 5, .iobWrUnmapped 0o777 5] := by decide
theorem witness_NoOpCommandsChangeNothing :
    (0o20 : BitVec 10) ∉ [(0 : BitVec 10), 0o10, 0o11, 0o1005, 0o405] ∧
    (0o1777 : BitVec 10) ∉ [(0 : BitVec 10), 0o10, 0o11, 0o1005, 0o405] := by decide
/-- On both sides of the network sub-range, and an odd offset among the named ones. -/
theorem witness_ConstantReadsAnswerZero :
    let named : List Offset := [0o100, 0o102, 0o104, 0o106, 0o110, 0o112, 0o120, 0o122, 0o124]
    (0o137 : Offset) ∉ named ∧ (0o137 : Offset).toNat < 0o140 ∧ (0o153 : Offset) ∉ named ∧
    0o152 < (0o153 : Offset).toNat ∧ (0o101 : Offset) ∉ named ∧ (0o101 : Offset).toNat < 0o140 := by decide
theorem witness_NetworkOffsetsPassThrough_range :
    0o140 ≤ (0o140 : Offset).toNat ∧ (0o152 : Offset).toNat ≤ 0o152 := by decide
theorem witness_NetworkOffsetsPassThrough :
    ({ State.reset with env := { Env.reset with netAnswers := [0xABCD, 1] } } : State).env.netAnswers =
      0xABCD :: [1] := by decide
/-- No sample yet, and a sample taken at the same microsecond. -/
theorem witness_MicrosecondLowSamplesHighReuses :
    (clocked none 77).env.clockAdvances = 77 :: [] ∧ (clocked none 77).timing.usecT0 = none ∧
    (clocked (some 77) 77).env.clockAdvances = 77 :: [] ∧ (clocked (some 77) 77).timing.usecT0 = some 77 ∧
    77 ≤ (clocked (some 77) 77).env.wallClock + 77 := by decide
theorem witness_KeyWordKeepsCodeAndPacksModifiers :
    fe.fkey 2 = some .help ∧ 3 &&& fe.extraCtrl = 2 &&& fe.extraCtrl ∧ 3 &&& fe.extraMeta = 2 &&& fe.extraMeta ∧
    fe.fkey 3 = none := by decide
/-- No override names key 3; two name key 5. -/
theorem witness_LastScanOverrideWins :
    (∀ p ∈ fe.scanPatches, ¬ (p.1 = 3 ∧ p.2.1 = false)) ∧
    fe.scanPatches = [(5, false, 7)] ++ (5, false, 9) :: [] ∧
    (∀ p ∈ ([] : List (Nat × Bool × BitVec 8)), ¬ (p.1 = 5 ∧ p.2.1 = false)) := by decide
theorem witness_TickSetsAndDeliverPosts :
    (withTiming { TimingRegs.reset with tickPending := true }).timing.tickPending = true := by decide
theorem witness_DeliverNotEnabledChangesNothing : State.reset.timing.tickPending = false := by decide
theorem witness_TicksCoalesce :
    let tick : Input := .transaction ⟨0xC004, .absent⟩
    let deliver : Input := .transaction ⟨0xC005, .absent⟩
    ({ State.reset with env := { Env.reset with inputs := [tick, tick, tick, deliver, tick] } } : State).env.inputs =
      List.replicate (2 + 1) tick ++ deliver :: [tick] := by decide
/-- A label, a file one byte short of a block, and a whole block without the magic. -/
theorem witness_AttachLoadsGeometryOrDetaches :
    1024 ≤ image.length ∧ imageWord image 0 = 0x4C42414C ∧ (image.take 1023).length < 1024 ∧
    imageWord (List.replicate 1024 0) 0 ≠ 0x4C42414C := by decide +kernel
theorem witness_ImageWordsAreHalfSwapped :
    let img : List Byte := [9, 1, 2, 3, 4]
    img[1]? = some 1 ∧ img[1 + 1]? = some 2 ∧ img[1 + 2]? = some 3 ∧ img[1 + 3]? = some 4 := by decide
/-- The invariant in a state with an image attached, a sample taken and a READ about to run. -/
theorem witness_StepKeepsTheInvariant :
    let s : State := { (reading 0x4000 []) with
      disk := { geometry with clp := 0x1000, media := .attached image }
      timing := { TimingRegs.reset with usecT0 := some 5 }
      env := { Env.reset with
        inputs := [.transaction ⟨0x2007, .word32 0⟩]
        wallClock := 5
        memReadFaults := [false]
        mediaFails := [false]
        memWriteFaults := List.replicate 256 false } }
    Inv s ∧ ∃ t, step s = .next t := by
  refine ⟨⟨rfl, by decide, ?_, by decide, by decide, ?_⟩, ⟨_, rfl⟩⟩
  · intro img h
    cases h
    decide +kernel
  · intro first h
    cases h
    decide
theorem witness_StepPostsAtMostOnceAndLast :
    ∃ t new, step ({ (waiting ⟨0xC005, .absent⟩) with timing := { TimingRegs.reset with tickPending := true } }) =
        .next t ∧ t.history = new ++ [] ∧ new = [] ++ .post Config.lineTv :: [] ∧
      (Event.post Config.lineTv).isPost = true := ⟨_, _, rfl, rfl, rfl, rfl⟩
/-- Each of the four sources but the disk, whose post the READ statements cover, posts its line. -/
theorem witness_PostSources :
    (∃ t, exec .evDeliver (withTiming { TimingRegs.reset with tickPending := true }) = .next t ∧
      t.history = [.post Config.lineTv] ++ []) ∧
    (∃ t, exec (.evMouse 1 1 0 0 0) State.reset = .next t ∧ t.history = [.post 0o264] ++ []) :=
  ⟨⟨_, rfl, rfl⟩, ⟨_, rfl, rfl⟩⟩
/-- The disk source: a READ by the start write with `DONE_INT_EN`, without media, posts last. -/
theorem witness_PostSources_disk :
    let s : State := { reading 0x4000 [] with disk := { geometry with clp := 0x1000, da := 1, command := 0x800 } }
    ∃ t, exec (.dskWrStart 0) s = .next t ∧ .post Config.lineDisk ∈ t.history :=
  ⟨_, rfl, List.mem_cons_self⟩
theorem witness_OnlyAttachAndResetChangeMedia :
    ∃ t, exec .evReset (reading 0x4000 []) = .next t ∧ t.disk.media ≠ (reading 0x4000 []).disk.media :=
  ⟨_, rfl, by decide +kernel⟩
/-- A flag set and a flag cleared. -/
theorem witness_FlagSettersAndClearers :
    (∃ t, exec (.evMouse 1 1 0 0 7) State.reset = .next t ∧ State.reset.iob.btnTail = false ∧ t.iob.btnTail = true) ∧
    (∃ t, exec .iobRdMouseY (withIob { IobRegs.reset with btnTail := true, kbdCsr := 0x10 }) = .next t ∧
      t.iob.btnTail = false ∧ t.iob.kbdCsr.getLsbD 4 = false) :=
  ⟨⟨_, rfl, rfl, rfl⟩, ⟨_, rfl, rfl, rfl⟩⟩
theorem witness_OtherReadsHaveNoSideEffect :
    ∃ t, exec (.iobRdUnmapped 0o777) (withIob { IobRegs.reset with keyScan := 5 }) = .next t := ⟨_, rfl⟩
theorem witness_WallClockNeverGoesBack :
    ∃ t, step ({ (waiting ⟨0x4050, .absent⟩) with
      env := { (waiting ⟨0x4050, .absent⟩).env with clockAdvances := [7] } }) = .next t ∧ t.env.wallClock = 7 :=
  ⟨_, rfl, rfl⟩
/-- Two states that differ in the disk and in host memory. -/
theorem witness_InputSideIsIsolatedFromTheDisk :
    let s : State := { reading 0x4000 [] with env := Env.reset }
    (∃ tr, encode .iobRdMouseY = .transaction tr ∧ selSpace tr.selector ≠ 0) ∧
    (.iobRdMouseY : Instr) ≠ .evReset ∧ (∀ file, (.iobRdMouseY : Instr) ≠ .evAttach file) ∧
    State.reset.iob = s.iob ∧ State.reset.timing = s.timing ∧ State.reset.env = s.env ∧
    State.reset.mem ≠ s.mem ∧
    (∃ t, exec .iobRdMouseY s = .next t) ∧ ∃ t', exec .iobRdMouseY State.reset = .next t' :=
  ⟨⟨_, rfl, by decide⟩, by decide, fun _ => Instr.noConfusion, rfl, rfl, rfl, by decide, ⟨_, rfl⟩, ⟨_, rfl⟩⟩

end Sys2Proof.Tests
end

