-- ==== Sys2Proof/Proofs/Scope.lean ====
section
/-! SUPPORT. What the block leaves alone: the step that runs a decoded transaction, what a command and the
start write can do, and the separation of the input side (I/O board, timing, environment) from the disk
side (disk controller, host memory); 00_scope.md R1, R4, R6. -/

namespace Sys2Proof.Machine

/-! ## The step -/

/-- Settles O6: the step reads the first input and decodes it. -/
theorem stepRunsTheDecodedTransaction : Obligations.StepRunsTheDecodedTransaction := by
  intro s t rest i hin hdec
  simp only [step, hin, hdec]
  rfl

/-! ## What a command does -/

/-- The walk of a chain is a part of a transfer, however it ends. -/
theorem walkChain_part (n : Nat) (s : State) : ∃ new, TransferPart s (walkChain n s).state new := by
  refine walkChain_induct (fun u => ∃ new, TransferPart s u new) ?_ n s ⟨[], TransferPart.refl s⟩
  rintro u ⟨old, hold⟩
  obtain ⟨new, hnew, -⟩ := walkCcw_part u
  exact ⟨_, hold.trans hnew⟩

/-- `Decode()` is a part of a transfer without a service call. -/
theorem State.decodeDa_part (s : State) : TransferPart s s.decodeDa [] := State.withDisk_part rfl

/-- `t` is where a command ends that starts in `s`: after a part of a transfer, and at most one post of
`LINE_DISK` behind it, nothing is returned. -/
def CommandEnds (s t : State) : Prop :=
  ∃ u new, TransferPart s u new ∧
    (t = u.replying .nothing ∨ t = (u.post Config.lineDisk).replying .nothing)

/-- A part of a transfer with no post behind it ends as a command does. -/
theorem TransferPart.commandEnds {s u : State} {new : List Event} (h : TransferPart s u new) :
    CommandEnds s (u.replying .nothing) :=
  ⟨u, new, h, .inl rfl⟩

/-- READ decodes, walks the chain, and may post (41_disk_commands.md R151, R163). -/
theorem readTransfer_commandEnds (done : Bool) (s : State) :
    CommandEnds s ((readTransfer done s).replying .nothing) := by
  obtain ⟨new, hwalk⟩ := walkChain_part Config.chainBound s.decodeDa
  have hpart := s.decodeDa_part.trans hwalk
  rw [readTransfer]
  obtain hend | ⟨-, hend⟩ := completeRead_cases done (walkChain Config.chainBound s.decodeDa)
  · rw [hend]; exact hpart.commandEnds
  · rw [hend]; exact ⟨_, _, hpart, .inr rfl⟩

/-- Every command answers a next state, and ends as a command does. -/
theorem exec_decodeCommand (w : Word) (s : State) :
    ∃ t, exec (decodeCommand w) s = .next t ∧ CommandEnds s t := by
  have hnoOp : CommandEnds s (s.replying .nothing) := (TransferPart.refl s).commandEnds
  have hdecode : CommandEnds s (s.decodeDa.replying .nothing) := s.decodeDa_part.commandEnds
  unfold decodeCommand
  split_ifs
  · exact ⟨_, rfl, readTransfer_commandEnds _ s⟩  -- READ
  · exact ⟨_, rfl, hdecode⟩  -- READ_COMPARE
  · exact ⟨_, rfl, hdecode⟩  -- WRITE
  · exact ⟨_, rfl, hnoOp⟩  -- RECALIBRATE
  · exact ⟨_, rfl, hnoOp⟩  -- FAULT_CLEAR
  · exact ⟨_, rfl, hnoOp⟩  -- UNKNOWN

/-- READ alone, and the start write whatever command it dispatches on, end as a command does
(41_disk_commands.md R150, R151). -/
theorem commandEnds_of_readOrStart {i : Instr} {s t : State}
    (hi : (∃ f, i = .dskCmdRead f) ∨ ∃ v, i = .dskWrStart v) (h : exec i s = .next t) : CommandEnds s t := by
  obtain ⟨f, rfl⟩ | ⟨v, rfl⟩ := hi
  · cases h
    exact readTransfer_commandEnds f.doneIntEn s
  · have hstart : exec (.dskWrStart v) s = exec (decodeCommand s.disk.command) s := startCommand_eq s
    obtain ⟨u, hu, hends⟩ := exec_decodeCommand s.disk.command s
    rw [hstart, hu] at h
    cases h
    exact hends

/-- Settles O14: the post and the reply change none of what a part of a transfer keeps. -/
theorem readFrame : Obligations.ReadFrame := by
  intro i s t hi h
  obtain ⟨u, new, hpart, rfl | rfl⟩ := commandEnds_of_readOrStart hi h
  · exact ⟨hpart.iob, hpart.timing, hpart.disk, hpart.env, new, hpart.history⟩
  · exact ⟨hpart.iob, hpart.timing, hpart.disk, hpart.env, .post Config.lineDisk :: new,
      congrArg _ hpart.history⟩

/-! ## An event's post -/

section
variable (cond : Bool) (line : Nat) (s : State)

@[simp] theorem State.postIf_disk : (s.postIf cond line).disk = s.disk := by cases cond <;> rfl
@[simp] theorem State.postIf_iob : (s.postIf cond line).iob = s.iob := by cases cond <;> rfl
@[simp] theorem State.postIf_timing : (s.postIf cond line).timing = s.timing := by cases cond <;> rfl
@[simp] theorem State.postIf_mem : (s.postIf cond line).mem = s.mem := by cases cond <;> rfl
@[simp] theorem State.postIf_reply : (s.postIf cond line).reply = s.reply := by cases cond <;> rfl
@[simp] theorem State.postIf_env : (s.postIf cond line).env = s.env := by cases cond <;> rfl

end

/-! ## The input side and the disk side -/

/-- Two states that may differ in the disk side, the history and the reply alone. -/
structure SameInputSide (s s' : State) : Prop where
  iob    : s'.iob = s.iob
  timing : s'.timing = s.timing
  env    : s'.env = s.env

/-- A change of the state that keeps the disk side and does to the input side what the input side alone
decides. -/
structure InputSideOp (f : State → State) : Prop where
  disk : ∀ s, (f s).disk = s.disk
  mem  : ∀ s, (f s).mem = s.mem
  same : ∀ {s s'}, SameInputSide s s' → SameInputSide (f s) (f s')

theorem InputSideOp.id : InputSideOp fun s => s := ⟨fun _ => rfl, fun _ => rfl, fun h => h⟩

theorem InputSideOp.withIob (g : IobRegs → IobRegs) : InputSideOp fun s => s.withIob (g s.iob) :=
  ⟨fun _ => rfl, fun _ => rfl, fun h => ⟨congrArg g h.iob, h.timing, h.env⟩⟩

theorem InputSideOp.withTiming (g : TimingRegs → TimingRegs) :
    InputSideOp fun s => s.withTiming (g s.timing) :=
  ⟨fun _ => rfl, fun _ => rfl, fun h => ⟨h.iob, congrArg g h.timing, h.env⟩⟩

/-- The history is on neither side: an event recorded may depend on the whole state. -/
theorem InputSideOp.record {f : State → State} (hf : InputSideOp f) (e : State → Event) :
    InputSideOp fun s => (f s).record (e s) :=
  ⟨hf.disk, hf.mem, fun h => ⟨(hf.same h).iob, (hf.same h).timing, (hf.same h).env⟩⟩

theorem InputSideOp.postIf {f : State → State} (hf : InputSideOp f) (cond : State → Bool) (line : Nat) :
    InputSideOp fun s => (f s).postIf (cond s) line where
  disk s := by rw [State.postIf_disk, hf.disk]
  mem s := by rw [State.postIf_mem, hf.mem]
  same h := by
    obtain ⟨hiob, htiming, henv⟩ := hf.same h
    exact ⟨by simp [hiob], by simp [htiming], by simp [henv]⟩

theorem State.netRead_inputSideOp (off : Offset) : InputSideOp (State.netRead off) :=
  ⟨fun _ => rfl, fun _ => rfl, fun h => ⟨h.iob, h.timing, congrArg Env.dropNetAnswer h.env⟩⟩

theorem State.sample_inputSideOp : InputSideOp State.sample :=
  ⟨fun _ => rfl, fun _ => rfl, fun h =>
    ⟨h.iob, by simp [h.timing, h.env], congrArg Env.afterNow h.env⟩⟩

/-- The front end's table and the key decide whether the key is a pure modifier, whatever the state. -/
theorem State.pressKey_inputSideOp {κ : Type} [DecidableEq κ] (fe : FrontEnd κ) (pack gate : Bool) (code : κ)
    (extra : Nat) : InputSideOp (State.pressKey fe pack gate code extra) := by
  unfold State.pressKey
  split
  · exact .id
  · exact (InputSideOp.withIob (IobRegs.takeKey _)).postIf _ _

theorem State.moveMouse_inputSideOp (raw : BitVec 2 × BitVec 2) (gate : Bool) (x y buttons : Nat) :
    InputSideOp (State.moveMouse raw gate x y buttons) :=
  (InputSideOp.withIob (IobRegs.takeMouse x y raw buttons)).postIf _ _

/-- A meaning that keeps the disk side, and whose effect on the input side and whose reply the input side
alone decides. -/
def IsolatedFromDisk (meaning : State → Result) : Prop :=
  ∀ s t s' t', SameInputSide s s' → meaning s = .next t → meaning s' = .next t' →
    t.disk = s.disk ∧ t.mem = s.mem ∧ SameInputSide t t' ∧ t'.reply = t.reply

/-- A change of the input side, then a reply read from the input side. -/
theorem InputSideOp.isolated {f : State → State} {r : State → Reply} (hf : InputSideOp f)
    (hr : ∀ {s s'}, SameInputSide s s' → r s' = r s) :
    IsolatedFromDisk fun s => .next ((f s).replying (r s)) := by
  intro s t s' t' h ht ht'
  cases ht
  cases ht'
  obtain ⟨hiob, htiming, henv⟩ := hf.same h
  exact ⟨hf.disk s, hf.mem s, ⟨hiob, htiming, henv⟩, hr h⟩

/-- A choice between two isolated meanings that is made on the input side. -/
theorem IsolatedFromDisk.ite {cond : State → Bool} {m n : State → Result}
    (hcond : ∀ {s s'}, SameInputSide s s' → cond s' = cond s) (hm : IsolatedFromDisk m)
    (hn : IsolatedFromDisk n) : IsolatedFromDisk fun s => if cond s then m s else n s := by
  intro s t s' t' h ht ht'
  cases hc : cond s <;> simp only [hcond h, hc, if_true, Bool.false_eq_true, if_false] at ht ht'
  case true => exact hm s t s' t' h ht ht'
  case false => exact hn s t s' t' h ht ht'

/-- DELIVER chooses on `tick_pending`, which is on the input side (44_timing.md R273). -/
theorem execEvDeliver_isolated : IsolatedFromDisk execEvDeliver :=
  IsolatedFromDisk.ite (cond := fun s => s.timing.tickPending) (fun h => by rw [h.timing])
    (((InputSideOp.withTiming TimingRegs.deliver).record fun _ => .post Config.lineTv).isolated fun _ => rfl)
    (InputSideOp.id.isolated fun _ => rfl)

/-- A disk transaction's selector has `SPACE` = 0 (30_encoding.md R91). -/
theorem selSpace_encDisk {dir : Bool} {index : BitVec 3} {ops : Operands} {tr : Transaction}
    (h : encDisk dir index ops = .transaction tr) : selSpace tr.selector = 0 := by
  have hspace : ∀ (dir : Bool) (index : BitVec 3),
      selSpace (selectorOf 0 dir ((0 : BitVec 6) ++ index)) = 0 := by decide
  cases h
  exact hspace dir index

/-- Every transaction outside the disk space but RESET and ATTACH is isolated from the disk side. -/
theorem exec_isolated {i : Instr} {tr : Transaction} (henc : encode i = .transaction tr)
    (hspace : selSpace tr.selector ≠ 0) (hreset : i ≠ .evReset) (hattach : ∀ file, i ≠ .evAttach file) :
    IsolatedFromDisk (exec i) := by
  cases i with
  | dskRdStatus | dskRdMa | dskRdDa | dskRdEcc | dskRdStatus2 | dskRdClp | dskRdDa2 | dskRdZero | dskWrNop
  | dskWrCmd | dskWrClp | dskWrDa | dskWrStart => exact absurd (selSpace_encDisk henc) hspace
  | dskCmdRead | dskCmdReadCompare | dskCmdWrite | dskCmdRecalibrate | dskCmdFaultClear
  | dskCmdUnknown => cases henc
  | evReset => exact absurd rfl hreset
  | evAttach file => exact absurd rfl (hattach file)
  | iobWrKbdLo | iobWrKbdHi | iobWrMouseY | iobWrMouseX | iobWrUsecLo | iobWrUsecHi | iobWrClk60
  | iobWrUnmapped | iobRdClk60 | iobRdUnmapped => exact InputSideOp.id.isolated fun _ => rfl
  | iobRdKbdLo =>
    exact (InputSideOp.withIob IobRegs.clearKbdReady).isolated fun h => by rw [h.iob]
  | iobRdKbdHi => exact (InputSideOp.withIob IobRegs.clearKbdReady).isolated fun _ => rfl
  | iobRdMouseY =>
    exact (InputSideOp.withIob (IobRegs.acknowledgeMouse Config.mouseYClearsReady)).isolated
      fun h => by rw [h.iob]
  | iobRdMouseX => exact InputSideOp.id.isolated fun h => by rw [h.iob]
  | iobRdBeep | iobWrBeep => exact (InputSideOp.id.record _).isolated fun _ => rfl
  | iobRdKbdCsr => exact InputSideOp.id.isolated fun h => by rw [h.iob]
  | iobWrKbdCsr v => exact (InputSideOp.withIob (IobRegs.mergeEnables v)).isolated fun _ => rfl
  | iobRdUsecLo =>
    exact State.sample_inputSideOp.isolated fun h => by rw [(State.sample_inputSideOp.same h).timing]
  | iobRdUsecHi => exact InputSideOp.id.isolated fun h => by rw [h.timing]
  | iobRdNet off => exact (State.netRead_inputSideOp off).isolated fun h => by rw [h.env]
  | iobWrNet off v => exact (InputSideOp.id.record _).isolated fun _ => rfl
  | tvRdCsr => exact InputSideOp.id.isolated fun h => by rw [h.timing]
  | tvWrCsr v => exact (InputSideOp.withTiming (TimingRegs.writeTvCsr v)).isolated fun _ => rfl
  | evKey code extra => exact (State.pressKey_inputSideOp _ _ _ code extra).isolated fun _ => rfl
  | evMouse x y dx dy buttons =>
    exact (State.moveMouse_inputSideOp _ _ x y buttons).isolated fun _ => rfl
  | evTick =>
    exact (InputSideOp.withTiming fun t => { t with tickPending := true }).isolated fun _ => rfl
  | evDeliver => exact execEvDeliver_isolated

/-- Settles O58: the meaning of every input-side transaction is built of changes of the input side. -/
theorem inputSideIsIsolatedFromTheDisk : Obligations.InputSideIsIsolatedFromTheDisk := by
  rintro i s t s' t' ⟨tr, henc, hspace⟩ hreset hattach hiob htiming henv ht ht'
  obtain ⟨hdisk, hmem, hsame, hreply⟩ :=
    exec_isolated henc hspace hreset hattach s t s' t' ⟨hiob, htiming, henv⟩ ht ht'
  exact ⟨hdisk, hmem, hsame.iob, hsame.timing, hsame.env, hreply⟩

end Sys2Proof.Machine
end

