-- ==== Sys2Proof/Proofs/Effects.lean ====
section
/-! SUPPORT. What an instruction can do to each part of the state, said once for every instruction but RESET,
and what follows from it: who moves which flag (10_state.md R40), and the invariant of the machine. -/

namespace Sys2Proof.Machine

/-! ## The steps of a READ and `ma` -/

/-- The disk controller keeps `ma`, or loads it from a CCW (41_disk_commands.md R156). -/
def DiskRegs.LoadsMa (d d' : DiskRegs) : Prop := d'.ma = d.ma ∨ ∃ ccw, d'.ma = ccwBase ccw

theorem finishCcw_ma (ccw : Word) (s : State) : (finishCcw ccw s).state.disk.ma = s.disk.ma := by
  unfold finishCcw
  split <;> exact s.disk.advance_ma Config.rollover

theorem walkCcw_loadsMa (s : State) : s.disk.LoadsMa (walkCcw s).state.disk := by
  cases hm : s.memAnswer s.disk.clp with
  | none => rw [walkCcw_fetchFault hm]; exact .inl rfl
  | some ccw =>
    obtain ⟨-, -, -, hdisk, -⟩ := copyBlock_part s.disk.currentBlock ccw (s.fetchCcw ccw)
    refine .inr ⟨ccw, ?_⟩
    cases hc : copyBlock s.disk.currentBlock (ccwBase ccw) (s.fetchCcw ccw) with
    | aborted t =>
      rw [hc] at hdisk
      rw [walkCcw_copyAborts hm hc]
      exact congrArg DiskRegs.ma hdisk
    | ongoing t =>
      rw [hc] at hdisk
      rw [walkCcw_copied hm hc, finishCcw_ma]
      exact congrArg DiskRegs.ma hdisk

theorem walkChain_loadsMa (n : Nat) (s : State) : s.disk.LoadsMa (walkChain n s).state.disk := by
  refine walkChain_induct (fun u => s.disk.LoadsMa u.disk) ?_ n s (.inl rfl)
  intro u hu
  obtain hkept | hloaded := walkCcw_loadsMa u
  · rwa [DiskRegs.LoadsMa, hkept]
  · exact .inr hloaded

theorem readTransfer_loadsMa (done : Bool) (s : State) : s.disk.LoadsMa (readTransfer done s).disk := by
  have hwalk : s.disk.LoadsMa _ := walkChain_loadsMa Config.chainBound s.decodeDa
  rw [readTransfer]
  obtain hend | ⟨-, hend⟩ := completeRead_cases done (walkChain Config.chainBound s.decodeDa) <;>
  · rw [hend]; exact hwalk

/-! ## What an instruction does to each part of the state -/

/-- What an instruction other than RESET does to the I/O board. -/
inductive IobEffect : Instr → IobRegs → IobRegs → Prop
  | same {i b} : IobEffect i b b
  | keyboardRead {i b} (h : i = .iobRdKbdLo ∨ i = .iobRdKbdHi) : IobEffect i b b.clearKbdReady
  | mouseYRead {b} : IobEffect .iobRdMouseY b (b.acknowledgeMouse Config.mouseYClearsReady)
  | csrWrite {b v} : IobEffect (.iobWrKbdCsr v) b (b.mergeEnables v)
  | key {b code extra w} : IobEffect (.evKey code extra) b (b.takeKey w)
  | mouse {b x y dx dy buttons raw} : IobEffect (.evMouse x y dx dy buttons) b (b.takeMouse x y raw buttons)

/-- What an instruction other than RESET does to the timing subsystem, `now` being the clock after it. -/
inductive TimingEffect (now : Nat) : Instr → TimingRegs → TimingRegs → Prop
  | same {i b} : TimingEffect now i b b
  | csrWrite {b v} : TimingEffect now (.tvWrCsr v) b (b.writeTvCsr v)
  | tick {b} : TimingEffect now .evTick b { b with tickPending := true }
  | deliver {b} : TimingEffect now .evDeliver b b.deliver
  | sample {b} : TimingEffect now .iobRdUsecLo b
      { b with usecLatch := sampleValue b.usecT0 now, usecT0 := some (sampleT0 b.usecT0 now) }

/-- The registers of the disk controller that only ATTACH and RESET write are kept. -/
structure DiskRegs.SameDrive (d d' : DiskRegs) : Prop where
  status         : d'.status = d.status
  cyls           : d'.cyls = d.cyls
  heads          : d'.heads = d.heads
  blocksPerTrack : d'.blocksPerTrack = d.blocksPerTrack
  media          : d'.media = d.media

theorem DiskRegs.SameDrive.refl (d : DiskRegs) : d.SameDrive d := ⟨rfl, rfl, rfl, rfl, rfl⟩

/-- What an instruction other than RESET does to the disk controller. -/
inductive DiskEffect : Instr → DiskRegs → DiskRegs → Prop
  | operate {i d d'} (drive : d.SameDrive d') (ma : d.LoadsMa d') : DiskEffect i d d'
  | attach {d img} (valid : labelValid img = true) : DiskEffect (.evAttach (.bytes img)) d (d.attach img)
  | detach {d file} : DiskEffect (.evAttach file) d { d with media := .detached }

theorem DiskEffect.same {i : Instr} {d : DiskRegs} : DiskEffect i d d := .operate (.refl d) (.inl rfl)

/-- What an instruction other than RESET does to the state `s`, part by part: host memory changes by the writes
of some events, and the clock does not go back. Where a field is not given, the part stays as it is. -/
structure ExecEffect (i : Instr) (s t : State) : Prop where
  iob    : IobEffect i s.iob t.iob := by exact .same
  timing : TimingEffect t.env.wallClock i s.timing t.timing := by exact .same
  disk   : DiskEffect i s.disk t.disk := by exact .same
  mem    : ∃ new, t.mem = applyEvents new s.mem := by exact ⟨[], rfl⟩
  clock  : s.env.wallClock ≤ t.env.wallClock := by exact Nat.le_refl _

/-- The post of an input event is on none of the parts. -/
theorem ExecEffect.postIf {i : Instr} {s u : State} {r : Reply} (h : ExecEffect i s (u.replying r)) (cond : Bool)
    (line : Nat) : ExecEffect i s ((u.postIf cond line).replying r) := by
  cases cond with
  | false => exact h
  | true => exact { h with }

/-- The sample is taken at the clock of the state after it (44_timing.md R271). -/
theorem State.sample_effect (s : State) (r : Reply) : ExecEffect .iobRdUsecLo s (s.sample.replying r) where
  timing := by
    rw [State.replying_env, State.sample_env, Env.afterNow_wallClock]
    exact .sample
  clock := by
    rw [State.replying_env, State.sample_env, Env.afterNow_wallClock]
    exact s.env.wallClock_le_now

theorem State.pressKey_effect (fe : FrontEnd KeyCode) (pack gate : Bool) (code : KeyCode) (extra : Nat)
    (s : State) (r : Reply) :
    ExecEffect (.evKey code extra) s ((s.pressKey fe pack gate code extra).replying r) := by
  unfold State.pressKey
  split
  · exact {}
  · exact ExecEffect.postIf { iob := .key } _ _

theorem execEvDeliver_effect {s t : State} (h : execEvDeliver s = .next t) : ExecEffect .evDeliver s t := by
  unfold execEvDeliver at h
  split at h <;> cases h
  · exact { timing := .deliver }
  · exact {}

theorem failAttach_effect {file : ImageFile} {s t : State} (h : failAttach s = .next t) :
    ExecEffect (.evAttach file) s t := by
  cases h
  exact { disk := .detach }

theorem execEvAttach_effect {file : ImageFile} {s t : State} (h : execEvAttach file s = .next t) :
    ExecEffect (.evAttach file) s t := by
  cases file with
  | unreadable => exact failAttach_effect h
  | bytes img =>
    unfold execEvAttach at h
    dsimp only at h
    split at h
    · next hvalid => cases h; exact { disk := .attach hvalid }
    · exact failAttach_effect h

theorem TransferPart.effect {s u : State} {new : List Event} (h : TransferPart s u new)
    (hma : s.disk.LoadsMa u.disk) (i : Instr) : ExecEffect i s u where
  iob := by rw [h.iob]; exact .same
  timing := by rw [h.timing]; exact .same
  disk := .operate (by rw [h.disk]; exact ⟨rfl, rfl, rfl, rfl, rfl⟩) hma
  mem := ⟨new, h.memory⟩
  clock := (congrArg Env.wallClock h.env).ge

theorem CommandEnds.effect {s t : State} (h : CommandEnds s t) (hma : s.disk.LoadsMa t.disk) (i : Instr) :
    ExecEffect i s t := by
  obtain ⟨u, new, hpart, rfl | rfl⟩ := h <;>
  exact { hpart.effect hma i with }

theorem execDskCmdRead_effect {f : CommandFlags} {s t : State} (h : execDskCmdRead f s = .next t) (i : Instr) :
    ExecEffect i s t := by
  cases h
  exact (readTransfer_commandEnds f.doneIntEn s).effect (readTransfer_loadsMa f.doneIntEn s) i

/-- The start write does what the command in the register does (41_disk_commands.md R150). -/
theorem startCommand_effect {s t : State} (h : startCommand s = .next t) (i : Instr) : ExecEffect i s t := by
  have hdecode : ExecEffect i s (s.decodeDa.replying .nothing) :=
    { disk := .operate ⟨rfl, rfl, rfl, rfl, rfl⟩ (.inl rfl) }
  dsimp only [startCommand] at h
  split_ifs at h
  · exact execDskCmdRead_effect h i
  · cases h; exact hdecode  -- READ_COMPARE
  · cases h; exact hdecode  -- WRITE
  · cases h; exact {}  -- RECALIBRATE
  · cases h; exact {}  -- FAULT_CLEAR
  · cases h; exact {}  -- UNKNOWN

/-- What every instruction but RESET does, part by part. -/
theorem exec_effect {i : Instr} {s t : State} (hreset : i ≠ .evReset) (h : exec i s = .next t) :
    ExecEffect i s t := by
  cases i with
  | evReset => exact absurd rfl hreset
  | evAttach file => exact execEvAttach_effect h
  | evDeliver => exact execEvDeliver_effect h
  | dskCmdRead => exact execDskCmdRead_effect h _
  | dskWrStart => exact startCommand_effect h _
  | dskWrCmd | dskWrClp | dskWrDa | dskCmdReadCompare | dskCmdWrite =>
    cases h
    exact { disk := .operate ⟨rfl, rfl, rfl, rfl, rfl⟩ (.inl rfl) }
  | dskRdStatus | dskRdMa | dskRdDa | dskRdEcc | dskRdStatus2 | dskRdClp | dskRdDa2 | dskRdZero | dskWrNop
  | dskCmdRecalibrate | dskCmdFaultClear | dskCmdUnknown
  | iobWrKbdLo | iobWrKbdHi | iobWrMouseY | iobRdMouseX | iobWrMouseX | iobRdBeep | iobWrBeep | iobRdKbdCsr
  | iobWrUsecLo | iobRdUsecHi | iobWrUsecHi | iobRdClk60 | iobWrClk60 | iobWrNet | iobRdUnmapped
  | iobWrUnmapped | tvRdCsr =>
    cases h
    exact {}
  | iobRdKbdLo => cases h; exact { iob := .keyboardRead (.inl rfl) }
  | iobRdKbdHi => cases h; exact { iob := .keyboardRead (.inr rfl) }
  | iobRdMouseY => cases h; exact { iob := .mouseYRead }
  | iobWrKbdCsr => cases h; exact { iob := .csrWrite }
  | iobRdUsecLo => cases h; exact s.sample_effect _
  | iobRdNet => cases h; exact { clock := s.env.dropNetAnswer_wallClock.ge }
  | tvWrCsr => cases h; exact { timing := .csrWrite }
  | evTick => cases h; exact { timing := .tick }
  | evKey code extra => cases h; exact State.pressKey_effect _ _ _ code extra s _
  | evMouse => cases h; exact ExecEffect.postIf { iob := .mouse } _ _

/-! ## The flags -/

/-- A flag that goes from `b` to `b'` is set only where `sets` holds and cleared only where `clears` does. -/
def FlagMoves (sets clears : Prop) (b b' : Bool) : Prop :=
  (b = false → b' = true → sets) ∧ (b = true → b' = false → clears)

section
variable {sets clears : Prop} {b b' : Bool}

theorem FlagMoves.kept (h : b' = b) : FlagMoves sets clears b b' := by
  simp +contextual [FlagMoves, h]

theorem FlagMoves.set (hsets : sets) (h : b' = true) : FlagMoves sets clears b b' := by
  simp [FlagMoves, hsets, h]

/-- A flag that a condition may set, and that stays set if it is. -/
theorem FlagMoves.latched (hsets : sets) (cond : Bool) : FlagMoves sets clears b (b || cond) := by
  cases b
  · exact ⟨fun _ _ => hsets, fun ht _ => absurd ht Bool.false_ne_true⟩
  · exact .set hsets (Bool.true_or cond)

theorem FlagMoves.cleared (hclears : clears) (h : b' = false) : FlagMoves sets clears b b' := by
  simp [FlagMoves, hclears, h]

end

theorem IobEffect.mouseReady {i : Instr} {b b' : IobRegs} (h : IobEffect i b b') :
    FlagMoves (∃ x y dx dy buttons, i = .evMouse x y dx dy buttons) (i = .iobRdMouseY)
      (b.kbdCsr.getLsbD 4) (b'.kbdCsr.getLsbD 4) := by
  cases h with
  | same => exact .kept rfl
  | keyboardRead => exact .kept (by simp [IobRegs.clearKbdReady, kbdReadyMask])
  | csrWrite => exact .kept (by simp [IobRegs.mergeEnables, enablesMask])
  | key => exact .kept (by simp [IobRegs.takeKey, IobRegs.setKbdReady, kbdReadyMask])
  | mouseYRead =>
    exact .cleared rfl (by simp [IobRegs.acknowledgeMouse, Config.mouseYClearsReady, mouseReadyMask])
  | mouse =>
    exact .set ⟨_, _, _, _, _, rfl⟩ (by simp [IobRegs.takeMouse, IobRegs.setMouseReady, mouseReadyMask])

theorem IobEffect.kbdReady {i : Instr} {b b' : IobRegs} (h : IobEffect i b b') :
    FlagMoves (∃ code extra, i = .evKey code extra) (i = .iobRdKbdLo ∨ i = .iobRdKbdHi)
      (b.kbdCsr.getLsbD 5) (b'.kbdCsr.getLsbD 5) := by
  cases h with
  | same => exact .kept rfl
  | keyboardRead hread => exact .cleared hread (by simp [IobRegs.clearKbdReady, kbdReadyMask])
  | csrWrite => exact .kept (by simp [IobRegs.mergeEnables, enablesMask])
  | key => exact .set ⟨_, _, rfl⟩ (by simp [IobRegs.takeKey, IobRegs.setKbdReady, kbdReadyMask])
  | mouseYRead =>
    exact .kept (by simp [IobRegs.acknowledgeMouse, Config.mouseYClearsReady, mouseReadyMask])
  | mouse =>
    exact .kept (by simp [IobRegs.takeMouse, IobRegs.setMouseReady, IobRegs.latchButtons, mouseReadyMask])

theorem IobEffect.latch {i : Instr} {b b' : IobRegs} (h : IobEffect i b b') :
    ∀ latch ∈ [IobRegs.btnHead, IobRegs.btnMiddle, IobRegs.btnTail],
      FlagMoves (∃ x y dx dy buttons, i = .evMouse x y dx dy buttons) (i = .iobRdMouseY)
        (latch b) (latch b') := by
  simp only [List.forall_mem_cons, List.not_mem_nil, false_imp_iff, implies_true, and_true]
  cases h with
  | same | keyboardRead | csrWrite | key => exact ⟨.kept rfl, .kept rfl, .kept rfl⟩
  | mouseYRead => exact ⟨.cleared rfl rfl, .cleared rfl rfl, .cleared rfl rfl⟩
  | mouse =>
    exact ⟨.latched ⟨_, _, _, _, _, rfl⟩ _, .latched ⟨_, _, _, _, _, rfl⟩ _,
      .latched ⟨_, _, _, _, _, rfl⟩ _⟩

/-- Setting bits outside a field keeps the field. -/
theorem or_and_of_disjoint {n : Nat} {m field : BitVec n} (h : m &&& field = 0) (c : BitVec n) :
    (c ||| m) &&& field = c &&& field := by
  rw [BitVec.and_comm, BitVec.and_or_distrib_left, BitVec.and_comm field m, h, BitVec.and_comm field c]
  exact BitVec.or_zero

/-- Clearing bits outside a field keeps the field. -/
theorem and_not_and_of_disjoint {n : Nat} {m field : BitVec n} (h : ~~~m &&& field = field) (c : BitVec n) :
    c &&& ~~~m &&& field = c &&& field := by
  rw [BitVec.and_assoc, h]

/-- The CSR bits 15:6, `CLOCK_READY` among them, have no setter and no clearer. -/
theorem IobEffect.reserved {i : Instr} {b b' : IobRegs} (h : IobEffect i b b') :
    b'.kbdCsr &&& 0xFFC0 = b.kbdCsr &&& 0xFFC0 := by
  cases h with
  | same => rfl
  | keyboardRead | mouseYRead => exact and_not_and_of_disjoint (by decide) b.kbdCsr
  | key | mouse => exact or_and_of_disjoint (by decide) b.kbdCsr
  | csrWrite =>
    have hmask (v : Half) : v &&& enablesMask &&& 0xFFC0 = 0 := by
      rw [BitVec.and_assoc, show enablesMask &&& 0xFFC0 = 0 by decide]
      exact BitVec.and_zero
    exact (or_and_of_disjoint (hmask _) _).trans (and_not_and_of_disjoint (by decide) b.kbdCsr)

/-- `CLOCK_READY` is one of the CSR bits no instruction moves. -/
theorem IobEffect.clockReady {i : Instr} {b b' : IobRegs} (h : IobEffect i b b') :
    b'.kbdCsr.getLsbD 6 = b.kbdCsr.getLsbD 6 := by
  simpa using congrArg (fun c : Half => c.getLsbD 6) h.reserved

theorem TimingEffect.tvInt {now : Nat} {i : Instr} {b b' : TimingRegs} (h : TimingEffect now i b b') :
    FlagMoves (i = .evDeliver) (∃ v, i = .tvWrCsr v) (b.tvCsr.getLsbD 4) (b'.tvCsr.getLsbD 4) := by
  cases h with
  | same | tick | sample => exact .kept rfl
  | csrWrite => exact .cleared ⟨_, rfl⟩ (by simp [TimingRegs.writeTvCsr, tvIntMask, Config.tvIntBit])
  | deliver => exact .set rfl (by simp [TimingRegs.deliver, tvIntMask, Config.tvIntBit])

theorem TimingEffect.tickPending {now : Nat} {i : Instr} {b b' : TimingRegs} (h : TimingEffect now i b b') :
    FlagMoves (i = .evTick) (i = .evDeliver) b.tickPending b'.tickPending := by
  cases h with
  | same | csrWrite | sample => exact .kept rfl
  | tick => exact .set rfl rfl
  | deliver => exact .cleared rfl rfl

theorem DiskEffect.status {i : Instr} {d d' : DiskRegs} (h : DiskEffect i d d') : d'.status = d.status := by
  cases h with
  | operate drive _ => exact drive.status
  | attach | detach => rfl

/-- Settles O55: each flag stands in one part of the state, and is moved as the effect on that part says. -/
theorem flagSettersAndClearers : Obligations.FlagSettersAndClearers := by
  intro i s t h hreset
  have heffect := exec_effect hreset h
  obtain ⟨hmouseSet, hmouseClear⟩ := heffect.iob.mouseReady
  obtain ⟨hkbdSet, hkbdClear⟩ := heffect.iob.kbdReady
  obtain ⟨htvSet, htvClear⟩ := heffect.timing.tvInt
  obtain ⟨htickSet, htickClear⟩ := heffect.timing.tickPending
  exact ⟨heffect.disk.status, hmouseSet, hmouseClear, hkbdSet, hkbdClear, heffect.iob.clockReady,
    heffect.iob.latch, htvSet, htvClear, htickSet, htickClear⟩

/-! ## The invariant -/

theorem DiskEffect.maAligned {i : Instr} {d d' : DiskRegs} (h : DiskEffect i d d')
    (hd : d.ma &&& ~~~Config.ccwAddrMask = 0) : d'.ma &&& ~~~Config.ccwAddrMask = 0 := by
  cases h with
  | attach | detach => exact hd
  | operate _ ma =>
    obtain hkept | ⟨ccw, hloaded⟩ := ma
    · rw [hkept, hd]
    · rw [hloaded, ccwBase, BitVec.and_assoc, show Config.ccwAddrMask &&& ~~~Config.ccwAddrMask = 0 by decide]
      exact BitVec.and_zero

theorem DiskEffect.geometryFromLabel {i : Instr} {d d' : DiskRegs} (h : DiskEffect i d d')
    (hd : d.geometryFromLabel) : d'.geometryFromLabel := by
  cases h with
  | operate drive _ =>
    intro img himg
    rw [drive.media] at himg
    rw [drive.cyls, drive.heads, drive.blocksPerTrack]
    exact hd img himg
  | attach valid =>
    rintro _ ⟨⟩
    exact ⟨valid, rfl, rfl, rfl⟩
  | detach => rintro _ ⟨⟩

/-- The first sample of all stays the one the counter measures from (44_timing.md R271). -/
theorem TimingEffect.firstSample_le {now : Nat} {i : Instr} {b b' : TimingRegs} (h : TimingEffect now i b b')
    (hb : ∀ first, b.usecT0 = some first → first ≤ now) : ∀ first, b'.usecT0 = some first → first ≤ now := by
  cases h with
  | same | csrWrite | tick | deliver => exact hb
  | sample =>
    rintro _ ⟨⟩
    cases ht0 : b.usecT0 with
    | none => exact Nat.le_refl now
    | some first => exact hb first ht0

theorem ExecEffect.inv {i : Instr} {s t : State} (h : ExecEffect i s t) (hs : Inv s) : Inv t where
  status := h.disk.status.trans hs.status
  maAligned := h.disk.maAligned hs.maAligned
  geometry := h.disk.geometryFromLabel hs.geometry
  csrReserved := h.iob.reserved.trans hs.csrReserved
  memory := by
    obtain ⟨new, hmem⟩ := h.mem
    rw [hmem]
    exact Memory.wf_applyEvents new hs.memory
  clock := h.timing.firstSample_le fun first hfirst => (hs.clock first hfirst).trans h.clock

/-- RESET meets the invariant by the reset values, and keeps host memory (70_reset_and_hazards.md R340). -/
theorem Inv.resetBlock {s : State} (hs : Inv s) (r : Reply) : Inv (s.resetBlock.replying r) where
  status := rfl
  maAligned := BitVec.zero_and
  geometry := by rintro _ ⟨⟩
  csrReserved := BitVec.zero_and
  memory := hs.memory
  clock := by rintro _ ⟨⟩

theorem exec_keeps_inv {i : Instr} {s t : State} (hs : Inv s) (h : exec i s = .next t) : Inv t := by
  by_cases hreset : i = .evReset
  · subst hreset; cases h; exact hs.resetBlock .nothing
  · exact (exec_effect hreset h).inv hs

theorem Inv.takeInput {s : State} (hs : Inv s) (rest : List Input) : Inv (s.takeInput rest) :=
  ⟨hs.status, hs.maAligned, hs.geometry, hs.csrReserved, hs.memory, hs.clock⟩

/-- A store of the host CPU keeps host memory canonical (log 5, log 6). -/
theorem Inv.hostStore {s : State} (hs : Inv s) (a v : Word) : Inv (s.withMem (Memory.store s.mem a.toNat v)) :=
  ⟨hs.status, hs.maAligned, hs.geometry, hs.csrReserved, Memory.wf_store hs.memory a v, hs.clock⟩

/-- A step that answers a next state waits, takes the host CPU's store, or performs the instruction decoded. -/
theorem step_cases {s t : State} (h : step s = .next t) :
    (s.env.inputs = [] ∧ t = s) ∨
    (∃ a v rest, s.env.inputs = .hostStore a v :: rest ∧
      t = (s.takeInput rest).withMem (Memory.store s.mem a.toNat v)) ∨
    ∃ tr i rest, s.env.inputs = .transaction tr :: rest ∧ decodeTransaction tr = .ok i ∧
      exec i (s.takeInput rest) = .next t := by
  rw [step] at h
  split at h
  · next hin => cases h; exact .inl ⟨hin, rfl⟩
  · next a v rest hin => cases h; exact .inr (.inl ⟨a, v, rest, hin, rfl⟩)
  · next tr rest hin =>
    split at h
    · next i hdec => exact .inr (.inr ⟨tr, i, rest, hin, hdec, h⟩)
    · cases h

/-- Settles O50: an instruction keeps the invariant by its effect on each part of the state. -/
theorem stepKeepsTheInvariant : Obligations.StepKeepsTheInvariant := by
  intro s t hs h
  obtain ⟨-, rfl⟩ | ⟨a, v, rest, -, rfl⟩ | ⟨-, i, rest, -, -, hexec⟩ := step_cases h
  · exact hs
  · exact (hs.takeInput rest).hostStore a v
  · exact exec_keeps_inv (hs.takeInput rest) hexec

end Sys2Proof.Machine
end

