-- ==== Sys2Proof/Proofs/HostMemory.lean ====
section
/-! SUPPORT. What the block does to host memory and what it reads from the image: the writes of a READ as its
history tells them, the READ that MEDIA fails, the chain that overwrites itself, the order of an image word's
halves, and the reads without a side effect (20_memory.md R62 to R68, R73, R78). -/

namespace Sys2Proof.Machine

/-! ## The writes of a READ -/

/-- The walk of a chain is a part of a transfer whose writes are each under the CCW fetched last. -/
theorem walkChain_writesUnderCcw (n : Nat) (s : State) :
    ∃ new, TransferPart s (walkChain n s).state new ∧ WritesUnderCcw new := by
  refine walkChain_induct (fun u => ∃ new, TransferPart s u new ∧ WritesUnderCcw new) ?_ n s
    ⟨[], TransferPart.refl s, trivial⟩
  rintro u ⟨old, hold, hunderOld⟩
  obtain ⟨new, hnew, hunderNew, -⟩ := walkCcw_part u
  exact ⟨_, hold.trans hnew, hunderNew.append hunderOld⟩

/-- The events a READ adds to the history tell its memory, and its writes are under their CCWs
(20_memory.md R63, R68): the post behind the walk is no write. -/
theorem readTransfer_writes (done : Bool) (s : State) :
    ∃ new, (readTransfer done s).history = new ++ s.history ∧
      (readTransfer done s).mem = applyEvents new s.mem ∧ WritesUnderCcw new := by
  obtain ⟨new, hwalk, hunder⟩ := walkChain_writesUnderCcw Config.chainBound s.decodeDa
  rw [readTransfer]
  obtain hend | ⟨-, hend⟩ := completeRead_cases done (walkChain Config.chainBound s.decodeDa)
  · rw [hend]
    exact ⟨new, hwalk.history, hwalk.memory, hunder⟩
  · rw [hend]
    exact ⟨.post Config.lineDisk :: new, congrArg _ hwalk.history, hwalk.memory, trivial, hunder⟩

/-- Settles O15: what a READ does to memory is what the writes of its events do. -/
theorem readMemoryIsItsWriteHistory : Obligations.ReadMemoryIsItsWriteHistory := by
  rintro f s _ ⟨⟩
  obtain ⟨new, hhistory, hmem, -⟩ := readTransfer_writes f.doneIntEn s
  exact ⟨new, hhistory, hmem⟩

/-- Settles O16: every CCW's writes are under it, and so are those of the walk. -/
theorem readWritesOnlyUnderItsCcw : Obligations.ReadWritesOnlyUnderItsCcw := by
  rintro f s _ ⟨⟩
  obtain ⟨new, hhistory, -, hunder⟩ := readTransfer_writes f.doneIntEn s
  exact ⟨new, hhistory, hunder⟩

/-! ## The CCW after answered links -/

/-- The address of the CCW after linked CCWs (41_disk_commands.md R161). -/
theorem State.afterChain_clp (links : List Word) (reads writes medias : List Bool) (s : State) :
    (s.afterChain links reads writes medias).disk.clp = s.disk.clp + BitVec.ofNat 32 links.length := by
  rw [State.afterChain, chainRegs_eq]

/-- The block number of the CCW after linked CCWs (41_disk_commands.md R157, R160). -/
theorem State.afterChain_currentBlock (links : List Word) (reads writes medias : List Bool) (s : State) :
    (s.afterChain links reads writes medias).disk.currentBlock =
      (advanceBy links.length s.disk).currentBlock := by
  rw [State.afterChain, chainRegs_eq, DiskRegs.currentBlock_setClpMa]

section
variable {s : State} {links : List Word} {reads writes medias : List Bool} {ccw : Word}

/-- A READ whose first CCWs are linked and answered has a CCW left to walk after them (41_disk_commands.md R162). -/
theorem readTransfer_links_next (done : Bool) (hl : ∀ c ∈ links, ccwCont c = true)
    (hn : links.length < 65535) (h : ChainAnswered s.decodeDa links reads writes medias) :
    ∃ n, readTransfer done s =
      completeRead done (walkChain (n + 1) (s.decodeDa.afterChain links reads writes medias)) := by
  obtain ⟨n, hleft⟩ : ∃ n, 65535 - links.length = n + 1 := Nat.exists_eq_add_one_of_ne_zero (by omega)
  exact ⟨n, hleft ▸ readTransfer_links done hl hn.le h⟩

/-- A READ whose first CCWs are linked and answered ends where the CCW after them aborts: nothing is posted
(41_disk_commands.md R163). -/
theorem readTransfer_aborts {t : State} (done : Bool) (hl : ∀ c ∈ links, ccwCont c = true)
    (hn : links.length < 65535) (h : ChainAnswered s.decodeDa links reads writes medias)
    (habort : walkCcw (s.decodeDa.afterChain links reads writes medias) = .aborted t) :
    readTransfer done s = t := by
  obtain ⟨n, hnext⟩ := readTransfer_links_next done hl hn h
  rw [hnext, walkChain, habort]
  rfl

/-- A READ whose first CCWs are linked and answered fetches the CCW after them next (41_disk_commands.md R155). -/
theorem readTransfer_fetch (done : Bool) (hl : ∀ c ∈ links, ccwCont c = true)
    (hn : links.length < 65535) (h : ChainAnswered s.decodeDa links reads writes medias)
    (hfetch : (s.decodeDa.afterChain links reads writes medias).memAnswer
      (s.disk.clp + BitVec.ofNat 32 links.length) = some ccw) :
    ∃ later, (readTransfer done s).history = later ++
      .memRead (s.disk.clp + BitVec.ofNat 32 links.length) (some ccw) ::
        chainEvents links s.disk.decodeDa ++ s.history := by
  have hclp := State.afterChain_clp links reads writes medias s.decodeDa
  obtain ⟨n, hnext⟩ := readTransfer_links_next done hl hn h
  obtain ⟨later, hlater⟩ := walkChain_fetch n ((congrArg _ hclp).trans hfetch)
  rw [hclp, show (s.decodeDa.afterChain links reads writes medias).history =
    chainEvents links s.disk.decodeDa ++ s.history from rfl, ← List.cons_append, ← List.append_assoc] at hlater
  rw [hnext]
  obtain hend | ⟨-, hend⟩ := completeRead_cases done
    (walkChain (n + 1) (s.decodeDa.afterChain links reads writes medias))
  · rw [hend]
    exact ⟨later, hlater⟩
  · rw [hend]
    exact ⟨.post Config.lineDisk :: later, congrArg _ hlater⟩

end

/-- Settles O23: the copy of the CCW after the links aborts at its MediaRead. -/
theorem mediaFailureAbortsTheRead : Obligations.MediaFailureAbortsTheRead := by
  intro f s img links ccw reads writes medias left clp d hmedia hl hn hchain hccw hfail
  let u := s.decodeDa.afterChain links (false :: reads) writes medias
  have hclp : u.disk.clp = clp := State.afterChain_clp ..
  have hblock : u.disk.currentBlock = d.currentBlock := State.afterChain_currentBlock ..
  have hread : Memory.read u.mem u.disk.clp.toNat = ccw := by rw [hclp]; exact hccw
  have hfail' : blockInImage img u.disk.currentBlock = false ∧ u.env.mediaFails = left ∨
      blockInImage img u.disk.currentBlock = true ∧ u.env.mediaFails = true :: left := by
    rw [hblock]
    exact hfail.imp (And.imp_left fun hpast => decide_eq_false (Nat.not_le.mpr hpast))
      (And.imp_left fun hinside => decide_eq_true hinside)
  have hcopy := copyBlock_mediaFails (s := u) ((chainRegs_media _ _).trans hmedia) hread rfl hfail'
  have htransfer := readTransfer_aborts f.doneIntEn hl hn hchain
    (walkCcw_copyAborts (State.memAnswer_of_read rfl hread) hcopy)
  have hdisk : { u.disk with ma := ccwBase ccw } = { d with clp := clp, ma := ccw &&& 0x003FFF00 } := by
    rw [show u.disk = chainRegs links s.disk.decodeDa from rfl, chainRegs_eq]
    rfl
  rw [hdisk, hclp, hblock] at htransfer
  exact congrArg (fun t => Host.Outcome.next (t.replying .nothing)) htransfer

/-- Settles O25: the fetch reads the memory the links left, where CCW `i`'s block was the last to write. -/
theorem selfOverwritingChainFetchesTheCopiedWord : Obligations.SelfOverwritingChainFetchesTheCopiedWord := by
  rintro f s img links i ccw reads writes medias clp hmedia hl hn hchain hi ⟨hle, hlt⟩ hlater
  have hoffset : (ccwBase ccw).toNat + (clp.toNat - (ccwBase ccw).toNat) = clp.toNat := Nat.add_sub_cancel' hle
  have hcopied := chainMemory_covered (img := img) (j := clp.toNat - (ccwBase ccw).toNat) (by omega) links i
    s.disk.decodeDa s.mem hmedia hi (by rwa [hoffset])
  rw [hoffset] at hcopied
  have hfetch := State.memAnswer_of_read (s := s.decodeDa.afterChain links (false :: reads) writes medias)
    rfl hcopied
  obtain ⟨later, hhistory⟩ := readTransfer_fetch f.doneIntEn hl hn hchain hfetch
  exact ⟨_, later, rfl, hhistory⟩

/-! ## The words of an image -/

/-- A byte inside the file (20_memory.md R64). -/
theorem imageByte_of_getElem? {img : List Byte} {o : Nat} {b : Byte} (h : img[o]? = some b) :
    imageByte img o = b := by
  rw [imageByte, List.getD_eq_getElem?_getD, h]
  rfl

/-- Four bytes one after the other are the little-endian word of their shifts: on either side bit `i` is the bit
`i % 8` of byte `i / 8`, and the other bytes have no bit there. -/
theorem append_bytes_eq_or_shiftLeft (b0 b1 b2 b3 : Byte) :
    b3 ++ b2 ++ b1 ++ b0 =
      b0.setWidth 32 ||| b1.setWidth 32 <<< 8 ||| b2.setWidth 32 <<< 16 ||| b3.setWidth 32 <<< 24 := by
  ext i hi
  simp only [BitVec.getElem_append, BitVec.getElem_or, BitVec.getElem_shiftLeft, BitVec.getElem_setWidth]
  grind

/-- Bit by bit, the exchange takes the low half from the high one and the high half from the low one
(90_conflicts.md C1). -/
theorem getLsbD_swapWord_halves (n : Word) {i : Nat} (hi : i < 32) :
    (swapWord .halves n).getLsbD i = n.getLsbD (if i < 16 then i + 16 else i - 16) := by
  show (n.extractLsb' 0 16 ++ n.extractLsb' 16 16).getLsbD i = _
  rw [BitVec.getLsbD_append]
  by_cases hlow : i < 16
  · simp [hlow, Nat.add_comm]
  · simp [hlow, show i - 16 < 16 by omega]

theorem swapWord_halves_eq_or_shifts (n : Word) : swapWord .halves n = n <<< 16 ||| n >>> 16 := by
  refine BitVec.eq_of_getLsbD_eq fun i hi => ?_
  rw [getLsbD_swapWord_halves n hi, BitVec.getLsbD_or, BitVec.getLsbD_shiftLeft, BitVec.getLsbD_ushiftRight]
  by_cases hlow : i < 16
  · simp [hlow, Nat.add_comm]
  · simp [hlow, hi, BitVec.getLsbD_of_ge n (16 + i) (by omega)]

theorem swapWord_halves_involutive : Function.Involutive (swapWord .halves) := by
  refine fun n => BitVec.eq_of_getLsbD_eq fun i hi => ?_
  by_cases hlow : i < 16
  · rw [getLsbD_swapWord_halves _ hi, if_pos hlow, getLsbD_swapWord_halves n (by omega), if_neg (by omega),
      Nat.add_sub_cancel]
  · rw [getLsbD_swapWord_halves _ hi, if_neg hlow, getLsbD_swapWord_halves n (by omega), if_pos (by omega),
      Nat.sub_add_cancel (by omega)]

/-- Settles O48: the image's bytes are in little-endian order, and its words' halves are exchanged. -/
theorem imageWordsAreHalfSwapped : Obligations.ImageWordsAreHalfSwapped := by
  refine ⟨fun img o b0 b1 b2 b3 h0 h1 h2 h3 => ?_,
    fun n => ⟨swapWord_halves_eq_or_shifts n, swapWord_halves_involutive n⟩⟩
  have hstored : storedWord .littleEndian img o = b3 ++ b2 ++ b1 ++ b0 := by
    rw [storedWord, imageByte_of_getElem? h0, imageByte_of_getElem? h1, imageByte_of_getElem? h2,
      imageByte_of_getElem? h3]
  rw [← append_bytes_eq_or_shiftLeft, ← hstored]
  rfl

/-! ## Reads without a side effect -/

/-- A transaction that only returns a value changes the reply alone. -/
theorem eq_of_replying {s t : State} {r : Reply} (h : (.next (s.replying r) : Result) = .next t) :
    t = { s with reply := t.reply } := by
  cases h
  rfl

/-- Settles O56: each of these reads only returns its value. -/
theorem otherReadsHaveNoSideEffect : Obligations.OtherReadsHaveNoSideEffect := by
  intro i s t off hi h
  simp only [List.mem_cons, List.not_mem_nil, or_false] at hi
  obtain rfl | rfl | rfl | rfl | rfl | rfl | rfl | rfl | rfl | rfl | rfl | rfl | rfl | rfl := hi <;>
  exact eq_of_replying h

end Sys2Proof.Machine
end

