-- ==== Sys2Proof/Proofs/Encoding.lean ====
section
/-! SUPPORT. The decoder and the encoder agree: the fields of a selector and of a command word, one equation of the
decoder for each `SPACE`, the round trip in both directions, the selectors no operands make a transaction, the
assembler's lines, and the words of the opcode table (30_encoding.md R90 to R101, R120). -/

namespace Sys2Proof.Machine

/-! ## The fields of a selector and of a command word -/

section
variable (space : BitVec 2) (dir : Bool) (off : Offset)

@[simp] theorem selSpace_selectorOf : selSpace (selectorOf space dir off) = space := by
  unfold selSpace selectorOf
  ext i hi
  grind

@[simp] theorem selDir_selectorOf : selDir (selectorOf space dir off) = dir := by
  unfold selDir selectorOf
  grind

@[simp] theorem selRsv_selectorOf : selRsv (selectorOf space dir off) = 0 := by
  unfold selRsv selectorOf
  ext i hi
  grind

@[simp] theorem selOff_selectorOf : selOff (selectorOf space dir off) = off :=
  BitVec.extractLsb'_append_eq_right

end

/-- A selector with `RSV` = 0 is put together from its other fields (30_encoding.md R90). -/
theorem selectorOf_fields {sel : Half} (h : selRsv sel = 0) :
    selectorOf (selSpace sel) (selDir sel) (selOff sel) = sel := by
  rw [selectorOf, ← h]
  unfold selSpace selDir selOff selRsv
  ext i hi
  grind

/-- Either R92 refuses a selector for its `RSV`, or its other fields say all about it. -/
theorem selector_cases (sel : Half) : selRsv sel ≠ 0 ∨ ∃ space dir off, sel = selectorOf space dir off := by
  by_cases h : selRsv sel = 0
  · exact .inr ⟨_, _, _, (selectorOf_fields h).symm⟩
  · exact .inl h

/-- DISK, IOB, TV and EVENT (30_encoding.md R90). -/
theorem space_cases : ∀ space : BitVec 2, space = 0 ∨ space = 1 ∨ space = 2 ∨ space = 3 := by decide

/-- `OFF[8:3]` in place (30_encoding.md R92). -/
theorem extractLsb'_selOff (sel : Half) : (selOff sel).extractLsb' 3 6 = sel.extractLsb' 3 6 := by
  unfold selOff
  ext i hi
  grind

/-- A disk offset whose bits 8:3 are 0 is its register index (30_encoding.md R95). -/
theorem diskOffset_eq {off : Offset} (h : off.extractLsb' 3 6 = 0) :
    (0 : BitVec 6) ++ off.extractLsb' 0 3 = off := by
  rw [← h]
  exact BitVec.extractLsb'_append_extractLsb' (w := 6) (len := 3)

/-- The mask picks the bit field 9:0 (30_encoding.md R101). -/
theorem commandKey_eq_extractLsb' (w : Word) : commandKey w = w.extractLsb' 0 10 := by
  have hmask : Config.cmdOpcodeMask.setWidth 10 = BitVec.allOnes 10 := by decide
  rw [commandKey, BitVec.setWidth_and, hmask, BitVec.and_allOnes, BitVec.setWidth_eq_extractLsb' (by decide)]

@[simp] theorem commandKey_commandWord (key : BitVec 10) (f : CommandFlags) :
    commandKey (commandWord key f) = key :=
  (commandKey_eq_extractLsb' _).trans BitVec.extractLsb'_append_eq_right

@[simp] theorem commandFlags_commandWord (key : BitVec 10) (f : CommandFlags) :
    commandFlags (commandWord key f) = f := by
  unfold commandFlags commandWord
  congr
  · grind
  · grind
  · ext i hi
    grind

/-- A command word is put together from its key and its other bits (30_encoding.md R100). -/
theorem commandWord_fields (w : Word) : commandWord (commandKey w) (commandFlags w) = w := by
  rw [commandKey_eq_extractLsb']
  unfold commandFlags commandWord
  ext i hi
  grind

/-! ## The operands a transaction takes -/

section
variable {i : Instr} {ops : Operands}

theorem takeAbsent_ok {j : Instr} : takeAbsent j ops = .ok i ↔ ops = .absent ∧ j = i := by
  cases ops <;> simp [takeAbsent]

theorem takeWord32_ok {f : Word → Instr} : takeWord32 f ops = .ok i ↔ ∃ v, ops = .word32 v ∧ f v = i := by
  cases ops <;> simp [takeWord32]

theorem takeWord16_ok {f : Half → Instr} : takeWord16 f ops = .ok i ↔ ∃ v, ops = .word16 v ∧ f v = i := by
  cases ops <;> simp [takeWord16]

theorem takeImage_ok : takeImage ops = .ok i ↔ ∃ file, ops = .image file ∧ .evAttach file = i := by
  cases ops <;> simp [takeImage]

theorem takeKey_ok : takeKey ops = .ok i ↔ ∃ code extra, ops = .key code extra ∧ .evKey code extra = i := by
  cases ops <;> simp [takeKey]

theorem takeMouse_ok : takeMouse ops = .ok i ↔
    ∃ x y dx dy buttons, ops = .mouse x y dx dy buttons ∧ .evMouse x y dx dy buttons = i := by
  cases ops <;> simp [takeMouse]

end

/-! ## The decoder, one equation for each `SPACE` -/

theorem decodeTransaction_reserved {sel : Half} (h : selRsv sel ≠ 0) (ops : Operands) :
    decodeTransaction ⟨sel, ops⟩ = .error .reservedBits := by
  rw [decodeTransaction, if_pos h]

section
variable (dir : Bool) (off : Offset) (ops : Operands)

theorem decodeTransaction_disk : decodeTransaction ⟨selectorOf 0 dir off, ops⟩ =
    if off.extractLsb' 3 6 = 0 then
      if dir then takeWord32 (diskWriteOf (off.extractLsb' 0 3)) ops
      else takeAbsent (diskReadOf (off.extractLsb' 0 3)) ops
    else .error .diskOffset := by
  simp [decodeTransaction]

theorem decodeTransaction_iob : decodeTransaction ⟨selectorOf 1 dir off, ops⟩ =
    if dir then takeWord16 (iobWriteOf off) ops else takeAbsent (iobReadOf off) ops := by
  simp [decodeTransaction]

theorem decodeTransaction_tv : decodeTransaction ⟨selectorOf 2 dir off, ops⟩ =
    if off = 0 then if dir then takeWord32 .tvWrCsr ops else takeAbsent .tvRdCsr ops
    else .error .tvOffset := by
  simp [decodeTransaction]

theorem decodeTransaction_event : decodeTransaction ⟨selectorOf 3 dir off, ops⟩ =
    if dir then .error .eventDirection else decodeEvent off ops := by
  simp [decodeTransaction]

end

theorem decode_encDiskRead (index : BitVec 3) :
    decode (encDisk false index .absent) = .ok (diskReadOf index) := by
  rw [encDisk, decode, decodeTransaction_disk, BitVec.extractLsb'_append_eq_left,
    BitVec.extractLsb'_append_eq_right]
  rfl

theorem decode_encDiskWrite (index : BitVec 3) (v : Word) :
    decode (encDisk true index (.word32 v)) = .ok (diskWriteOf index v) := by
  rw [encDisk, decode, decodeTransaction_disk, BitVec.extractLsb'_append_eq_left,
    BitVec.extractLsb'_append_eq_right]
  rfl

theorem decode_encIobRd (off : Offset) : decode (encIobRd off) = .ok (iobReadOf off) :=
  decodeTransaction_iob false off .absent

theorem decode_encIobWr (off : Offset) (v : Half) : decode (encIobWr off v) = .ok (iobWriteOf off v) :=
  decodeTransaction_iob true off (.word16 v)

theorem decode_encEvent (id : Offset) (ops : Operands) : decode (encEvent id ops) = decodeEvent id ops :=
  decodeTransaction_event false id ops

/-! ## The rows whose operand selects them -/

/-- The indices 0 to 3 are the writes that are ignored (30_encoding.md R96). -/
theorem diskWriteOf_nop (index : BitVec 2) (v : Word) :
    diskWriteOf ((0 : BitVec 1) ++ index) v = .dskWrNop index v := by
  have hlow : ∀ index : BitVec 2, (0 : BitVec 1) ++ index ≠ 4 ∧ (0 : BitVec 1) ++ index ≠ 5 ∧
      (0 : BitVec 1) ++ index ≠ 6 ∧ (0 : BitVec 1) ++ index ≠ 7 := by decide
  obtain ⟨h4, h5, h6, h7⟩ := hlow index
  rw [diskWriteOf, if_neg h4, if_neg h5, if_neg h6, if_neg h7, BitVec.extractLsb'_append_eq_right]

theorem not_mem_namedOffsets_of_isNetOffset {off : Offset} (h : isNetOffset off = true) :
    off ∉ namedOffsets := by
  have hnamed : namedOffsets.all (fun off => !isNetOffset off) = true := by decide
  intro hoff
  simpa [h] using List.all_eq_true.mp hnamed off hoff

theorem isUnmappedOffset_iff (off : Offset) :
    isUnmappedOffset off = true ↔ off ∉ namedOffsets ∧ isNetOffset off = false := by
  simp [isUnmappedOffset]

section
variable {off : Offset} (h : off ∉ namedOffsets)
include h

theorem iobReadOf_of_not_named :
    iobReadOf off = if isNetOffset off then .iobRdNet off else .iobRdUnmapped off := by
  simp only [namedOffsets, List.mem_cons, List.not_mem_nil, or_false, not_or] at h
  simp [iobReadOf, h]

theorem iobWriteOf_of_not_named (v : Half) :
    iobWriteOf off v = if isNetOffset off then .iobWrNet off v else .iobWrUnmapped off v := by
  simp only [namedOffsets, List.mem_cons, List.not_mem_nil, or_false, not_or] at h
  simp [iobWriteOf, h]

end

/-- The command is chosen by the key, and takes the other bits (30_encoding.md R100, R101). -/
theorem decodeCommand_commandWord (key : BitVec 10) (f : CommandFlags) : decodeCommand (commandWord key f) =
    if key = Config.opRead then .dskCmdRead f
    else if key = Config.opReadCompare then .dskCmdReadCompare f
    else if key = Config.opWrite then .dskCmdWrite f
    else if key = Config.opRecalibrate then .dskCmdRecalibrate f
    else if key = Config.opFaultClear then .dskCmdFaultClear f
    else .dskCmdUnknown key f := by
  simp only [decodeCommand, commandKey_commandWord, commandFlags_commandWord]

theorem decodeCommand_commandWord_unnamed {key : BitVec 10} (f : CommandFlags) (h : key ∉ namedKeys) :
    decodeCommand (commandWord key f) = .dskCmdUnknown key f := by
  simp only [namedKeys, List.mem_cons, List.not_mem_nil, or_false, not_or] at h
  simp [decodeCommand_commandWord, h]

/-! ## From an instruction to its words and back -/

/-- Settles O1: by the decoder's equation for the space, or for a command word, of the instruction's encoding. -/
theorem decodeOfEncodeIsIdentity : Obligations.DecodeOfEncodeIsIdentity := by
  intro i hwf
  cases i with
  | dskRdStatus | dskRdMa | dskRdDa | dskRdEcc | dskRdStatus2 | dskRdClp | dskRdDa2 | dskRdZero =>
    exact decode_encDiskRead _
  | dskWrNop index v => exact (decode_encDiskWrite _ v).trans (congrArg Except.ok (diskWriteOf_nop index v))
  | dskWrCmd v | dskWrClp v | dskWrDa v | dskWrStart v => exact decode_encDiskWrite _ v
  | iobRdKbdLo | iobRdKbdHi | iobRdMouseY | iobRdMouseX | iobRdBeep | iobRdKbdCsr | iobRdUsecLo | iobRdUsecHi
  | iobRdClk60 => exact decode_encIobRd _
  | iobWrKbdLo v | iobWrKbdHi v | iobWrMouseY v | iobWrMouseX v | iobWrBeep v | iobWrKbdCsr v | iobWrUsecLo v
  | iobWrUsecHi v | iobWrClk60 v => exact decode_encIobWr _ v
  | iobRdNet off =>
    have hnet : isNetOffset off = true := hwf
    simp [encode, decode_encIobRd, iobReadOf_of_not_named (not_mem_namedOffsets_of_isNetOffset hnet), hnet]
  | iobWrNet off v =>
    have hnet : isNetOffset off = true := hwf
    simp [encode, decode_encIobWr, iobWriteOf_of_not_named (not_mem_namedOffsets_of_isNetOffset hnet), hnet]
  | iobRdUnmapped off =>
    obtain ⟨hnamed, hnet⟩ := (isUnmappedOffset_iff off).mp hwf
    simp [encode, decode_encIobRd, iobReadOf_of_not_named hnamed, hnet]
  | iobWrUnmapped off v =>
    obtain ⟨hnamed, hnet⟩ := (isUnmappedOffset_iff off).mp hwf
    simp [encode, decode_encIobWr, iobWriteOf_of_not_named hnamed, hnet]
  | tvRdCsr => exact decodeTransaction_tv false 0 .absent
  | tvWrCsr v => exact decodeTransaction_tv true 0 (.word32 v)
  | evReset | evAttach | evKey | evMouse | evTick | evDeliver => exact decode_encEvent _ _
  | dskCmdRead f | dskCmdReadCompare f | dskCmdWrite f | dskCmdRecalibrate f | dskCmdFaultClear f =>
    exact congrArg Except.ok (decodeCommand_commandWord _ f)
  | dskCmdUnknown key f =>
    have hkey : key ∉ namedKeys := by simpa [WellFormed] using hwf
    exact congrArg Except.ok (decodeCommand_commandWord_unnamed f hkey)

/-! ## From words to their instruction and back -/

/-- The instruction is well-formed, and `e` are its words. -/
def EncodedAs (i : Instr) (e : Encoded) : Prop := WellFormed i = true ∧ encode i = e

theorem diskReadOf_encodedAs (index : BitVec 3) :
    EncodedAs (diskReadOf index) (encDisk false index .absent) := by
  have hindex : ∀ index : BitVec 3, index = 0 ∨ index = 1 ∨ index = 2 ∨ index = 3 ∨ index = 4 ∨ index = 5 ∨
      index = 6 ∨ index = 7 := by decide
  obtain rfl | rfl | rfl | rfl | rfl | rfl | rfl | rfl := hindex index <;>
  exact ⟨rfl, rfl⟩

/-- An ignored write keeps the two low bits of its index, and bit 2 of it is 0 (30_encoding.md R96). -/
theorem diskWriteOf_encodedAs (index : BitVec 3) (v : Word) :
    EncodedAs (diskWriteOf index v) (encDisk true index (.word32 v)) := by
  have hnop : ∀ index : BitVec 3, index ≠ 4 → index ≠ 5 → index ≠ 6 → index ≠ 7 →
      (0 : BitVec 1) ++ index.extractLsb' 0 2 = index := by decide
  unfold diskWriteOf
  split_ifs with h4 h5 h6 h7
  · subst h4; exact ⟨rfl, rfl⟩
  · subst h5; exact ⟨rfl, rfl⟩
  · subst h6; exact ⟨rfl, rfl⟩
  · subst h7; exact ⟨rfl, rfl⟩
  · exact ⟨rfl, congrArg (encDisk true · (.word32 v)) (hnop index h4 h5 h6 h7)⟩

/-- A named offset, a network offset and an unmapped one each stand in their row (30_encoding.md R98, R99). -/
theorem iobOf_encodedAs (off : Offset) (v : Half) :
    EncodedAs (iobReadOf off) (encIobRd off) ∧ EncodedAs (iobWriteOf off v) (encIobWr off v) := by
  by_cases hoff : off ∈ namedOffsets
  · simp only [namedOffsets, List.mem_cons, List.not_mem_nil, or_false] at hoff
    obtain rfl | rfl | rfl | rfl | rfl | rfl | rfl | rfl | rfl := hoff <;>
    exact ⟨⟨rfl, rfl⟩, ⟨rfl, rfl⟩⟩
  · rw [iobReadOf_of_not_named hoff, iobWriteOf_of_not_named hoff]
    cases hnet : isNetOffset off with
    | true => exact ⟨⟨hnet, rfl⟩, ⟨hnet, rfl⟩⟩
    | false =>
      have hunmapped := (isUnmappedOffset_iff off).mpr ⟨hoff, hnet⟩
      exact ⟨⟨hunmapped, rfl⟩, ⟨hunmapped, rfl⟩⟩

theorem decodeEvent_encodedAs {id : Offset} {ops : Operands} {i : Instr} (h : decodeEvent id ops = .ok i) :
    EncodedAs i (encEvent id ops) := by
  unfold decodeEvent at h
  split_ifs at h with h0 h1 h2 h3 h4 h5
  · subst h0; obtain ⟨rfl, rfl⟩ := takeAbsent_ok.mp h; exact ⟨rfl, rfl⟩
  · subst h1; obtain ⟨file, rfl, rfl⟩ := takeImage_ok.mp h; exact ⟨rfl, rfl⟩
  · subst h2; obtain ⟨code, extra, rfl, rfl⟩ := takeKey_ok.mp h; exact ⟨rfl, rfl⟩
  · subst h3; obtain ⟨x, y, dx, dy, buttons, rfl, rfl⟩ := takeMouse_ok.mp h; exact ⟨rfl, rfl⟩
  · subst h4; obtain ⟨rfl, rfl⟩ := takeAbsent_ok.mp h; exact ⟨rfl, rfl⟩
  · subst h5; obtain ⟨rfl, rfl⟩ := takeAbsent_ok.mp h; exact ⟨rfl, rfl⟩

theorem decodeTransaction_encodedAs {t : Transaction} {i : Instr} (h : decodeTransaction t = .ok i) :
    EncodedAs i (.transaction t) := by
  obtain ⟨sel, ops⟩ := t
  obtain hrsv | ⟨space, dir, off, rfl⟩ := selector_cases sel
  · rw [decodeTransaction_reserved hrsv] at h
    cases h
  obtain rfl | rfl | rfl | rfl := space_cases space
  · rw [decodeTransaction_disk] at h
    by_cases hoff : off.extractLsb' 3 6 = 0
    · rw [if_pos hoff] at h
      rw [← diskOffset_eq hoff]
      cases dir with
      | false => obtain ⟨rfl, rfl⟩ := takeAbsent_ok.mp h; exact diskReadOf_encodedAs _
      | true => obtain ⟨v, rfl, rfl⟩ := takeWord32_ok.mp h; exact diskWriteOf_encodedAs _ v
    · rw [if_neg hoff] at h
      cases h
  · rw [decodeTransaction_iob] at h
    cases dir with
    | false => obtain ⟨rfl, rfl⟩ := takeAbsent_ok.mp h; exact (iobOf_encodedAs off 0).1
    | true => obtain ⟨v, rfl, rfl⟩ := takeWord16_ok.mp h; exact (iobOf_encodedAs off v).2
  · rw [decodeTransaction_tv] at h
    by_cases hoff : off = 0
    · rw [if_pos hoff] at h
      subst hoff
      cases dir with
      | false => obtain ⟨rfl, rfl⟩ := takeAbsent_ok.mp h; exact ⟨rfl, rfl⟩
      | true => obtain ⟨v, rfl, rfl⟩ := takeWord32_ok.mp h; exact ⟨rfl, rfl⟩
    · rw [if_neg hoff] at h
      cases h
  · rw [decodeTransaction_event] at h
    cases dir with
    | false => exact decodeEvent_encodedAs h
    | true => cases h

theorem decodeCommand_encodedAs (w : Word) : EncodedAs (decodeCommand w) (.command w) := by
  obtain ⟨key, f, rfl⟩ : ∃ key f, w = commandWord key f := ⟨_, _, (commandWord_fields w).symm⟩
  by_cases hkey : key ∈ namedKeys
  · rw [decodeCommand_commandWord]
    simp only [namedKeys, List.mem_cons, List.not_mem_nil, or_false] at hkey
    obtain rfl | rfl | rfl | rfl | rfl := hkey <;>
    exact ⟨rfl, rfl⟩
  · rw [decodeCommand_commandWord_unnamed f hkey]
    exact ⟨by simpa [WellFormed] using hkey, rfl⟩

/-- Settles O2: what the decoder reads is put together again from the fields it reads. -/
theorem encodeOfDecodeIsIdentity : Obligations.EncodeOfDecodeIsIdentity := by
  intro e i h
  cases e with
  | transaction t => exact decodeTransaction_encodedAs h
  | command w => cases h; exact decodeCommand_encodedAs w

/-! ## The selectors that are no transaction -/

/-- No operands make a transaction of a selector. -/
def Refuses (decoder : Operands → Except DecodeError Instr) : Prop :=
  ∀ ops, ¬ ∃ i, decoder ops = .ok i

@[simp] theorem refuses_error (why : DecodeError) : Refuses fun _ => .error why := by
  rintro ops ⟨i, ⟨⟩⟩

@[simp] theorem not_refuses_takeAbsent (i : Instr) : ¬ Refuses (takeAbsent i) :=
  fun h => h .absent ⟨i, rfl⟩

@[simp] theorem not_refuses_takeWord32 (f : Word → Instr) : ¬ Refuses (takeWord32 f) :=
  fun h => h (.word32 0) ⟨f 0, rfl⟩

@[simp] theorem not_refuses_takeWord16 (f : Half → Instr) : ¬ Refuses (takeWord16 f) :=
  fun h => h (.word16 0) ⟨f 0, rfl⟩

@[simp] theorem not_refuses_takeImage : ¬ Refuses takeImage :=
  fun h => h (.image .unreadable) ⟨_, rfl⟩

@[simp] theorem not_refuses_takeKey : ¬ Refuses takeKey :=
  fun h => h (.key default 0) ⟨_, rfl⟩

@[simp] theorem not_refuses_takeMouse : ¬ Refuses takeMouse :=
  fun h => h (.mouse 0 0 0 0 0) ⟨_, rfl⟩

/-- The selector, not the operands, makes the choice. -/
@[simp] theorem refuses_ite (c : Prop) [Decidable c] (d d' : Operands → Except DecodeError Instr) :
    Refuses (fun ops => if c then d ops else d' ops) ↔ if c then Refuses d else Refuses d' := by
  split <;> rfl

theorem refuses_decodeEvent_iff (id : Offset) : Refuses (decodeEvent id) ↔ 5 < id.toNat := by
  change Refuses (fun ops => decodeEvent id ops) ↔ _
  simp only [decodeEvent, refuses_ite, not_refuses_takeAbsent, not_refuses_takeImage, not_refuses_takeKey,
    not_refuses_takeMouse, refuses_error, if_false_left, and_true]
  bv_omega

theorem refuses_selectorOf_iff (space : BitVec 2) (dir : Bool) (off : Offset) :
    Refuses (fun ops => decodeTransaction ⟨selectorOf space dir off, ops⟩) ↔
      space = 0 ∧ off.extractLsb' 3 6 ≠ 0 ∨ space = 2 ∧ off ≠ 0 ∨
        space = 3 ∧ (dir = true ∨ 5 < off.toNat) := by
  obtain rfl | rfl | rfl | rfl := space_cases space
  · simp only [decodeTransaction_disk]
    simp
  · simp only [decodeTransaction_iob]
    simp
  · simp only [decodeTransaction_tv]
    simp
  · simp only [decodeTransaction_event]
    cases dir <;> simp [refuses_decodeEvent_iff]

/-- Settles O3: the bits R92 names are the fields of the selector, and a selector with `RSV` = 0 is put together
from them. -/
theorem selectorsRefusedAreThoseOfTheRule : Obligations.SelectorsRefusedAreThoseOfTheRule := by
  intro sel
  change Refuses (fun ops => decodeTransaction ⟨sel, ops⟩) ↔ selRsv sel ≠ 0 ∨
    selSpace sel = 0 ∧ sel.extractLsb' 3 6 ≠ 0 ∨ selSpace sel = 2 ∧ selOff sel ≠ 0 ∨
      selSpace sel = 3 ∧ (selDir sel = true ∨ 5 < (selOff sel).toNat)
  rw [← extractLsb'_selOff]
  obtain hrsv | ⟨space, dir, off, rfl⟩ := selector_cases sel
  · simp only [decodeTransaction_reserved hrsv, refuses_error, hrsv, ne_eq, not_false_eq_true, true_or]
  · simp [refuses_selectorOf_iff]

/-- Settles O4: the decoder is evaluated on each word. -/
theorem writtenOutWordsDecode : Obligations.WrittenOutWordsDecode := by
  unfold Obligations.WrittenOutWordsDecode
  decide

/-! ## The assembler's lines -/

/-- The agent of a line (00_scope.md R2, 30_encoding.md R91). -/
def lineAgent : AsmLine → Agent
  | .evKey _ _ | .evMouse _ _ _ _ _ => .frontend
  | .evTick => .timer
  | .evDeliver => .mainLoop
  | .rdDisk _ | .wrDisk _ _ | .wrDiskAt _ _ | .rdIob _ | .wrIob _ _ | .rdIobAt _ | .wrIobAt _ _ | .rdTvCsr
  | .wrTvCsr _ | .evReset | .evAttach _ => .host

/-- Only events have another agent than HOST (30_encoding.md R91). -/
theorem agentOf_eq_host {i : Instr} {t : Transaction} (henc : encode i = .transaction t)
    (hspace : selSpace t.selector ≠ 3) : agentOf i = .host := by
  cases i with
  | evKey | evMouse | evTick | evDeliver =>
    cases henc
    exact absurd (selSpace_selectorOf 3 false _) hspace
  | _ => rfl

/-- A transaction outside the event space decodes to an instruction of HOST. -/
theorem host_of_decode {t : Transaction} {i : Instr} (hdec : decodeTransaction t = .ok i)
    (hspace : selSpace t.selector ≠ 3) : ∃ i, decodeTransaction t = .ok i ∧ agentOf i = .host :=
  ⟨i, hdec, agentOf_eq_host (decodeTransaction_encodedAs hdec).2 hspace⟩

/-- A line assembles to words that decode, to an instruction of the line's agent. -/
theorem decodeTransaction_assemble (line : AsmLine) :
    ∃ i, decodeTransaction (assemble line) = .ok i ∧ agentOf i = lineAgent line := by
  cases line with
  | rdDisk name => exact host_of_decode (decode_encDiskRead name.index) (by simp [assemble])
  | wrDisk name v => exact host_of_decode (decode_encDiskWrite name.index v) (by simp [assemble])
  | wrDiskAt index v =>
    have hoff : ∀ index : BitVec 2, (0 : BitVec 7) ++ index = (0 : BitVec 6) ++ ((0 : BitVec 1) ++ index) := by
      decide
    rw [assemble, hoff]
    exact host_of_decode (decode_encDiskWrite ((0 : BitVec 1) ++ index) v) (by simp)
  | rdIob name => exact host_of_decode (decode_encIobRd name.offset) (by simp [assemble])
  | wrIob name v => exact host_of_decode (decode_encIobWr name.offset v) (by simp [assemble])
  | rdIobAt off => exact host_of_decode (decode_encIobRd off) (by simp [assemble])
  | wrIobAt off v => exact host_of_decode (decode_encIobWr off v) (by simp [assemble])
  | rdTvCsr => exact ⟨.tvRdCsr, decodeTransaction_tv false 0 .absent, rfl⟩
  | wrTvCsr v => exact ⟨.tvWrCsr v, decodeTransaction_tv true 0 (.word32 v), rfl⟩
  | evReset => exact ⟨.evReset, decode_encEvent 0 .absent, rfl⟩
  | evAttach file => exact ⟨.evAttach file, decode_encEvent 1 (.image file), rfl⟩
  | evKey code extra => exact ⟨.evKey code extra, decode_encEvent 2 (.key code extra), rfl⟩
  | evMouse x y dx dy buttons =>
    exact ⟨.evMouse x y dx dy buttons, decode_encEvent 3 (.mouse x y dx dy buttons), rfl⟩
  | evTick => exact ⟨.evTick, decode_encEvent 4 .absent, rfl⟩
  | evDeliver => exact ⟨.evDeliver, decode_encEvent 5 .absent, rfl⟩

/-- Settles O5: the instruction has the agent of its line. -/
theorem assemblerLinesAreTransactions : Obligations.AssemblerLinesAreTransactions := by
  intro line
  obtain ⟨i, hdec, hagent⟩ := decodeTransaction_assemble line
  refine ⟨i, hdec, ?_⟩
  rw [hagent]
  cases line <;> simp [lineAgent]

/-! ## The words of the opcode table -/

theorem legalSelector_iff (sel : Half) :
    legalSelector sel = true ↔ ∃ i, decodeTransaction (zeroTransaction sel) = .ok i := by
  unfold legalSelector
  split
  · next i hdec => simp [hdec]
  · next why hdec => simp [hdec]

theorem legalSelector_eq_false_iff (sel : Half) :
    legalSelector sel = false ↔ ∃ why, decodeTransaction (zeroTransaction sel) = .error why := by
  unfold legalSelector
  split
  · next i hdec => simp [hdec]
  · next why hdec => simp [hdec]

/-- The word is within the 12 bits of a CMDWORD row and has the key of a named command (log 3). -/
def NamedCommandWord (w : Nat) : Prop := w < 4096 ∧ BitVec.ofNat 10 w ∈ namedKeys

theorem tableWord_command {nbits w : Nat}
    (h : 16 < nbits ∨ legalSelector (BitVec.ofNat 16 w) = false ∧ NamedCommandWord w) :
    tableWord nbits w = .command (BitVec.ofNat 32 w) := by
  unfold tableWord
  by_cases hbits : 16 < nbits
  · rw [if_pos hbits]
  · obtain ⟨hillegal, hlow, hkey⟩ := h.resolve_left hbits
    simp [hbits, hillegal, hlow, hkey]

theorem tableWord_transaction {nbits w : Nat} (hbits : nbits ≤ 16)
    (h : legalSelector (BitVec.ofNat 16 w) = true ∨ ¬ NamedCommandWord w) :
    tableWord nbits w = .transaction (zeroTransaction (BitVec.ofNat 16 w)) := by
  rw [tableWord, if_neg (Nat.not_lt.mpr hbits)]
  split_ifs with hlegal hnamed
  · rfl
  · simp only [Bool.and_eq_true, decide_eq_true_eq, List.contains_iff_mem] at hnamed
    exact absurd hnamed (h.resolve_left hlegal)
  · rfl

theorem step_offer_of_ok {t : Transaction} {i : Instr} (h : decodeTransaction t = .ok i) (s : State) :
    step (s.offer (.transaction t)) = exec i s :=
  stepRunsTheDecodedTransaction (s.offer (.transaction t)) t s.env.inputs i rfl h

theorem step_offer_of_error {t : Transaction} {why : DecodeError} (h : decodeTransaction t = .error why)
    (s : State) : step (s.offer (.transaction t)) = .refused (.illegalTransaction why) := by
  simp only [step, State.offer_env, h]

section
variable {nbits w : Nat}

theorem decodeTableWord_transaction {t : Transaction} (h : tableWord nbits w = .transaction t) :
    decodeTableWord nbits w = (decodeTransaction t).toOption := by
  rw [decodeTableWord, h, decode]
  cases decodeTransaction t <;> rfl

theorem withFetchWord_transaction {t : Transaction} (h : tableWord nbits w = .transaction t) (s : State) :
    s.withFetchWord nbits w = s.offer (.transaction t) := by
  rw [State.withFetchWord, h]

theorem decodeTableWord_command {c : Word} (h : tableWord nbits w = .command c) :
    decodeTableWord nbits w = some (decodeCommand c) := by
  rw [decodeTableWord, h]
  rfl

/-- A command runs as the start write dispatches on it (41_disk_commands.md R150). -/
theorem step_withFetchWord_command {c : Word} (h : tableWord nbits w = .command c) (s : State) :
    step (s.withFetchWord nbits w) = exec (decodeCommand c) (s.withDisk { s.disk with command := c }) := by
  have hstart : decodeTransaction (zeroTransaction 0x2007) = .ok (.dskWrStart 0) := by decide
  rw [State.withFetchWord, h]
  exact (step_offer_of_ok hstart _).trans (startCommand_eq _)

end

/-- Settles O8: the word is read as a legal selector, as a command word, or as a selector the decoder refuses. -/
theorem stepRunsTheFetchedWord : Obligations.StepRunsTheFetchedWord := by
  intro s nbits w commanded named
  refine ⟨fun hbits hlegal => ?_, fun hcommand => ?_, fun hbits hillegal hnamed => ?_⟩
  · obtain ⟨i, hdec⟩ := (legalSelector_iff _).mp hlegal
    have htable := tableWord_transaction hbits (.inl hlegal)
    rw [decodeTableWord_transaction htable, withFetchWord_transaction htable, step_offer_of_ok hdec, hdec]
    exact ⟨i, rfl, rfl, rfl⟩
  · have htable := tableWord_command hcommand
    exact ⟨decodeTableWord_command htable, step_withFetchWord_command htable s⟩
  · obtain ⟨why, hdec⟩ := (legalSelector_eq_false_iff _).mp hillegal
    have htable := tableWord_transaction hbits (.inr hnamed)
    rw [decodeTableWord_transaction htable, withFetchWord_transaction htable, step_offer_of_error hdec, hdec]
    exact ⟨rfl, why, rfl⟩

end Sys2Proof.Machine
end

