-- ==== Sys2Proof/Proofs/DmaRange.lean ====
section
/-! SUPPORT. What every instruction does to host memory, and the words that no CCW names: a CCW's base is a 22-bit
word address (20_memory.md R68, 30_encoding.md R104, 41_disk_commands.md R158). -/

namespace Sys2Proof.Machine

/-- Writes under their CCWs do not reach the words above the last block a CCW can name. -/
theorem Memory.read_applyEvents_above {es : List Event} (h : WritesUnderCcw es) {a : Nat} (ha : 0x400000 ≤ a)
    (m : Memory) : Memory.read (applyEvents es m) a = Memory.read m a := by
  induction es with
  | nil => rfl
  | cons e older ih =>
    obtain ⟨hunder, holder⟩ := h
    rw [← ih holder]
    cases e with
    | memWrite b v fault =>
      cases fault with
      | true => rfl
      | false =>
        obtain ⟨ccw, -, -, hlt⟩ := hunder
        have hbase := ccwBase_le ccw
        exact (Memory.read_store ..).trans (if_neg (by omega))
    | memRead | post | mediaRead | netRead | netWrite | alert => rfl

/-- Host memory changes from `s` to `t` by writes under their CCWs alone. -/
def WritesOnlyUnderCcws (s t : State) : Prop := ∃ new, t.mem = applyEvents new s.mem ∧ WritesUnderCcw new

theorem WritesOnlyUnderCcws.of_mem_eq {s t : State} (h : t.mem = s.mem) : WritesOnlyUnderCcws s t :=
  ⟨[], h, trivial⟩

theorem execDskCmdRead_writesOnlyUnderCcws {f : CommandFlags} {s t : State}
    (h : execDskCmdRead f s = .next t) : WritesOnlyUnderCcws s t := by
  cases h
  obtain ⟨new, -, hmem, hunder⟩ := readTransfer_writes f.doneIntEn s
  exact ⟨new, hmem, hunder⟩

/-- Of the commands only READ writes memory (41_disk_commands.md R150 to R166). -/
theorem startCommand_writesOnlyUnderCcws {s t : State} (h : startCommand s = .next t) :
    WritesOnlyUnderCcws s t := by
  dsimp only [startCommand] at h
  split_ifs at h
  case pos => exact execDskCmdRead_writesOnlyUnderCcws h
  all_goals cases h; exact .of_mem_eq rfl

theorem execEvAttach_mem {file : ImageFile} {s t : State} (h : execEvAttach file s = .next t) :
    t.mem = s.mem := by
  cases file with
  | unreadable => cases h; rfl
  | bytes img =>
    dsimp only [execEvAttach] at h
    split at h <;> cases h <;> rfl

/-- Of the instructions only READ and the start write change memory. -/
theorem exec_writesOnlyUnderCcws {i : Instr} {s t : State} (h : exec i s = .next t) :
    WritesOnlyUnderCcws s t := by
  cases i with
  | dskCmdRead => exact execDskCmdRead_writesOnlyUnderCcws h
  | dskWrStart => exact startCommand_writesOnlyUnderCcws h
  | evAttach => exact .of_mem_eq (execEvAttach_mem h)
  | evDeliver =>
    obtain ⟨-, hmem, -⟩ := execEvDeliver_isolated s t s t ⟨rfl, rfl, rfl⟩ h h
    exact .of_mem_eq hmem
  | evKey code extra => cases h; exact .of_mem_eq ((State.pressKey_inputSideOp _ _ _ code extra).mem s)
  | evMouse x y dx dy buttons => cases h; exact .of_mem_eq ((State.moveMouse_inputSideOp _ _ x y buttons).mem s)
  | _ => cases h; exact .of_mem_eq rfl

/-- Settles O17: the writes of an instruction are under their CCWs, and no CCW's block reaches 0x400000. -/
theorem dmaStaysInCcwRange : Obligations.DmaStaysInCcwRange := by
  intro i s t a h ha
  obtain ⟨new, hmem, hunder⟩ := exec_writesOnlyUnderCcws h
  rw [hmem, Memory.read_applyEvents_above hunder ha]

end Sys2Proof.Machine
end

