-- ==== Sys2Proof/Proofs/DiskRegisters.lean ====
section
/-! SUPPORT. The disk register transactions: the selectors of the reads and the writes, the register each changes, and
the command the start write runs (30_encoding.md R95, R96, R101; 40_disk_registers.md R130 to R143). -/

namespace Sys2Proof.Machine

/-! ## The start write -/

/-- `command & CMD_OPCODE_MASK` is the dispatch key (30_encoding.md R101). -/
theorem commandKey_toNat (w : Word) : (commandKey w).toNat = (w &&& Config.cmdOpcodeMask).toNat := by
  have hle : (w &&& Config.cmdOpcodeMask).toNat ≤ Config.cmdOpcodeMask.toNat := by
    rw [BitVec.toNat_and]
    exact Nat.and_le_right
  exact (BitVec.toNat_setWidth ..).trans (Nat.mod_eq_of_lt (Nat.lt_succ_of_le hle))

theorem commandKey_eq_iff {w : Word} {key : BitVec 10} :
    commandKey w = key ↔ (w &&& Config.cmdOpcodeMask).toNat = key.toNat := by
  rw [← commandKey_toNat, BitVec.toNat_inj]

/-- The start write is the command of the key and of the other bits of `command`, whatever value is written
(40_disk_registers.md R143). -/
theorem exec_dskWrStart (v : Word) (s : State) {key : BitVec 10} {i : Instr}
    (hdec : decodeCommand (commandWord key (commandFlags s.disk.command)) = i)
    (hkey : commandKey s.disk.command = key) : exec (.dskWrStart v) s = exec i s := by
  rw [← hdec, ← hkey, commandWord_fields]
  exact startCommand_eq s

/-- Settles O11: the masked number determines the key, and the key the command. -/
theorem startDispatchesOnTheKey : Obligations.StartDispatchesOnTheKey := by
  intro v s key f
  have hnamed (k : BitVec 10) (h : key = k.toNat) :=
    exec_dskWrStart v s (decodeCommand_commandWord k f) (commandKey_eq_iff.mpr h)
  refine ⟨decode_encDiskWrite 7 v, hnamed Config.opRead, hnamed Config.opReadCompare, hnamed Config.opWrite,
    hnamed Config.opRecalibrate, hnamed Config.opFaultClear,
    fun hread hcompare hwrite hrecalibrate hclear => ?_⟩
  have hunnamed : commandKey s.disk.command ∉ namedKeys := by
    simp only [namedKeys, List.mem_cons, List.not_mem_nil, or_false, not_or, commandKey_eq_iff]
    exact ⟨hread, hcompare, hwrite, hrecalibrate, hclear⟩
  rw [← commandKey_eq_extractLsb']
  exact exec_dskWrStart v s (decodeCommand_commandWord_unnamed f hunnamed) rfl

/-! ## The register reads and writes -/

/-- Settles O9: the decoder's row of each read index, and the reply each read gives. -/
theorem diskReadsAnswerTheirRegister : Obligations.DiskReadsAnswerTheirRegister := by
  intro s
  exact ⟨decode_encDiskRead 0, decode_encDiskRead 1, decode_encDiskRead 2, decode_encDiskRead 3,
    decode_encDiskRead 4, decode_encDiskRead 5, decode_encDiskRead 6, decode_encDiskRead 7,
    rfl, rfl, rfl, rfl, rfl, rfl, rfl, rfl⟩

/-- The ignored writes have the four selectors from 0x2000 on (30_encoding.md R96). -/
theorem decodeTransaction_dskWrNop (index : BitVec 2) (v : Word) :
    decodeTransaction ⟨0x2000 + index.setWidth 16, .word32 v⟩ = .ok (.dskWrNop index v) := by
  have hsel : ∀ index : BitVec 2, 0x2000 + index.setWidth 16 =
      selectorOf 0 true ((0 : BitVec 6) ++ ((0 : BitVec 1) ++ index)) := by decide
  rw [hsel, ← diskWriteOf_nop]
  exact decode_encDiskWrite ((0 : BitVec 1) ++ index) v

/-- Settles O10: the decoder's row of each write index, and the register each write sets. -/
theorem diskWritesChangeTheirRegisterOnly : Obligations.DiskWritesChangeTheirRegisterOnly := by
  refine ⟨decodeTransaction_dskWrNop, fun v => ?_, fun s i v => ?_⟩
  · exact ⟨decode_encDiskWrite 4 v, decode_encDiskWrite 5 v, decode_encDiskWrite 6 v⟩
  · exact ⟨rfl, rfl, rfl, rfl⟩

end Sys2Proof.Machine
end

