-- ==== Sys2Proof/Proofs/DiskCommands.lean ====
section
/-! SUPPORT. The commands that transfer nothing, the media and its geometry, and the counters after one
`Advance()` (41_disk_commands.md R152 to R171). -/

namespace Sys2Proof.Machine

/-! ## Commands without a transfer -/

/-- Settles O12: the decoder's row of each key, and the counters each command sets from `da`. -/
theorem readCompareAndWriteOnlyDecode : Obligations.ReadCompareAndWriteOnlyDecode := by
  intro f s t
  exact ⟨decodeCommand_commandWord Config.opReadCompare f, decodeCommand_commandWord Config.opWrite f, rfl, rfl⟩

/-- Settles O13: the decoder's row of each key and of the unnamed keys, and the reply alone changed. -/
theorem noOpCommandsChangeNothing : Obligations.NoOpCommandsChangeNothing := by
  intro key f s
  exact ⟨decodeCommand_commandWord Config.opRecalibrate f, decodeCommand_commandWord Config.opFaultClear f,
    decodeCommand_commandWord_unnamed f, rfl, rfl, rfl⟩

/-! ## The media and the geometry -/

/-- What makes a file's label valid (41_disk_commands.md R170). -/
theorem labelValid_iff {img : List Byte} :
    labelValid img = true ↔ Config.blockBytes ≤ img.length ∧ imageWord img 0 = Config.labelMagic := by
  simp [labelValid]

/-- Settles O47: the label of a file decides between attaching it and detaching. -/
theorem attachLoadsGeometryOrDetaches : Obligations.AttachLoadsGeometryOrDetaches := by
  intro s img
  refine ⟨fun file => decode_encEvent 1 (.image file), fun hlen hmagic => ?_, fun hinvalid => ?_, rfl⟩
  · exact if_pos (labelValid_iff.mpr ⟨hlen, hmagic⟩)
  · refine if_neg fun hvalid => ?_
    obtain ⟨hlen, hmagic⟩ := labelValid_iff.mp hvalid
    exact hinvalid.elim hlen.not_gt fun hother => hother hmagic

/-- What changes the drive is an ATTACH, of the instructions other than RESET. -/
theorem DiskEffect.sameDrive_or_attach {i : Instr} {d d' : DiskRegs} (h : DiskEffect i d d') :
    d.SameDrive d' ∨ ∃ file, i = .evAttach file := by
  cases h with
  | operate drive => exact .inl drive
  | attach | detach => exact .inr ⟨_, rfl⟩

/-- Settles O54: every other instruction keeps the registers of the drive. -/
theorem onlyAttachAndResetChangeMedia : Obligations.OnlyAttachAndResetChangeMedia := by
  intro i s t h hchanged
  by_cases hreset : i = .evReset
  · exact .inl hreset
  · refine .inr ((exec_effect hreset h).disk.sameDrive_or_attach.resolve_left fun hdrive => ?_)
    obtain ⟨-, hcyls, hheads, hblocks, hmedia⟩ := hdrive
    obtain hne | hne | hne | hne := hchanged
    exacts [hne hmedia, hne hcyls, hne hheads, hne hblocks]

/-! ## The counters after one `Advance()` -/

theorem exceeds_iff {r : Rollover} {x lim : Word} :
    exceeds r x lim = true ↔ r = .gt ∧ lim.toNat < x.toNat ∨ r = .ge ∧ lim.toNat ≤ x.toNat := by
  cases r <;> simp [exceeds]

section
variable {r : Rollover} {d : DiskRegs}

/-- `Advance()` inside a track. -/
theorem DiskRegs.advance_inTrack (hblock : ¬ exceeds r (d.curBlock + 1) d.blocksPerTrack = true) :
    d.advance r = { d with curBlock := d.curBlock + 1 } := if_neg hblock

/-- `Advance()` from the end of a track inside a cylinder. -/
theorem DiskRegs.advance_inCylinder (hblock : exceeds r (d.curBlock + 1) d.blocksPerTrack = true)
    (hhead : ¬ exceeds r (d.curHead + 1) d.heads = true) :
    d.advance r = { d with curBlock := 0, curHead := d.curHead + 1 } :=
  (if_pos hblock).trans (if_neg hhead)

/-- `Advance()` from the end of a cylinder. -/
theorem DiskRegs.advance_nextCylinder (hblock : exceeds r (d.curBlock + 1) d.blocksPerTrack = true)
    (hhead : exceeds r (d.curHead + 1) d.heads = true) :
    d.advance r = { d with curBlock := 0, curHead := 0, curCyl := d.curCyl + 1 } :=
  (if_pos hblock).trans (if_pos hhead)

end

/-- Settles O28: `Exceeds` decides between the three ways `Advance()` can go. -/
theorem advanceRollsOver : Obligations.AdvanceRollsOver := by
  refine ⟨rfl, ?_⟩
  intro r d exceed
  have hiff {x lim : Word} : exceed x lim ↔ exceeds r x lim = true := exceeds_iff.symm
  simp only [hiff]
  exact ⟨DiskRegs.advance_inTrack, DiskRegs.advance_inCylinder, DiskRegs.advance_nextCylinder⟩

/-! ## The block number after one `Advance()` -/

/-- A counter below the largest word counts without wrapping around. -/
theorem toNat_add_one {x : Word} (h : x.toNat + 1 < 2 ^ 32) : (x + 1).toNat = x.toNat + 1 :=
  BitVec.toNat_add_of_lt h

theorem toNat_word_zero : (0 : Word).toNat = 0 := rfl

theorem exceeds_gt_succ_iff {x lim : Word} (h : x.toNat + 1 < 2 ^ 32) :
    exceeds .gt (x + 1) lim = true ↔ lim.toNat ≤ x.toNat := by
  rw [exceeds, decide_eq_true_iff, toNat_add_one h, Nat.lt_succ_iff]

theorem exceeds_ge_succ_iff {x lim : Word} (h : x.toNat + 1 < 2 ^ 32) :
    exceeds .ge (x + 1) lim = true ↔ lim.toNat ≤ x.toNat + 1 := by
  rw [exceeds, decide_eq_true_iff, toNat_add_one h]

/-- Settles O26: a strict limit lets a track hold one block more than the block number counts for it. -/
theorem advanceRepeatsABlockAtTrackEnds : Obligations.AdvanceRepeatsABlockAtTrackEnds := by
  intro d hblocks hheads hcyl hblock hhead
  have hblock' : d.curBlock.toNat + 1 < 2 ^ 32 := by omega
  have hhead' : d.curHead.toNat + 1 < 2 ^ 32 := by omega
  refine ⟨fun hinside => ?_, fun hend hinside => ?_, fun hend hlast => ?_⟩
  · rw [DiskRegs.advance_inTrack ((exceeds_gt_succ_iff hblock').not.mpr hinside.not_ge)]
    simp only [DiskRegs.currentBlock, blockNumber, toNat_add_one hblock']
    ring
  · rw [DiskRegs.advance_inCylinder ((exceeds_gt_succ_iff hblock').mpr (by rw [hend]))
      ((exceeds_gt_succ_iff hhead').not.mpr hinside.not_ge)]
    simp only [DiskRegs.currentBlock, blockNumber, toNat_add_one hhead', hend, toNat_word_zero]
    ring
  · rw [DiskRegs.advance_nextCylinder ((exceeds_gt_succ_iff hblock').mpr (by rw [hend]))
      ((exceeds_gt_succ_iff hhead').mpr (by rw [hlast]))]
    simp only [DiskRegs.currentBlock, blockNumber, toNat_add_one hcyl, hend, hlast, toNat_word_zero]
    ring

/-- Settles O27: the last block of a track is `blocksPerTrack - 1`, and the last head `heads - 1`. -/
theorem alternativeRolloverIsGapFree : Obligations.AlternativeRolloverIsGapFree := by
  intro d hblock hhead hcyl
  have hblock' : d.curBlock.toNat + 1 < 2 ^ 32 := by omega
  have hhead' : d.curHead.toNat + 1 < 2 ^ 32 := by omega
  have hblocks : 0 < d.blocksPerTrack.toNat := Nat.zero_lt_of_lt hblock
  have hheads : 0 < d.heads.toNat := Nat.zero_lt_of_lt hhead
  obtain hinside | hend := (Nat.add_one_le_of_lt hblock).lt_or_eq
  · rw [DiskRegs.advance_inTrack ((exceeds_ge_succ_iff hblock').not.mpr hinside.not_ge)]
    refine ⟨?_, (toNat_add_one hblock').trans_lt hinside, hhead⟩
    simp only [DiskRegs.currentBlock, blockNumber, toNat_add_one hblock']
    ring
  have hexceeds := (exceeds_ge_succ_iff hblock').mpr hend.ge
  obtain hinside | hlast := (Nat.add_one_le_of_lt hhead).lt_or_eq
  · rw [DiskRegs.advance_inCylinder hexceeds ((exceeds_ge_succ_iff hhead').not.mpr hinside.not_ge)]
    refine ⟨?_, hblocks, (toNat_add_one hhead').trans_lt hinside⟩
    simp only [DiskRegs.currentBlock, blockNumber, toNat_add_one hhead', ← hend, toNat_word_zero]
    ring
  · rw [DiskRegs.advance_nextCylinder hexceeds ((exceeds_ge_succ_iff hhead').mpr hlast.ge)]
    refine ⟨?_, hblocks, hheads⟩
    simp only [DiskRegs.currentBlock, blockNumber, toNat_add_one hcyl, ← hend, ← hlast, toNat_word_zero]
    ring

end Sys2Proof.Machine
end

