-- ==== Sys2Proof/Proofs/ReadChains.lean ====
section
/-! SUPPORT. What a READ does along its chain: the CCWs it fetches whatever the services answer, the chain that
every service lets through, and the ends by a fault (41_disk_commands.md R151 to R163). -/

namespace Sys2Proof.Machine

/-! ## The CCWs a READ fetches -/

/-- The `k` word addresses from `a` on, modulo 2^32. -/
def wordsFrom (a : Word) (k : Nat) : List Word := (List.range k).map fun i => a + BitVec.ofNat 32 i

theorem wordsFrom_succ (a : Word) (k : Nat) : wordsFrom a (k + 1) = a :: wordsFrom (a + 1) k := by
  rw [wordsFrom, List.range_succ_eq_map, List.map_cons, List.map_map, BitVec.add_zero]
  simp only [wordsFrom, word_add_succ]
  rfl

/-- The walk goes on after a CCW exactly if the chain does. -/
theorem walkChain_succ_state (n : Nat) (s : State) : (walkChain (n + 1) s).state =
    if (walkCcw s).isMore then (walkChain n (walkCcw s).state).state else (walkCcw s).state := by
  rw [walkChain]
  cases walkCcw s <;> rfl

/-- A walk fetches at most as many CCWs as it may, one word after the other, and ends at the last one fetched,
or past it where the bound ends the walk (41_disk_commands.md R161, R162). -/
theorem walkChain_fetches (n : Nat) : ∀ s : State,
    ∃ new k, (walkChain n s).state.history = new ++ s.history ∧ k ≤ n ∧
      (new.filterMap Event.fetchAddress?).reverse = wordsFrom s.disk.clp k ∧
      (1 ≤ k ∧ (walkChain n s).state.disk.clp = s.disk.clp + BitVec.ofNat 32 (k - 1) ∨
        k = n ∧ (walkChain n s).state.disk.clp = s.disk.clp + BitVec.ofNat 32 k) := by
  induction n with
  | zero => intro s; exact ⟨[], 0, rfl, Nat.le_refl 0, rfl, .inr ⟨rfl, (BitVec.add_zero _).symm⟩⟩
  | succ n ih =>
    intro s
    obtain ⟨old, hpart, -, hfetch, hclp⟩ := walkCcw_part s
    rw [walkChain_succ_state]
    cases hmore : (walkCcw s).isMore with
    | false =>
      refine ⟨old, 1, hpart.history, by omega, by simp [hfetch, wordsFrom], .inl ⟨Nat.le_refl 1, ?_⟩⟩
      simpa [hmore] using hclp
    | true =>
      obtain ⟨new, k, hhistory, hk, hfetches, hend⟩ := ih (walkCcw s).state
      rw [hmore, if_pos rfl] at hclp
      rw [hclp] at hfetches hend
      refine ⟨new ++ old, k + 1, ?_, by omega, ?_, ?_⟩
      · rw [if_pos rfl, hhistory, hpart.history, List.append_assoc]
      · rw [List.filterMap_append, hfetch, List.reverse_append, hfetches, wordsFrom_succ]
        rfl
      · rw [if_pos rfl, Nat.add_sub_cancel]
        obtain ⟨hone, hlast⟩ | ⟨rfl, hpast⟩ := hend
        · rw [word_add_succ, Nat.sub_add_cancel hone] at hlast
          exact .inl ⟨by omega, hlast⟩
        · rw [word_add_succ] at hpast
          exact .inr ⟨rfl, hpast⟩

/-- Settles O18: the walk's fetches are the READ's, the post behind it being none. -/
theorem readFetchesConsecutiveCcws : Obligations.ReadFetchesConsecutiveCcws := by
  rintro f s _ ⟨⟩
  obtain ⟨new, k, hhistory, hk, hfetches, hend⟩ := walkChain_fetches Config.chainBound s.decodeDa
  have hone : 1 ≤ k := hend.elim And.left fun ⟨hbound, _⟩ => by rw [hbound]; decide
  have hend' := hend.imp_left And.right
  rw [readTransfer]
  obtain hread | ⟨-, hread⟩ :=
    completeRead_cases f.doneIntEn (walkChain Config.chainBound s.decodeDa)
  · rw [hread]
    exact ⟨new, k, hhistory, hone, hk, hfetches, hend'⟩
  · rw [hread]
    exact ⟨.post Config.lineDisk :: new, k, congrArg _ hhistory, hone, hk, hfetches, hend'⟩

/-! ## Failing calls and the post -/

/-- A walk posts nothing, and at most its last call fails: then it has aborted. -/
theorem walkChain_quiet (n : Nat) (s : State) :
    ∃ new, (walkChain n s).state.history = new ++ s.history ∧ (∀ e ∈ new, e.isPost = false) ∧
      FailsAtMostLast (walkChain n s).aborts new := by
  obtain ⟨new, hpart⟩ := walkChain_part n s
  obtain ⟨new', hhistory, hfails⟩ := walkChain_fails n s
  obtain rfl : new = new' := List.append_cancel_right (hpart.history.symm.trans hhistory)
  exact ⟨new, hhistory, hpart.noPost, hfails⟩

/-- Settles O59: the walk aborts exactly where a call fails, and the post stands behind a walk that has not. -/
theorem readPostsExactlyOnNormalCompletion : Obligations.ReadPostsExactlyOnNormalCompletion := by
  rintro f s _ ⟨⟩
  obtain ⟨new, hhistory, hquiet, hfails⟩ := walkChain_quiet Config.chainBound s.decodeDa
  rw [readTransfer]
  cases hwalk : walkChain Config.chainBound s.decodeDa with
  | aborted u =>
    rw [hwalk] at hhistory hfails
    refine ⟨new, hhistory, fun _ => ⟨hquiet, hfails⟩, fun hnone _ => ?_, fun _ => hquiet⟩
    obtain ⟨e, older, rfl, hfailed, -⟩ := hfails
    exact nomatch hfailed.symm.trans (hnone e List.mem_cons_self)
  | ongoing u =>
    rw [hwalk] at hhistory hfails
    have hnone : ¬ ∃ e ∈ new, e.isFailure = true :=
      fun ⟨e, he, hfailed⟩ => nomatch hfailed.symm.trans (hfails e he)
    cases hdone : f.doneIntEn with
    | false => exact ⟨new, hhistory, fun h => absurd h hnone, nofun, fun _ => hquiet⟩
    | true =>
      have hnone' : ¬ ∃ e ∈ Event.post Config.lineDisk :: new, e.isFailure = true := by
        simpa only [List.mem_cons, exists_eq_or_imp, Event.isFailure, Bool.false_eq_true, false_or] using hnone
      exact ⟨.post Config.lineDisk :: new, congrArg _ hhistory, fun h => absurd h hnone',
        fun _ _ => ⟨new, rfl, hquiet⟩, nofun⟩

/-! ## A chain that every service lets through -/

theorem State.afterChain_append (links more : List Word) (r w m reads writes medias : List Bool) (s : State) :
    (s.afterChain links r w m).afterChain more reads writes medias =
      s.afterChain (links ++ more) reads writes medias := by
  simp [State.afterChain, chainRegs_append, chainMemory_append, chainEvents_append]

section
variable {s : State} {links : List Word} {final : Word} {reads writes medias : List Bool}

/-- The state where a READ has walked an answered chain to its end. -/
def State.chainWalked (links : List Word) (final : Word) (reads writes medias : List Bool) (s : State) : State :=
  { s.decodeDa.afterChain (links ++ [final]) reads writes medias with
    disk := { chainRegs (links ++ [final]) s.disk.decodeDa with
      clp := s.disk.clp + BitVec.ofNat 32 (if ccwCont final then (links ++ [final]).length else links.length) } }

/-- A READ whose chain ends with a CCW that does not continue (41_disk_commands.md R161). -/
theorem readTransfer_final (done : Bool) (hl : ∀ c ∈ links, ccwCont c = true) (hn : links.length < 65535)
    (hcont : ccwCont final = false) (h : ChainAnswered s.decodeDa (links ++ [final]) reads writes medias) :
    readTransfer done s = completeRead done (.ongoing (s.chainWalked links final reads writes medias)) := by
  obtain ⟨r, w, m, hlinks, hfinal⟩ := h.split
  obtain ⟨n, hnext⟩ := readTransfer_links_next done hl hn hlinks
  have hregs : chainRegs [final] (s.decodeDa.afterChain links r w m).disk =
      chainRegs (links ++ [final]) s.disk.decodeDa := (chainRegs_append ..).symm
  rw [hnext, walkChain_final n hcont hfinal, State.afterChain_append, hregs, State.afterChain_clp,
    State.chainWalked, hcont]
  rfl

/-- A READ whose 65535th CCW still continues: the bound ends it, as if the chain had ended (41_disk_commands.md
R162). -/
theorem readTransfer_bound (done : Bool) (hl : ∀ c ∈ links, ccwCont c = true) (hn : links.length + 1 = 65535)
    (hcont : ccwCont final = true) (h : ChainAnswered s.decodeDa (links ++ [final]) reads writes medias) :
    readTransfer done s = completeRead done (.ongoing (s.chainWalked links final reads writes medias)) := by
  have hlen : (links ++ [final]).length = 65535 := List.length_append.trans hn
  have hall : ∀ c ∈ links ++ [final], ccwCont c = true := by
    intro c hc
    obtain hc | hc := List.mem_append.mp hc
    · exact hl c hc
    · rwa [List.mem_singleton.mp hc]
  have hclp : _ = s.disk.clp + _ := State.afterChain_clp (links ++ [final]) reads writes medias s.decodeDa
  rw [readTransfer_links done hall hlen.le h, hlen, Nat.sub_self, walkChain, State.chainWalked, hcont, if_pos rfl,
    ← hclp]
  rfl

end

/-- Settles O19: the walk ends at the final CCW or by the bound, and either end is normal completion. -/
theorem chainReadRunsToItsEnd : Obligations.ChainReadRunsToItsEnd := by
  intro f s links final reads writes medias ccws hl hend hchain
  have hread : readTransfer f.doneIntEn s =
      completeRead f.doneIntEn (.ongoing (s.chainWalked links final reads writes medias)) := by
    cases hcont : ccwCont final with
    | false => exact readTransfer_final _ hl (by omega) hcont hchain
    | true => exact readTransfer_bound _ hl (hend.resolve_left fun h => by simp [hcont] at h) hcont hchain
  refine congrArg Host.Outcome.next ?_
  rw [hread, State.chainWalked, chainRegs_eq, maAfter_append_singleton]
  cases f.doneIntEn <;> rfl

/-- Settles O20: where the READ ends, memory is what the copies of its CCWs make of it. -/
theorem chainReadCopiesItsBlocks : Obligations.ChainReadCopiesItsBlocks := by
  intro f s img links final reads writes medias ccws hmedia hl hend hchain
  refine ⟨_, chainReadRunsToItsEnd f s links final reads writes medias hl hend hchain,
    fun i ccw j hi hj hlater => ?_, fun a huncovered => ?_, rfl, rfl, rfl, rfl, rfl, rfl⟩
  · exact chainMemory_covered hj ccws i s.disk.decodeDa s.mem hmedia hi hlater
  · exact chainMemory_uncovered ccws a s.disk.decodeDa s.mem huncovered

/-! ## One block, and its words in memory -/

/-- A CCW that every service lets through is a chain of its own. -/
theorem ChainAnswered.singleton {s : State} {ccw : Word} {reads writes medias : List Bool}
    (hf : Memory.read s.mem s.disk.clp.toNat = ccw)
    (hi : ∀ img, s.disk.media = .attached img →
      Config.blockBytes * s.disk.currentBlock + Config.blockBytes ≤ img.length)
    (hr : s.env.memReadFaults = false :: reads)
    (hw : s.env.memWriteFaults = List.replicate s.disk.copiedWords.length false ++ writes)
    (hm : s.env.mediaFails = List.replicate s.disk.mediaEvents.length false ++ medias) :
    ChainAnswered s [ccw] reads writes medias := by
  refine ⟨fun i hlt => ?_, fun img himg i hlt => ?_, hr, hw, hm⟩
  · obtain rfl : i = 0 := Nat.lt_one_iff.mp hlt
    rw [List.take_zero, chainMemory, BitVec.add_zero]
    exact hf
  · obtain rfl : i = 0 := Nat.lt_one_iff.mp hlt
    exact hi img himg

theorem chainEvents_singleton (ccw : Word) (d : DiskRegs) : chainEvents [ccw] d =
    writeEvents (ccwBase ccw) d.copiedWords ++ d.mediaEvents ++ [.memRead d.clp (some ccw)] := rfl

section
variable {ccw : Word} {ws : List Word} (h : ws.length ≤ 256) {m : Memory}
include h

/-- A block's words end inside the address space (41_disk_commands.md R158). -/
theorem ccwBase_room : (ccwBase ccw).toNat + ws.length < 4294967296 := by
  have := ccwBase_le ccw
  omega

/-- A word stored at its place from a CCW's base on. -/
theorem Memory.read_storeWords_inside {j : Nat} (hj : j < ws.length) :
    Memory.read (storeWords (ccwBase ccw) ws m) ((ccwBase ccw).toNat + j) = ws[j] := by
  rw [Memory.read_storeWords ws _ m _ (ccwBase_room h), dif_pos (by omega)]
  simp only [Nat.add_sub_cancel_left]

/-- A word that is none of those stored from a CCW's base on. -/
theorem Memory.read_storeWords_outside {a : Nat}
    (ha : a < (ccwBase ccw).toNat ∨ (ccwBase ccw).toNat + ws.length ≤ a) :
    Memory.read (storeWords (ccwBase ccw) ws m) a = Memory.read m a := by
  rw [Memory.read_storeWords ws _ m a (ccwBase_room h), dif_neg (by omega)]

end

/-! ## The synthetic label -/

/-- A field of `da` below bit 31 is 0 if all those bits are. -/
theorem extractLsb'_eq_zero {da : Word} (h : da &&& 0x7FFFFFFF = 0) {start len : Nat} (hle : start + len ≤ 31) :
    da.extractLsb' start len = 0 := by
  have hmask : ∀ i : Fin 31, (0x7FFFFFFF : Word).getLsbD i = true := by decide
  refine BitVec.eq_of_getLsbD_eq fun i hi => ?_
  have hbit := congrArg (fun w : Word => w.getLsbD (start + i)) h
  rw [BitVec.getLsbD_and, hmask ⟨start + i, by omega⟩] at hbit
  simpa [hi] using hbit

/-- The address 0 decodes to the block (0,0,0,0), whatever bit 31 is (30_encoding.md R102). -/
theorem DiskRegs.decodeDa_atOrigin {d : DiskRegs} (h : d.da &&& 0x7FFFFFFF = 0) : d.decodeDa.atOrigin = true := by
  simp [DiskRegs.atOrigin, DiskRegs.decodeDa, daUnit, daCyl, daHead, daBlock, extractLsb'_eq_zero h]

/-- Without media, the block (0,0,0,0) is the synthetic label (41_disk_commands.md R158, R167). -/
theorem DiskRegs.copiedWords_label {d : DiskRegs} (hm : d.media = .detached) (ho : d.atOrigin = true) :
    d.copiedWords = synthLabelWords := by
  simp only [DiskRegs.copiedWords, hm, ho, if_true]

theorem DiskRegs.mediaEvents_detached {d : DiskRegs} (hm : d.media = .detached) : d.mediaEvents = [] := by
  simp only [DiskRegs.mediaEvents, hm]

/-- Settles O21: the READ is a chain of one CCW whose block is the label. -/
theorem detachedOriginGetsTheSyntheticLabel : Obligations.DetachedOriginGetsTheSyntheticLabel := by
  intro f s ccw reads writes base hmedia hda hccw hcont hreads hwrites
  have hcopied : s.disk.decodeDa.copiedWords = synthLabelWords :=
    DiskRegs.copiedWords_label hmedia (DiskRegs.decodeDa_atOrigin hda)
  have hnoMedia : s.disk.decodeDa.mediaEvents = [] := DiskRegs.mediaEvents_detached hmedia
  have hchain : ChainAnswered s.decodeDa [ccw] reads writes s.env.mediaFails := by
    refine .singleton hccw (fun img himg => nomatch hmedia.symm.trans himg) hreads ?_ ?_
    · rwa [State.decodeDa_disk, hcopied, synthLabelWords_length]
    · rw [State.decodeDa_disk, hnoMedia]
      rfl
  have hmem : chainMemory [ccw] s.disk.decodeDa s.mem = storeWords base synthLabelWords s.mem := by
    rw [chainMemory, hcopied]
    rfl
  have hclp : s.disk.clp + BitVec.ofNat 32 (if ccwCont ccw then 1 else 0) = (s.disk.decodeDa.advance .gt).clp := by
    rw [show ccwCont ccw = false from hcont, DiskRegs.advance_clp]
    exact BitVec.add_zero _
  have hlen : synthLabelWords.length = 256 := synthLabelWords_length
  have hread := chainReadRunsToItsEnd f s [] ccw reads writes s.env.mediaFails nofun (.inl ⟨by simp, hcont⟩) hchain
  refine ⟨_, hread, fun j => ?_, fun a ha => ?_, ?_, ?_, rfl, rfl, rfl, rfl⟩
  · refine (congrArg (Memory.read · (base.toNat + j)) hmem).trans ?_
    exact (Memory.read_storeWords_inside hlen.le (j.isLt.trans_eq hlen.symm)).trans (List.getElem_ofFn _)
  · exact (congrArg (Memory.read · a) hmem).trans (Memory.read_storeWords_outside hlen.le (by rwa [hlen]))
  · exact congrArg (fun c => { s.disk.decodeDa.advance .gt with clp := c, ma := base }) hclp
  · show _ ++ chainEvents [ccw] s.disk.decodeDa ++ s.history = _
    rw [chainEvents_singleton, hcopied, hnoMedia, List.append_nil, List.append_assoc, List.append_assoc,
      List.append_assoc]
    rfl

/-! ## The ends by a fault -/

/-- The state after a MemRead with a fault. -/
theorem State.memRead_of_fault {s : State} {a : Word} {more : List Bool} (h : s.env.memReadFaults = true :: more) :
    s.memRead a = { s with
      history := .memRead a none :: s.history
      env := { s.env with memReadFaults := more } } := by
  simp [State.memRead, State.record, State.withEnv, State.memAnswer_of_fault h, Env.dropMemReadFault, h]

/-- Settles O22: the fetch after the links is the call that fails. -/
theorem fetchFaultAbortsTheRead : Obligations.FetchFaultAbortsTheRead := by
  intro f s links reads writes medias clp hl hn hchain
  have hread := readTransfer_aborts f.doneIntEn hl hn hchain
    (walkCcw_fetchFault (State.memAnswer_of_fault (more := reads) rfl))
  rw [State.memRead_of_fault (more := reads) rfl, State.afterChain_clp] at hread
  refine congrArg Host.Outcome.next ?_
  rw [hread, State.afterChain, chainRegs_eq]
  rfl

/-- The block of the CCW after linked CCWs (41_disk_commands.md R158, R160). -/
theorem State.afterChain_copiedWords (links : List Word) (reads writes medias : List Bool) (s : State) :
    (s.afterChain links reads writes medias).disk.copiedWords = (advanceBy links.length s.disk).copiedWords := by
  rw [State.afterChain, chainRegs_eq]
  rfl

/-- The MediaRead of the CCW after linked CCWs (41_disk_commands.md R158, R160). -/
theorem State.afterChain_mediaEvents (links : List Word) (reads writes medias : List Bool) (s : State) :
    (s.afterChain links reads writes medias).disk.mediaEvents = (advanceBy links.length s.disk).mediaEvents := by
  rw [State.afterChain, chainRegs_eq]
  rfl

/-- Settles O24: the copy of the CCW after the links aborts at its word `j`. -/
theorem destinationFaultAbortsTheRead : Obligations.DestinationFaultAbortsTheRead := by
  intro f s links ccw j v reads writes medias clp d base hl hn hchain hccw hinside hj
  obtain ⟨hlt, rfl⟩ := List.getElem?_eq_some_iff.mp hj
  let u := s.decodeDa.afterChain links (false :: reads) (List.replicate j false ++ true :: writes)
    (List.replicate d.mediaEvents.length false ++ medias)
  have hclp : u.disk.clp = clp := State.afterChain_clp ..
  have hcopied : u.disk.copiedWords = d.copiedWords := State.afterChain_copiedWords ..
  have hmediaEvents : u.disk.mediaEvents = d.mediaEvents := State.afterChain_mediaEvents ..
  have hread : Memory.read u.mem u.disk.clp.toNat = ccw := by rw [hclp]; exact hccw
  have hfile : ∀ img, u.disk.media = .attached img → blockInImage img u.disk.currentBlock = true := by
    intro img himg
    rw [State.afterChain_currentBlock]
    exact decide_eq_true (hinside img ((chainRegs_media links s.disk.decodeDa).symm.trans himg))
  have hcopy := copyBlock_writeFault (s := u) (by rwa [hcopied]) hread hfile rfl rfl (by rw [hmediaEvents]; rfl)
  have hread' := readTransfer_aborts f.doneIntEn hl hn hchain
    (walkCcw_copyAborts (State.memAnswer_of_read rfl hread) hcopy)
  simp only [hcopied, hmediaEvents, hclp] at hread'
  have hlen : (d.copiedWords.take j).length = j := List.length_take_of_le hlt.le
  have hblock : (d.copiedWords.take j).length ≤ 256 := by
    rw [hlen]
    exact hlt.le.trans d.copiedWords_length_le
  refine ⟨_, congrArg (fun t : State => Host.Outcome.next (t.replying .nothing)) hread',
    fun i hi => ?_, fun a ha => ?_, ?_, ?_, rfl, rfl, rfl, rfl⟩
  · refine (List.getElem?_eq_getElem (hi.trans hlt)).trans (congrArg some ?_)
    exact ((Memory.read_storeWords_inside hblock (by rwa [hlen])).trans List.getElem_take).symm
  · exact Memory.read_storeWords_outside hblock (by rwa [hlen])
  · exact congrArg (fun d' : DiskRegs => { d' with clp := clp, ma := base }) (chainRegs_eq links s.disk.decodeDa)
  · exact (List.append_assoc _ (.memRead clp (some ccw) :: chainEvents links s.disk.decodeDa) s.history).symm

end Sys2Proof.Machine
end

