-- ==== Sys2Proof/Proofs/IobRegisters.lean ====
section
/-! SUPPORT. The I/O board register transactions: the selectors of the reads and the writes, the words the mouse and
the microsecond reads pack, and what each transaction changes (30_encoding.md R98, R99, R112 to R114;
42_iob_registers.md R200 to R221). -/

namespace Sys2Proof.Machine

/-! ## The selectors of the register page -/

/-- A selector of SPACE IOB with `RSV` = 0 is its base and its offset, which share no bit (30_encoding.md R90). -/
theorem selectorOf_iob_eq_add (dir : Bool) (off : Offset) :
    selectorOf 1 dir off = (if dir then 0x6000 else 0x4000) + off.setWidth 16 := by
  have hbase : (selectorOf 1 dir 0 : Half) = if dir then 0x6000 else 0x4000 := by cases dir <;> rfl
  have hdisjoint : selectorOf 1 dir 0 &&& off.setWidth 16 = 0 := by
    unfold selectorOf
    ext i hi
    grind
  rw [← hbase, BitVec.add_eq_or_of_and_eq_zero _ _ hdisjoint]
  unfold selectorOf
  ext i hi
  grind

theorem decodeTransaction_iobRead (off : Offset) :
    decodeTransaction ⟨0x4000 + off.setWidth 16, .absent⟩ = decode (encIobRd off) := by
  rw [encIobRd, selectorOf_iob_eq_add]
  rfl

theorem decodeTransaction_iobWrite (off : Offset) (v : Half) :
    decodeTransaction ⟨0x6000 + off.setWidth 16, .word16 v⟩ = decode (encIobWr off v) := by
  rw [encIobWr, selectorOf_iob_eq_add]
  rfl

theorem isNetOffset_iff (off : Offset) : isNetOffset off = true ↔ 0o140 ≤ off.toNat ∧ off.toNat ≤ 0o152 := by
  simp [isNetOffset, Config.netLo, Config.netHi]

/-! ## The keyboard and the CSR -/

/-- Settles O29: both reads clear the bit of `KBD_READY`. -/
theorem keyboardReadsClearReady : Obligations.KeyboardReadsClearReady := by
  intro s
  exact ⟨decode_encIobRd Config.offKbdLo, decode_encIobRd Config.offKbdHi, rfl, rfl⟩

/-- Settles O35: the write keeps what `enablesMask` leaves out. -/
theorem csrWriteMergesTheEnables : Obligations.CsrWriteMergesTheEnables := by
  intro s v
  exact ⟨decode_encIobRd Config.offKbdCsr, decode_encIobWr Config.offKbdCsr v, rfl, rfl⟩

/-! ## The mouse -/

/-- The fields of a mouse-Y word in the positions of 30_encoding.md R112. -/
theorem mouseYWord_eq_or_shiftLeft (b : IobRegs) :
    mouseYWord b = (BitVec.ofBool b.btnTail).setWidth 16 <<< 14 ||| (BitVec.ofBool b.btnMiddle).setWidth 16 <<< 13 |||
      (BitVec.ofBool b.btnHead).setWidth 16 <<< 12 ||| b.mouseY.setWidth 16 := by
  unfold mouseYWord
  ext i hi
  grind

/-- The fields of a mouse-X word in the positions of 30_encoding.md R113. -/
theorem mouseXWord_eq_or_shiftLeft (b : IobRegs) :
    mouseXWord b = b.mouseRawY.setWidth 16 <<< 14 ||| b.mouseRawX.setWidth 16 <<< 12 ||| b.mouseX.setWidth 16 := by
  unfold mouseXWord
  ext i hi
  grind

/-- Settles O30: each read answers its word, and the mouse-Y read acknowledges. -/
theorem mouseReadsPackAndClear : Obligations.MouseReadsPackAndClear := by
  intro s
  refine ⟨decode_encIobRd Config.offMouseY, decode_encIobRd Config.offMouseX, ?_, ?_⟩
  · rw [← mouseYWord_eq_or_shiftLeft]
    rfl
  · rw [← mouseXWord_eq_or_shiftLeft]
    rfl

/-- With the latches 0 the mouse-Y word is the position (30_encoding.md R112). -/
theorem mouseYWord_acknowledgeMouse (clearsReady : Bool) (b : IobRegs) :
    mouseYWord (b.acknowledgeMouse clearsReady) = b.mouseY.setWidth 16 := by
  simp [mouseYWord_eq_or_shiftLeft, IobRegs.acknowledgeMouse]

/-- A second acknowledgement finds nothing to clear. -/
theorem IobRegs.acknowledgeMouse_idem (clearsReady : Bool) (b : IobRegs) :
    (b.acknowledgeMouse clearsReady).acknowledgeMouse clearsReady = b.acknowledgeMouse clearsReady := by
  cases clearsReady <;> simp [IobRegs.acknowledgeMouse, BitVec.and_assoc]

/-- Settles O31: the first read has cleared what the second one packs and clears. -/
theorem secondMouseYReadHasNoLatches : Obligations.SecondMouseYReadHasNoLatches := by
  intro s t u hfirst hsecond
  cases hfirst
  cases hsecond
  simp only [State.replying, State.withIob, mouseYWord_acknowledgeMouse, IobRegs.acknowledgeMouse_idem]

/-! ## The beep and the constant registers -/

/-- Settles O32: the call is recorded, then the read replies 0 and the write nothing. -/
theorem beepAlerts : Obligations.BeepAlerts := by
  intro s v
  exact ⟨decode_encIobRd Config.offBeep, decode_encIobWr Config.offBeep v, rfl, rfl⟩

/-- Settles O34: an offset outside R98's table is unmapped, and the read of it only replies 0. -/
theorem constantReadsAnswerZero : Obligations.ConstantReadsAnswerZero := by
  intro s off
  refine ⟨decode_encIobRd Config.offClk60, fun hnamed hnet => ?_, rfl, rfl⟩
  have houtside : isNetOffset off = false := by
    rw [← Bool.not_eq_true, isNetOffset_iff]
    omega
  have hunmapped : isUnmappedOffset off = true := (isUnmappedOffset_iff off).mpr ⟨hnamed, houtside⟩
  exact (decodeTransaction_iobRead off).trans (decodeOfEncodeIsIdentity (.iobRdUnmapped off) hunmapped)

/-- Settles O33: each ignored write decodes from its encoding, and only replies. -/
theorem ignoredWritesChangeNothing : Obligations.IgnoredWritesChangeNothing := by
  intro s v off i hwf hi
  have hdec := decodeOfEncodeIsIdentity i hwf
  simp only [List.mem_cons, List.not_mem_nil, or_false] at hi
  obtain rfl | rfl | rfl | rfl | rfl | rfl | rfl | rfl := hi
  -- the seven at a named offset, then the unmapped offsets
  iterate 7 exact ⟨⟨_, hdec, .inl (by decide)⟩, rfl⟩
  exact ⟨⟨_, hdec, .inr (selectorOf_iob_eq_add true off)⟩, rfl⟩

/-! ## The network -/

/-- The state after a NetRead with a listed answer. -/
theorem State.netRead_of_answer {s : State} {answer : Half} {more : List Half}
    (h : s.env.netAnswers = answer :: more) (off : Offset) :
    s.netRead off = { s with
      history := .netRead off answer :: s.history
      env := { s.env with netAnswers := more } } := by
  simp [State.netRead, State.record, State.withEnv, Env.nextNetAnswer, Env.dropNetAnswer, h]

/-- Settles O36: the offsets are NET's rows, and the read replies the answer it records. -/
theorem networkOffsetsPassThrough : Obligations.NetworkOffsetsPassThrough := by
  intro s off v answer more
  refine ⟨fun hlo hhi => ?_, rfl, fun hanswers => ?_⟩
  · have hnet := (isNetOffset_iff off).mpr ⟨hlo, hhi⟩
    exact ⟨(decodeTransaction_iobRead off).trans (decodeOfEncodeIsIdentity (.iobRdNet off) hnet),
      (decodeTransaction_iobWrite off v).trans (decodeOfEncodeIsIdentity (.iobWrNet off v) hnet)⟩
  · have hanswer : s.env.nextNetAnswer = answer := by rw [Env.nextNetAnswer, hanswers]
    show readWord16 s.env.nextNetAnswer (s.netRead off) = _
    rw [hanswer, State.netRead_of_answer hanswers]
    rfl

/-! ## The microsecond clock -/

/-- A sample after the first is the elapsed time modulo 2^32 (44_timing.md R271). -/
theorem sampleValue_some {first now : Nat} (h : first ≤ now) :
    sampleValue (some first) now = BitVec.ofNat 32 (now - first) := by
  have hsplit : BitVec.ofNat 32 now = BitVec.ofNat 32 (now - first) + BitVec.ofNat 32 first := by
    rw [← BitVec.ofNat_add, Nat.sub_add_cancel h]
  rw [sampleValue, hsplit, BitVec.add_sub_cancel]

theorem usecLowHalf_ofNat (n : Nat) : usecLowHalf (BitVec.ofNat 32 n) = BitVec.ofNat 16 n := by
  rw [usecLowHalf, ← BitVec.setWidth_eq_extractLsb' (by decide), BitVec.setWidth_ofNat_of_le (by decide)]

/-- The high half is the latch shifted down (30_encoding.md R114). -/
theorem usecHighHalf_eq_ushiftRight (latch : Word) : usecHighHalf latch = (latch >>> 16).setWidth 16 := by
  unfold usecHighHalf
  ext i hi
  simp

section
variable {e : Env} {advance : Nat} {more : List Nat} (h : e.clockAdvances = advance :: more)
include h

theorem Env.now_of_advance : e.now = e.wallClock + advance := by
  rw [Env.now, h]

theorem Env.afterNow_of_advance :
    e.afterNow = { e with clockAdvances := more, wallClock := e.wallClock + advance } := by
  simp only [Env.afterNow, Env.now_of_advance h, h]

end

section
variable {s : State} {advance : Nat} {more : List Nat} (h : s.env.clockAdvances = advance :: more)
include h

/-- The state after the first sample, at a listed advance of the clock. -/
theorem State.sample_first (hfirst : s.timing.usecT0 = none) : s.sample = { s with
    timing := { s.timing with usecLatch := 0, usecT0 := some (s.env.wallClock + advance) }
    env := { s.env with clockAdvances := more, wallClock := s.env.wallClock + advance } } := by
  rw [State.sample, Env.afterNow_of_advance h, Env.now_of_advance h, hfirst]
  rfl

/-- The state after a later sample, at a listed advance of the clock: `usec_t0` stays. -/
theorem State.sample_later {first : Nat} (hle : first ≤ s.env.wallClock + advance)
    (hfirst : s.timing.usecT0 = some first) : s.sample = { s with
    timing := { s.timing with usecLatch := BitVec.ofNat 32 (s.env.wallClock + advance - first) }
    env := { s.env with clockAdvances := more, wallClock := s.env.wallClock + advance } } := by
  rw [State.sample, Env.afterNow_of_advance h, Env.now_of_advance h, hfirst, sampleValue_some hle, sampleT0,
    Option.getD_some, ← hfirst]
  rfl

end

/-- Settles O37: the low read replies the low half of the sample it latches, the high read the latch's other half. -/
theorem microsecondLowSamplesHighReuses : Obligations.MicrosecondLowSamplesHighReuses := by
  intro s advance more hadvance now env
  have hlow : exec .iobRdUsecLo s = readWord16 (usecLowHalf s.sample.timing.usecLatch) s.sample := rfl
  refine ⟨decode_encIobRd Config.offUsecLo, decode_encIobRd Config.offUsecHi, fun hfirst => ?_,
    fun first hle hfirst => ?_, ?_⟩
  · rw [hlow, State.sample_first hadvance hfirst]
    rfl
  · rw [hlow, State.sample_later hadvance hle hfirst, usecLowHalf_ofNat]
    rfl
  · rw [← usecHighHalf_eq_ushiftRight]
    rfl

end Sys2Proof.Machine
end

