-- ==== Sys2Proof/Proofs/InputEvents.lean ====
section
/-! SUPPORT. The keyboard and mouse events: the overrides of the scan table, the word a key leaves, and the state after
each event (43_input_events.md R240 to R254). -/

namespace Sys2Proof.Machine

/-! ## The scan table -/

section
variable {κ : Type} [DecidableEq κ] {code : κ} {shifted : Bool}

/-- One override of the scan table, applied to the value the entry has so far (43_input_events.md R240). -/
def overrideEntry (code : κ) (shifted : Bool) (v : BitVec 8) (p : κ × Bool × BitVec 8) : BitVec 8 :=
  if p.1 = code ∧ p.2.1 = shifted then p.2.2 else v

theorem scanCode_eq_foldl (fe : FrontEnd κ) (code : κ) (shifted : Bool) :
    scanCode fe code shifted = fe.scanPatches.foldl (overrideEntry code shifted) (fe.scanBase code shifted) := rfl

theorem overrideEntry_named (v value : BitVec 8) : overrideEntry code shifted v (code, shifted, value) = value :=
  if_pos ⟨rfl, rfl⟩

/-- Overrides that do not name the entry leave its value. -/
theorem foldl_overrideEntry_of_unnamed {patches : List (κ × Bool × BitVec 8)}
    (h : ∀ p ∈ patches, ¬ (p.1 = code ∧ p.2.1 = shifted)) (v : BitVec 8) :
    patches.foldl (overrideEntry code shifted) v = v := by
  induction patches with
  | nil => rfl
  | cons p patches ih =>
    obtain ⟨hp, hpatches⟩ := List.forall_mem_cons.mp h
    rw [List.foldl_cons, overrideEntry, if_neg hp, ih hpatches]

end

/-- Settles O40: the overrides behind the last one that names the entry leave the value it gave. -/
theorem lastScanOverrideWins : Obligations.LastScanOverrideWins := by
  intro κ _ fe code shifted
  rw [scanCode_eq_foldl]
  refine ⟨fun hunnamed => foldl_overrideEntry_of_unnamed hunnamed _, fun before value after hpatches hafter => ?_⟩
  rw [hpatches, List.foldl_append, List.foldl_cons, overrideEntry_named, foldl_overrideEntry_of_unnamed hafter]

/-! ## The word of a key -/

/-- The modifier bits in the positions of 43_input_events.md R245. -/
theorem modifierBits_eq_append {κ : Type} (fe : FrontEnd κ) (extra : Nat) :
    modifierBits fe extra = 0#2 ++ (if extra &&& fe.extraMeta ≠ 0 then 3 else 0 : BitVec 2) ++
      (if extra &&& fe.extraCtrl ≠ 0 then 3 else 0 : BitVec 2) ++ 0#2 ++ 0#8 := by
  simp only [modifierBits, hasModifier, decide_eq_true_eq]
  split_ifs <;> rfl

section
variable {κ : Type} [DecidableEq κ] {fe : FrontEnd κ} {code : κ}

/-- The word of a function key: the shift mask is not read (43_input_events.md R243, R245). -/
theorem keyScanWord_of_fkey {name : FKeyName} (h : fe.fkey code = some name) (pack : Bool) (extra : Nat) :
    keyScanWord fe pack code extra = fe.fkeyCode name |||
      (if pack = true ∧ extra &&& fe.extraCtrl ≠ 0 then 0x0C00 else 0) |||
      (if pack = true ∧ extra &&& fe.extraMeta ≠ 0 then 0x3000 else 0) := by
  rw [keyScanWord, h, BitVec.or_assoc]
  cases pack <;> simp [modifierBits, hasModifier, Config.ksCtrlBits, Config.ksMetaBits]

/-- The word of any other key, in the positions of 43_input_events.md R244 and R245. -/
theorem keyScanWord_of_no_fkey (h : fe.fkey code = none) (pack : Bool) (extra : Nat) :
    keyScanWord fe pack code extra = 0#2 ++ (if extra &&& fe.extraMeta ≠ 0 then 3 else 0 : BitVec 2) ++
      (if extra &&& fe.extraCtrl ≠ 0 then 3 else 0 : BitVec 2) ++ 0#2 ++
      scanCode fe code (hasModifier extra fe.extraShift) := by
  have hcode (c : BitVec 8) : c.setWidth 16 = 0#8 ++ c := BitVec.setWidth_eq_append (by decide)
  rw [keyScanWord, h, modifierBits_eq_append]
  dsimp only
  rw [hcode, BitVec.or_append, BitVec.zero_or, BitVec.or_zero]

end

/-- Each of the five fields of a key word starts where the fields to its right end. -/
theorem extractLsb'_keyFields (top mods ctrl low : BitVec 2) (code : BitVec 8) :
    let w := top ++ mods ++ ctrl ++ low ++ code
    w.extractLsb' 0 8 = code ∧ w.extractLsb' 8 2 = low ∧ w.extractLsb' 10 2 = ctrl ∧ w.extractLsb' 12 2 = mods ∧
      w.extractLsb' 14 2 = top := by
  intro w
  have hcode (start len : Nat) : w.extractLsb' (start + 8) len = (top ++ mods ++ ctrl ++ low).extractLsb' start len :=
    BitVec.extractLsb'_append_eq_of_le (Nat.le_add_left ..)
  have hlow (start len : Nat) : w.extractLsb' (start + 10) len = (top ++ mods ++ ctrl).extractLsb' start len :=
    (hcode (start + 2) len).trans (BitVec.extractLsb'_append_eq_of_le (Nat.le_add_left ..))
  have hctrl (start len : Nat) : w.extractLsb' (start + 12) len = (top ++ mods).extractLsb' start len :=
    (hlow (start + 2) len).trans (BitVec.extractLsb'_append_eq_of_le (Nat.le_add_left ..))
  exact ⟨BitVec.extractLsb'_append_eq_right, (hcode 0 2).trans BitVec.extractLsb'_append_eq_right,
    (hlow 0 2).trans BitVec.extractLsb'_append_eq_right, (hctrl 0 2).trans BitVec.extractLsb'_append_eq_right,
    (hctrl 2 2).trans BitVec.extractLsb'_append_eq_left⟩

/-- Settles O39: a function key's word reads the control and meta masks only, and any other key's word is its five
fields. -/
theorem keyWordKeepsCodeAndPacksModifiers : Obligations.KeyWordKeepsCodeAndPacksModifiers := by
  intro κ _ fe pack code extra
  refine ⟨fun name hname => keyScanWord_of_fkey hname pack extra, fun name extra' hname hctrl hmeta => ?_,
    fun hname => ?_⟩
  · rw [keyScanWord_of_fkey hname, keyScanWord_of_fkey hname, hctrl, hmeta]
  · rw [keyScanWord_of_no_fkey hname]
    exact extractLsb'_keyFields ..

/-! ## The post of an event -/

/-- With `GATE_IOB_INTS` off an event posts whatever its enable holds (43_input_events.md R241, R250). -/
theorem State.postIf_ungated (enable : Bool) (line : Nat) (s : State) :
    s.postIf (postsWhen Config.gateIobInts enable) line = s.post line := rfl

/-! ## KEY -/

section
variable {κ : Type} [DecidableEq κ] {fe : FrontEnd κ} {code : κ}

theorem State.pressKey_of_isModifier (h : fe.isModifier code = true) (pack gate : Bool) (extra : Nat) (s : State) :
    s.pressKey fe pack gate code extra = s :=
  if_pos h

theorem State.pressKey_of_not_isModifier (h : ¬ fe.isModifier code = true) (pack gate : Bool) (extra : Nat)
    (s : State) : s.pressKey fe pack gate code extra =
      (s.withIob (s.iob.takeKey (keyScanWord fe pack code extra))).postIf
        (postsWhen gate (csrKbdIntEn s.iob.kbdCsr)) Config.lineKbd :=
  if_neg h

end

/-- Settles O38: a pure modifier leaves the state, and any other key posts since no enable gates it. -/
theorem keyEventTranslatesAndPosts : Obligations.KeyEventTranslatesAndPosts := by
  intro code extra s
  refine ⟨decode_encEvent 2 (.key code extra), congrArg Host.Outcome.next ?_⟩
  by_cases hmod : Config.frontEnd.isModifier code = true
  · rw [if_pos hmod, State.pressKey_of_isModifier hmod]
    rfl
  · rw [if_neg hmod, State.pressKey_of_not_isModifier hmod, State.postIf_ungated]
    rfl

/-! ## MOUSE -/

/-- The 12-bit field holds the scaled coordinate modulo 2^12 (43_input_events.md R251). -/
theorem scaleMouse_eq_ofNat_mod (v : Nat) : scaleMouse v = BitVec.ofNat 12 (v * 5 / 3 % 4096) := by
  rw [scaleMouse, ← BitVec.toNat_inj]
  exact (Nat.mod_mod _ _).symm

/-- Head, middle and tail are bits 0, 1 and 2 of `buttons` (43_input_events.md R253). -/
theorem IobRegs.latchButtons_eq (buttons : Nat) (b : IobRegs) : b.latchButtons buttons = { b with
    btnHead := b.btnHead || decide (buttons % 2 = 1)
    btnMiddle := b.btnMiddle || decide (buttons / 2 % 2 = 1)
    btnTail := b.btnTail || decide (buttons / 4 % 2 = 1) } := by
  simp [IobRegs.latchButtons, Nat.testBit_eq_decide_div_mod_eq, Config.buttonMap]

/-- Settles O41: the board takes the event, and it posts since no enable gates it. -/
theorem mouseEventScalesLatchesAndPosts : Obligations.MouseEventScalesLatchesAndPosts := by
  intro x y dx dy buttons s
  refine ⟨decode_encEvent 3 (.mouse x y dx dy buttons), congrArg Host.Outcome.next ?_⟩
  rw [State.moveMouse, State.postIf_ungated, IobRegs.takeMouse, IobRegs.latchButtons_eq, scaleMouse_eq_ofNat_mod,
    scaleMouse_eq_ofNat_mod]
  rfl

end Sys2Proof.Machine
end

