-- ==== Sys2Proof/Proofs/TimingEvents.lean ====
section
/-! SUPPORT. The display CSR, the tick and its hand-off to the main loop, and the clock the samples draw from: the
state after each step, and the run of many ticks up to their one delivery (44_timing.md R270 to R277). -/

namespace Sys2Proof.Machine

/-! ## The display CSR -/

/-- Settles O45: the read only replies, and the write stores `v` without `tvIntMask`, which is bit 4. -/
theorem displayCsrWriteAcknowledges : Obligations.DisplayCsrWriteAcknowledges := by
  intro s v
  exact ⟨decodeTransaction_tv false 0 .absent, decodeTransaction_tv true 0 (.word32 v), rfl, rfl⟩

/-! ## TICK and DELIVER -/

theorem execEvDeliver_of_pending {s : State} (h : s.timing.tickPending = true) :
    execEvDeliver s = .next (((s.withTiming s.timing.deliver).post Config.lineTv).replying .nothing) :=
  if_pos h

theorem execEvDeliver_of_not_pending {s : State} (h : s.timing.tickPending = false) :
    execEvDeliver s = .next (s.replying .nothing) :=
  if_neg (ne_true_of_eq_false h)

theorem decodeTransaction_tick : decodeTransaction ⟨0xC004, .absent⟩ = .ok .evTick :=
  decode_encEvent 4 .absent

theorem decodeTransaction_deliver : decodeTransaction ⟨0xC005, .absent⟩ = .ok .evDeliver :=
  decode_encEvent 5 .absent

/-- Settles O42: TICK sets the flag alone, and DELIVER takes it if it is set. -/
theorem tickSetsAndDeliverPosts : Obligations.TickSetsAndDeliverPosts := by
  intro s
  exact ⟨decodeTransaction_tick, decodeTransaction_deliver, rfl, execEvDeliver_of_pending⟩

/-- Settles O43: with the flag clear DELIVER only replies. -/
theorem deliverNotEnabledChangesNothing : Obligations.DeliverNotEnabledChangesNothing :=
  fun _ hidle => execEvDeliver_of_not_pending hidle

/-! ## The run of many ticks -/

/-- A run whose first step answers a next state goes on from there. -/
theorem run_succ_of_step {M : Host.Core} {s t : M.State} (h : M.step s = .next t) (k : Nat) :
    M.run (k + 1) s = M.run k t := by
  rw [Host.Core.run, h]

/-- The state after a TICK that leaves the inputs `rest` waiting (44_timing.md R272). -/
def State.ticked (rest : List Input) (s : State) : State :=
  ((s.takeInput rest).withTiming { s.timing with tickPending := true }).replying .nothing

/-- A TICK while the flag is set is merged into the one that set it (44_timing.md R277). -/
theorem State.ticked_ticked (rest more : List Input) (s : State) :
    (s.ticked more).ticked rest = s.ticked rest := rfl

section
variable {s : State} {rest : List Input}

theorem step_tick (h : s.env.inputs = .transaction ⟨0xC004, .absent⟩ :: rest) : step s = .next (s.ticked rest) :=
  stepRunsTheDecodedTransaction s _ rest .evTick h decodeTransaction_tick

theorem step_deliver (h : s.env.inputs = .transaction ⟨0xC005, .absent⟩ :: rest)
    (hpending : s.timing.tickPending = true) : step s =
      .next ((((s.takeInput rest).withTiming s.timing.deliver).post Config.lineTv).replying .nothing) :=
  (stepRunsTheDecodedTransaction s _ rest .evDeliver h decodeTransaction_deliver).trans
    (execEvDeliver_of_pending hpending)

/-- However many ticks wait, the state after all of them is the state after one (44_timing.md R277). -/
theorem run_ticks (n k : Nat)
    (h : s.env.inputs = List.replicate (n + 1) (.transaction ⟨0xC004, .absent⟩) ++ rest) :
    core.run (k + (n + 1)) s = core.run k (s.ticked rest) := by
  induction n generalizing s with
  | zero => exact run_succ_of_step (step_tick h) k
  | succ n ih =>
    calc core.run (k + (n + 1 + 1)) s
      _ = core.run (k + (n + 1)) (s.ticked _) := run_succ_of_step (step_tick h) _
      _ = core.run k ((s.ticked _).ticked rest) := ih rfl
      _ = core.run k (s.ticked rest) := by rw [State.ticked_ticked]

end

/-- Settles O44: the ticks leave the flag set once, and the one DELIVER takes it. -/
theorem ticksCoalesce : Obligations.TicksCoalesce := by
  intro n s rest hin
  rw [show n + 2 = 1 + (n + 1) by omega, run_ticks n 1 hin]
  exact run_succ_of_step (step_deliver (s := s.ticked _) rfl rfl) 0

/-! ## The clock -/

theorem exec_wallClock_le {i : Instr} {s t : State} (h : exec i s = .next t) :
    s.env.wallClock ≤ t.env.wallClock := by
  by_cases hreset : i = .evReset
  · subst hreset; cases h; exact Nat.le_refl _  -- RESET keeps the environment
  · exact (exec_effect hreset h).clock

/-- Settles O57: waiting and a store of the host CPU keep the clock, and an instruction moves it only forward. -/
theorem wallClockNeverGoesBack : Obligations.WallClockNeverGoesBack := by
  intro s t h
  obtain ⟨-, rfl⟩ | ⟨a, v, rest, -, rfl⟩ | ⟨-, i, rest, -, -, hexec⟩ := step_cases h
  · exact Nat.le_refl _
  · exact Nat.le_refl _
  · exact exec_wallClock_le (s := s.takeInput rest) hexec

end Sys2Proof.Machine
end

