-- ==== Sys2Proof/Proofs/Posts.lean ====
section
/-! SUPPORT. Every instruction answers a next state, and what it adds to the history: service calls, and behind them
at most one post, of the line of its source (60_exceptions.md R300, R310, R313; 20_memory.md R75). -/

namespace Sys2Proof.Machine

/-! ## What ATTACH and the start write can do -/

/-- ATTACH loads a file with a valid label, or fails (41_disk_commands.md R170). -/
theorem execEvAttach_cases (file : ImageFile) (s : State) :
    (∃ img, execEvAttach file s = .next ((s.withDisk (s.disk.attach img)).replying (.attach true))) ∨
      execEvAttach file s = failAttach s := by
  cases file with
  | unreadable => exact .inr rfl
  | bytes img =>
    by_cases hvalid : labelValid img = true
    · exact .inl ⟨img, if_pos hvalid⟩
    · exact .inr (if_neg hvalid)

/-- The start write is a READ under the key of READ, and under any other key a change of the disk controller
alone, or none (41_disk_commands.md R150, R153, R154, R164 to R166). -/
theorem startCommand_cases (s : State) :
    (commandKey s.disk.command = Config.opRead ∧
      startCommand s = execDskCmdRead (commandFlags s.disk.command) s) ∨
    ∃ d, startCommand s = .next ((s.withDisk d).replying .nothing) := by
  dsimp only [startCommand]
  split_ifs with hread
  · exact .inl ⟨hread, rfl⟩
  · exact .inr ⟨s.disk.decodeDa, rfl⟩  -- READ_COMPARE
  · exact .inr ⟨s.disk.decodeDa, rfl⟩  -- WRITE
  · exact .inr ⟨s.disk, rfl⟩  -- RECALIBRATE
  · exact .inr ⟨s.disk, rfl⟩  -- FAULT_CLEAR
  · exact .inr ⟨s.disk, rfl⟩  -- UNKNOWN

/-! ## Every instruction completes -/

/-- Settles O49: where an instruction's meaning chooses, each of its choices answers a next state. -/
theorem everyInstructionCompletes : Obligations.EveryInstructionCompletes := by
  intro i s
  cases i with
  | evAttach file =>
    obtain ⟨img, hloads⟩ | hfails := execEvAttach_cases file s
    · exact ⟨_, hloads⟩
    · exact ⟨_, hfails⟩
  | evDeliver =>
    cases hpending : s.timing.tickPending with
    | true => exact ⟨_, execEvDeliver_of_pending hpending⟩
    | false => exact ⟨_, execEvDeliver_of_not_pending hpending⟩
  | dskWrStart v =>
    obtain ⟨-, hread⟩ | ⟨d, hother⟩ := startCommand_cases s
    · exact ⟨_, hread⟩
    · exact ⟨_, hother⟩
  | _ => exact ⟨_, rfl⟩

/-! ## Events of which only the newest may be a post -/

/-- Of the events `new`, newest first, only the newest may be a post, and then of a line that `source` allows. -/
inductive PostsLast (source : Nat → Prop) : List Event → Prop
  | quiet {calls} (noPost : ∀ e ∈ calls, e.isPost = false) : PostsLast source calls
  | post {line calls} (allowed : source line) (noPost : ∀ e ∈ calls, e.isPost = false) :
      PostsLast source (.post line :: calls)

section
variable {source : Nat → Prop} {new : List Event}

theorem PostsLast.newest (h : PostsLast source new) {newer older : List Event} {e : Event}
    (hnew : new = newer ++ e :: older) (he : e.isPost = true) : newer = [] := by
  cases h with
  | quiet noPost =>
    subst hnew
    simp [noPost] at he
  | post _ noPost =>
    cases newer with
    | nil => rfl
    | cons =>
      obtain ⟨-, rfl⟩ := List.cons.inj hnew
      simp [noPost] at he

theorem PostsLast.allowed (h : PostsLast source new) {line : Nat} (hpost : .post line ∈ new) : source line := by
  have hquiet {calls : List Event} (hno : ∀ e ∈ calls, e.isPost = false) : .post line ∉ calls :=
    fun hmem => nomatch hno _ hmem
  cases h with
  | quiet noPost => exact absurd hpost (hquiet noPost)
  | post allowed noPost =>
    obtain heq | hmem := List.mem_cons.mp hpost
    · cases heq; exact allowed
    · exact absurd hmem (hquiet noPost)

end

/-- The history grows from `s` to `t`, and only the newest event may be a post, of a line that `source` allows. -/
def HistoryGrows (source : Nat → Prop) (s t : State) : Prop :=
  ∃ new, t.history = new ++ s.history ∧ PostsLast source new

section
variable {source : Nat → Prop} {s t : State}

theorem HistoryGrows.same (h : t.history = s.history) : HistoryGrows source s t :=
  ⟨[], h, .quiet nofun⟩

/-- One service call that is no post. -/
theorem HistoryGrows.call {e : Event} (he : e.isPost = false) (h : t.history = e :: s.history) :
    HistoryGrows source s t :=
  ⟨[e], h, .quiet fun _ hmem => List.mem_singleton.mp hmem ▸ he⟩

theorem HistoryGrows.post {line : Nat} (hline : source line) (h : t.history = .post line :: s.history) :
    HistoryGrows source s t :=
  ⟨[.post line], h, .post hline nofun⟩

end

/-! ## The four sources -/

/-- Performed in `s`, the instruction may post the line (60_exceptions.md R310). -/
inductive PostSource (s : State) : Instr → Nat → Prop
  | read {f} (done : f.doneIntEn = true) : PostSource s (.dskCmdRead f) Config.lineDisk
  | start {v} (key : commandKey s.disk.command = Config.opRead)
      (done : (commandFlags s.disk.command).doneIntEn = true) : PostSource s (.dskWrStart v) Config.lineDisk
  | key {code extra} : PostSource s (.evKey code extra) Config.lineKbd
  | mouse {x y dx dy buttons} : PostSource s (.evMouse x y dx dy buttons) Config.lineMouse
  | deliver (pending : s.timing.tickPending = true) : PostSource s .evDeliver Config.lineTv

/-- A READ's post stands behind the calls of its walk, which are no posts (41_disk_commands.md R163). -/
theorem execDskCmdRead_history {source : Nat → Prop} {f : CommandFlags} {s t : State}
    (hsource : f.doneIntEn = true → source Config.lineDisk) (h : execDskCmdRead f s = .next t) :
    HistoryGrows source s t := by
  cases h
  obtain ⟨calls, hpart⟩ := walkChain_part Config.chainBound s.decodeDa
  rw [readTransfer]
  obtain hend | ⟨hdone, hend⟩ :=
    completeRead_cases f.doneIntEn (walkChain Config.chainBound s.decodeDa)
  · rw [hend]
    exact ⟨calls, hpart.history, .quiet hpart.noPost⟩
  · rw [hend]
    exact ⟨.post Config.lineDisk :: calls, congrArg _ hpart.history, .post (hsource hdone) hpart.noPost⟩

/-- A key posts whatever its enable holds, unless it is a pure modifier (43_input_events.md R241, R246). -/
theorem State.pressKey_history (pack : Bool) (code : KeyCode) (extra : Nat) (s : State) :
    HistoryGrows (PostSource s (.evKey code extra)) s
      ((s.pressKey Config.frontEnd pack Config.gateIobInts code extra).replying .nothing) := by
  by_cases hmod : Config.frontEnd.isModifier code = true
  · rw [State.pressKey_of_isModifier hmod]
    exact .same rfl
  · rw [State.pressKey_of_not_isModifier hmod, State.postIf_ungated]
    exact .post .key rfl

/-- What every instruction adds to the history. -/
theorem exec_history {i : Instr} {s t : State} (h : exec i s = .next t) :
    HistoryGrows (PostSource s i) s t := by
  cases i with
  | dskCmdRead => exact execDskCmdRead_history .read h
  | dskWrStart v =>
    obtain ⟨hkey, hread⟩ | ⟨d, hother⟩ := startCommand_cases s
    · exact execDskCmdRead_history (.start hkey) (hread.symm.trans h)
    · cases hother.symm.trans h
      exact .same rfl
  | evAttach file =>
    obtain ⟨img, hloads⟩ | hfails := execEvAttach_cases file s
    · cases hloads.symm.trans h
      exact .same rfl
    · cases hfails.symm.trans h
      exact .same rfl
  | evKey code extra => cases h; exact s.pressKey_history _ code extra
  | evMouse => cases h; exact .post .mouse rfl
  | evDeliver =>
    cases hpending : s.timing.tickPending with
    | true =>
      cases (execEvDeliver_of_pending hpending).symm.trans h
      exact .post (.deliver hpending) rfl
    | false =>
      cases (execEvDeliver_of_not_pending hpending).symm.trans h
      exact .same rfl
  | iobRdBeep | iobWrBeep | iobRdNet | iobWrNet => cases h; exact .call rfl rfl
  | _ => cases h; exact .same rfl

/-- Settles O53: what stands among the events of an instruction as a post has one of the sources. -/
theorem postSources : Obligations.PostSources := by
  intro i s t new line h hhistory hpost
  obtain ⟨new', hgrows, hlast⟩ := exec_history h
  obtain rfl : new = new' := List.append_cancel_right (hhistory.symm.trans hgrows)
  cases hlast.allowed hpost with
  | read done => exact .inl ⟨rfl, .inl ⟨_, rfl, done⟩⟩
  | start key done =>
    have hmasked : (s.disk.command &&& Config.cmdOpcodeMask).toNat = 0 := commandKey_eq_iff.mp key
    exact .inl ⟨rfl, .inr ⟨_, rfl, BitVec.eq_of_toNat_eq hmasked, done⟩⟩
  | key => exact .inr (.inl ⟨rfl, _, _, rfl⟩)
  | mouse => exact .inr (.inr (.inl ⟨rfl, _, _, _, _, _, rfl⟩))
  | deliver pending => exact .inr (.inr (.inr ⟨rfl, rfl, pending⟩))

/-- Settles O52: waiting and a store of the host CPU keep the history, and an instruction posts last. -/
theorem stepPostsAtMostOnceAndLast : Obligations.StepPostsAtMostOnceAndLast := by
  intro s t h
  have hgrows : ∃ source, HistoryGrows source s t := by
    obtain ⟨-, rfl⟩ | ⟨a, v, rest, -, rfl⟩ | ⟨-, i, rest, -, -, hexec⟩ := step_cases h
    · exact ⟨fun _ => False, .same rfl⟩
    · exact ⟨fun _ => False, .same rfl⟩
    · exact ⟨_, exec_history (s := s.takeInput rest) hexec⟩
  obtain ⟨_, new, hhistory, hlast⟩ := hgrows
  exact ⟨new, hhistory, fun _ _ _ => hlast.newest⟩

end Sys2Proof.Machine
end

