-- ==== Sys2Proof/Proofs/Reset.lean ====
section
/-! SUPPORT. The block after RESET and while it waits: the step without a transaction that decodes, what RESET puts
back, and the invariant of the state after reset (70_reset_and_hazards.md R340, R341). -/

namespace Sys2Proof.Machine

/-! ## The step without a transaction that decodes -/

section
variable {s : State} {rest : List Input}

theorem step_of_no_input (h : s.env.inputs = []) : step s = .next s := by
  rw [step, h]

theorem step_of_error {t : Transaction} {why : DecodeError} (h : s.env.inputs = .transaction t :: rest)
    (hdec : decodeTransaction t = .error why) : step s = .refused (.illegalTransaction why) := by
  simp only [step, h, hdec]

theorem step_hostStore {a v : Word} (h : s.env.inputs = .hostStore a v :: rest) :
    step s = .next ((s.takeInput rest).withMem (Memory.store s.mem a.toNat v)) := by
  rw [step, h]

end

/-- Settles O7: one equation of the step for each form of the first input. -/
theorem stepWithoutADecodedTransaction : Obligations.StepWithoutADecodedTransaction :=
  ⟨fun _ => step_of_no_input, fun _ _ _ _ => step_of_error, fun _ _ _ _ => step_hostStore⟩

/-! ## RESET -/

theorem decodeTransaction_reset : decodeTransaction ⟨0xC000, .absent⟩ = .ok .evReset :=
  decode_encEvent 0 .absent

theorem exec_evReset (s : State) : exec .evReset s = .next (s.resetBlock.replying .nothing) := rfl

/-- Settles O46: RESET and the state after reset share the reset values of the three parts of block state. -/
theorem resetRestoresEveryRegister : Obligations.ResetRestoresEveryRegister :=
  ⟨rfl, rfl, rfl, decodeTransaction_reset, exec_evReset⟩

/-! ## The invariant -/

/-- Settles O51: nothing is attached, no sample is taken and memory holds no word, so that the clauses about them
are empty; the others are about registers at their reset values. -/
theorem resetMeetsTheInvariant : Obligations.ResetMeetsTheInvariant where
  status := rfl
  maAligned := BitVec.zero_and
  geometry := by rintro _ ⟨⟩
  csrReserved := BitVec.zero_and
  memory := rfl
  clock := by rintro _ ⟨⟩

end Sys2Proof.Machine
end
